-- ==== Sys2Proof/Word.lean ====
section
/-! DEFINITION. The two bit-vector types of the machine: words and bytes (spec/00_scope.md R7, R9). -/

namespace Sys2Proof

/-- A 16-bit word: a register, an address, an instruction word (spec/00_scope.md R7). -/
abbrev Word := BitVec 16

/-- A byte of memory, a byte operand, or the processor status word (spec/00_scope.md R14; spec/10_state.md R40). -/
abbrev Byte := BitVec 8

/-- The size of an operand: a word (s = 2, w = 16) or a byte (s = 1, w = 8) (spec/00_scope.md R14). -/
inductive Size where
  | byte
  | word
  deriving DecidableEq, Repr

end Sys2Proof
end

