-- ==== Sys2Proof/Machine/Bits.lean ====
section
/-! DEFINITION. Bit fields, extension and byte order (spec/00_scope.md R9, R10; spec/20_memory.md R73). -/

namespace Sys2Proof.Machine

/-- `v[7:0]` (spec/00_scope.md R10). -/
def lo8 (v : Word) : Byte := v.extractLsb' 0 8

/-- `v[15:8]`. -/
def hi8 (v : Word) : Byte := v.extractLsb' 8 8

/-- `{high, low}`: the word of two bytes (spec/20_memory.md R73). -/
def joinBytes (high low : Byte) : Word := high ++ low

/-- `sext_16` of a byte (spec/00_scope.md R9). -/
def sext16 (b : Byte) : Word := b.signExtend 16

/-- `zext_16` of a byte (spec/00_scope.md R9). -/
def zext16 (b : Byte) : Word := b.setWidth 16

/-- `a & 0xFFFE` (spec/20_memory.md R76, R80). -/
def evenAddr (a : Word) : Word := a &&& 0xFFFE#16

end Sys2Proof.Machine
end

