-- ==== Sys2Proof/Config.lean ====
section
/-! DEFINITION. What an implementation or a platform fixes: the parameters of spec/00_scope.md R8, their defaults, the
values the model names where the spec states none, and the free values (opaque constants: nothing in Lean can evaluate
them). The parameters are plain data that a state carries and no step changes (log 4). -/

namespace Sys2Proof

/-- ODD_WORD_POLICY: what a word access at an odd address does (spec/20_memory.md R76). -/
inductive OddWordPolicy where
  /-- The bus performs the access at `a & 0xFFFE`. -/
  | align
  /-- The access reports a bus error. -/
  | busError
  deriving DecidableEq, Repr

/-- HALT_ACTION: what the HALT instruction does (spec/44_system.md R300). -/
inductive HaltAction where
  | stop
  | trap4
  deriving DecidableEq, Repr

/-- What stands at a platform region that is not the reference bus's memory (spec/20_memory.md R81, R88; log 5). -/
inductive RegionKind where
  /-- Nothing answers: every access reports a bus error (spec/20_memory.md R70). -/
  | absent
  /-- A device answers: each access is answered by a free value or a bus error (spec/20_memory.md R88; log 6). -/
  | device
  deriving DecidableEq, Repr

/-- A region of the address space which the platform takes from the reference bus (log 5). -/
structure Region where
  base : Nat
  size : Nat
  kind : RegionKind
  deriving DecidableEq, Repr

/-- What the core says to the world outside: a transaction with a device region, or the ResetOut event
(spec/20_memory.md R70; spec/44_system.md R302; spec/70_reset_and_hazards.md R404). -/
inductive BusEvent where
  | readByte (a : Word)
  | readWord (a : Word)
  | writeByte (a : Word) (v : Byte)
  | writeWord (a : Word) (v : Word)
  | resetOut
  deriving DecidableEq, Repr

/-- The parameters the model takes (spec/00_scope.md R8). `platform` is the part of BUS that is not the reference bus. -/
structure Params where
  oddWord : OddWordPolicy
  linePriority : Vector (BitVec 3) 4
  haltAction : HaltAction
  mtpsWritesPriority : Bool
  sbcVQuirk : Bool
  platform : List Region
  deriving DecidableEq, Repr

/-- The spec's defaults (spec/00_scope.md R8); no platform region, which is the reference bus (spec/20_memory.md R88). -/
def Config.defaults : Params where
  oddWord := .align
  linePriority := #v[4, 5, 6, 7]
  haltAction := .stop
  mtpsWritesPriority := false
  sbcVQuirk := false
  platform := []

/-- DESIGN CHOICE (log 2): the INIT_PSW that `State.reset` takes; the spec leaves it to the host
(spec/70_reset_and_hazards.md R390, R394). PRI = 7, T = 0. -/
def Config.initPsw : Byte := 0xE0#8

/-- DESIGN CHOICE (log 1): what R0 to R5 hold after a reset; the spec states no value (spec/10_state.md R51). -/
def Config.resetRegister : Word := 0#16

/-- DESIGN CHOICE (log 3): what a byte of memory that is not listed reads as. -/
def Config.unlistedByte : Byte := 0#8

/-- FREE VALUE (log 6): what a device answers to the newest transaction of the history, newest first; `none` is a bus
error. A byte transaction takes the low byte (spec/20_memory.md R88; spec/93_implementation_defined.md I6, I7). -/
opaque Config.deviceReply : List BusEvent → Option Word

/-- FREE VALUE (log 11): ARITH_TRAP_VECTOR, which no rule raises (spec/60_exceptions.md R345). -/
opaque Config.arithTrapVector : Word

/-- FREE VALUE (log 12): the cost of the n-th step of a slice is one more than this, so at least 1
(spec/70_reset_and_hazards.md R410). No architectural rule reads it. -/
opaque Config.extraCost : Nat → Nat

end Sys2Proof
end

