-- ==== Sys2Proof/Syntax.lean ====
section
/-! DEFINITION. The instructions: one constructor for each mnemonic of spec/opcode_table.json (spec/30_encoding.md R114),
and `illegal` for the words of its ILLEGAL rows (R118). Operand extension words are not part of an instruction: operand
resolution fetches them (spec/40_addressing.md R140, R145). -/

namespace Sys2Proof

/-- A general register, R0 to R7; R6 is SP and R7 is PC (spec/10_state.md R30). -/
abbrev Reg := Fin 8

/-- The eight addressing modes, 0 to 7 in this order (spec/40_addressing.md R141). -/
inductive Mode where
  | register
  | deferred
  | autoInc
  | autoIncDeferred
  | autoDec
  | autoDecDeferred
  | indexed
  | indexedDeferred
  deriving DecidableEq, Repr

/-- A 6-bit operand field: mode and register (spec/30_encoding.md R110). -/
structure Opnd where
  mode : Mode
  reg : Reg
  deriving DecidableEq, Repr

/-- The instructions. `src` and `dst` are operand fields, `r` a register field, `off` a branch or SOB offset, `code` an EMT
or TRAP code, `m` a condition-code mask (N, Z, V, C from bit 3 down). -/
inductive Instr where
  -- format Z
  | halt
  | wait
  | rti
  | bpt
  | iot
  | reset
  | rtt
  -- jumps, linkage, condition codes
  | jmp (dst : Opnd)
  | rts (r : Reg)
  | clcc (m : BitVec 4)
  | secc (m : BitVec 4)
  | swab (dst : Opnd)
  -- branches
  | br (off : BitVec 8)
  | bne (off : BitVec 8)
  | beq (off : BitVec 8)
  | bge (off : BitVec 8)
  | blt (off : BitVec 8)
  | bgt (off : BitVec 8)
  | ble (off : BitVec 8)
  | jsr (r : Reg) (dst : Opnd)
  -- single operand, word
  | clr (dst : Opnd)
  | com (dst : Opnd)
  | inc (dst : Opnd)
  | dec (dst : Opnd)
  | neg (dst : Opnd)
  | adc (dst : Opnd)
  | sbc (dst : Opnd)
  | tst (dst : Opnd)
  | ror (dst : Opnd)
  | rol (dst : Opnd)
  | asr (dst : Opnd)
  | asl (dst : Opnd)
  | sxt (dst : Opnd)
  -- double operand, word
  | mov (src dst : Opnd)
  | cmp (src dst : Opnd)
  | bit (src dst : Opnd)
  | bic (src dst : Opnd)
  | bis (src dst : Opnd)
  | add (src dst : Opnd)
  | xor (r : Reg) (dst : Opnd)
  | sob (r : Reg) (off : BitVec 6)
  -- branches, bit 15 set
  | bpl (off : BitVec 8)
  | bmi (off : BitVec 8)
  | bhi (off : BitVec 8)
  | blos (off : BitVec 8)
  | bvc (off : BitVec 8)
  | bvs (off : BitVec 8)
  | bcc (off : BitVec 8)
  | bcs (off : BitVec 8)
  -- traps with a code
  | emt (code : BitVec 8)
  | trap (code : BitVec 8)
  -- single operand, byte
  | clrb (dst : Opnd)
  | comb (dst : Opnd)
  | incb (dst : Opnd)
  | decb (dst : Opnd)
  | negb (dst : Opnd)
  | adcb (dst : Opnd)
  | sbcb (dst : Opnd)
  | tstb (dst : Opnd)
  | rorb (dst : Opnd)
  | rolb (dst : Opnd)
  | asrb (dst : Opnd)
  | aslb (dst : Opnd)
  | mtps (src : Opnd)
  | mfps (dst : Opnd)
  -- double operand, byte, and SUB
  | movb (src dst : Opnd)
  | cmpb (src dst : Opnd)
  | bitb (src dst : Opnd)
  | bicb (src dst : Opnd)
  | bisb (src dst : Opnd)
  | sub (src dst : Opnd)
  -- the ILLEGAL rows
  | illegal (w : Word)
  deriving DecidableEq, Repr

end Sys2Proof
end

