-- ==== Sys2Proof/Machine/State.lean ====
section
/-! DEFINITION. The state of the machine as plain data, the reasons a step can stop, and the state right after reset
(spec/10_state.md; INVENTORY.md lists each field with its rule and reset value). -/

namespace Sys2Proof.Machine

/-- Memory: (address, byte) pairs, addresses strictly rising, no pair whose byte is `Config.unlistedByte`
(spec/20_memory.md R88; log 3). -/
abbrev Memory := List Host.Cell

/-- One interrupt request line, as the interrupt source drives it (spec/10_state.md R49). -/
structure Line where
  active : Bool
  vector : Word
  deriving DecidableEq, Repr

/-- Everything the spec gives the machine. -/
structure State where
  /-- R0 to R7; R6 is SP, R7 is PC (spec/10_state.md R30). -/
  regs : Vector Word 8
  /-- Which registers have been written since reset (spec/10_state.md R51; log 1). -/
  written : Vector Bool 8
  /-- The processor status word, bits 7:0; bits 15:8 do not exist (spec/10_state.md R36, R40). -/
  psw : Byte
  /-- The previous PC (spec/10_state.md R43, R44). -/
  ppc : Word
  /-- The wait state (spec/10_state.md R45). -/
  waiting : Bool
  /-- The halted state (spec/10_state.md R46). -/
  halted : Bool
  /-- PSW.T as sampled at the fetch of the current instruction (spec/10_state.md R47). -/
  tstart : Bool
  /-- The power-fail request (spec/10_state.md R48). -/
  pfail : Bool
  /-- The fault mark DoubleFault, never cleared (spec/60_exceptions.md R364). -/
  doubleFault : Bool
  /-- The fault mark ResetFault, never cleared (spec/70_reset_and_hazards.md R391). -/
  resetFault : Bool
  /-- The fault mark UnwrittenRegister(i): the first register of R0 to R5 that a rule read while it was unwritten, never
  cleared (spec/10_state.md R51; spec/70_reset_and_hazards.md R406; log 1). -/
  unwrittenRead : Option Reg
  /-- The four interrupt lines (spec/10_state.md R49). -/
  lines : Vector Line 4
  /-- The reference bus's bytes (spec/20_memory.md R88). -/
  mem : Memory
  /-- What the core has said to devices and to the host, newest first (log 6, log 8). -/
  events : List BusEvent
  /-- The parameters of spec/00_scope.md R8 (log 4). -/
  params : Params
  deriving DecidableEq, Repr

/-- Why a step stops. Only `step` raises these, and only on a core that is already halted, which takes no step
(spec/10_state.md R46; spec/60_exceptions.md R370; log 9). No instruction's meaning raises one, and no read of a
register stops a run (log 1). -/
inductive Fault where
  /-- Raised by `step`: the core is halted and no fault mark is recorded, the good end of a run
  (spec/70_reset_and_hazards.md R406). Safe: the hardware takes no step either. -/
  | halted
  /-- Raised by `step`: the core is halted and the mark DoubleFault is recorded (spec/60_exceptions.md R364). Safe: the
  hardware takes no step either. -/
  | doubleFault
  /-- Raised by `step`: the core is halted and the mark ResetFault is recorded (spec/70_reset_and_hazards.md R391). Safe:
  the hardware takes no step either. -/
  | resetFault
  /-- Raised by `step`: the core is halted and the mark UnwrittenRegister(r) is recorded, so the run has not ended well
  (spec/70_reset_and_hazards.md R406). Safe: the hardware takes no step either. -/
  | unwrittenRegister (r : Reg)
  deriving DecidableEq, Repr

/-- Why an instruction is refused. -/
inductive Refusal where
  /-- Raised by an arm of `exec` whose instruction has no meaning yet; there is none. Safe: the model stops. -/
  | notModelled (mnemonic : String)
  deriving DecidableEq, Repr

/-- The state right after `Reset(Config.initPsw)` of a machine whose memory lists nothing and whose parameters are the
defaults (spec/10_state.md R50; spec/70_reset_and_hazards.md R390). PC and SP are the words at 0x0000 and 0x0002 of that
memory. DESIGN CHOICE for R0 to R5 (log 1), the PSW (log 2), memory (log 3), and lines, marks and events (log 14). -/
def State.reset : State where
  regs := #v[Config.resetRegister, Config.resetRegister, Config.resetRegister, Config.resetRegister,
    Config.resetRegister, Config.resetRegister, 0#16, 0#16]
  written := #v[false, false, false, false, false, false, true, true]
  psw := Config.initPsw
  ppc := 0#16
  waiting := false
  halted := false
  tstart := false
  pfail := false
  doubleFault := false
  resetFault := false
  unwrittenRead := none
  lines := #v[⟨false, 0#16⟩, ⟨false, 0#16⟩, ⟨false, 0#16⟩, ⟨false, 0#16⟩]
  mem := []
  events := []
  params := Config.defaults

end Sys2Proof.Machine
end

