-- ==== Sys2Proof/Machine/Flags.lean ====
section
/-! DEFINITION. The processor status word's fields (spec/10_state.md R36, R40) and every flag computation of
spec/41_double_operand.md and spec/42_single_operand.md, once for both operand widths (spec/00_scope.md R13, R14). A
computation takes the flags before the instruction, so that a flag it leaves alone is visible in its text. -/

namespace Sys2Proof.Machine

/-- The four condition codes (spec/10_state.md R36). -/
structure Cc where
  n : Bool
  z : Bool
  v : Bool
  c : Bool
  deriving DecidableEq, Repr

/-- `PSW.N`, `PSW.Z`, `PSW.V`, `PSW.C`: bits 3 to 0 (spec/10_state.md R36). -/
def ccOf (p : Byte) : Cc :=
  { n := p.getLsbD 3, z := p.getLsbD 2, v := p.getLsbD 1, c := p.getLsbD 0 }

/-- The condition codes as bits 3 to 0. -/
def Cc.toBits (k : Cc) : BitVec 4 :=
  BitVec.ofBool k.n ++ BitVec.ofBool k.z ++ BitVec.ofBool k.v ++ BitVec.ofBool k.c

/-- The PSW with other condition codes; T and PRI stay (spec/10_state.md R36). -/
def withCc (p : Byte) (k : Cc) : Byte := p.extractLsb' 4 4 ++ k.toBits

/-- `PSW.T`, bit 4 (spec/10_state.md R36, R38). -/
def traceBit (p : Byte) : Bool := p.getLsbD 4

/-- `PSW.PRI`, bits 7:5 (spec/10_state.md R36, R39). -/
def priOf (p : Byte) : BitVec 3 := p.extractLsb' 5 3

/-- `N(r, w)` (spec/00_scope.md R13). -/
def negFlag {w : Nat} (r : BitVec w) : Bool := r.msb

/-- `Z(r, w)` (spec/00_scope.md R13). -/
def zeroFlag {w : Nat} (r : BitVec w) : Bool := r == 0#w

/-- MOV, BIT, BIC, BIS, XOR, MFPS: N and Z from the value, V 0, C kept (spec/41_double_operand.md R181, R183 to R185, R188;
spec/42_single_operand.md R261). -/
def moveFlags {w : Nat} (k : Cc) (t : BitVec w) : Cc :=
  { n := negFlag t, z := zeroFlag t, v := false, c := k.c }

/-- CMP: the flags of sv − dv (spec/41_double_operand.md R182). -/
def cmpFlags {w : Nat} (sv dv : BitVec w) : Cc :=
  let t := sv - dv
  { n := negFlag t, z := zeroFlag t, v := (sv.msb != dv.msb) && (t.msb == dv.msb), c := sv.ult dv }

/-- BIT: the flags of sv & dv (spec/41_double_operand.md R183). -/
def bitFlags {w : Nat} (sv : BitVec w) (k : Cc) (dv : BitVec w) : Cc := moveFlags k (sv &&& dv)

/-- BIC: ~sv & dv (spec/41_double_operand.md R184). -/
def bicOp {w : Nat} (sv : BitVec w) (k : Cc) (dv : BitVec w) : BitVec w × Cc :=
  let t := ~~~sv &&& dv
  (t, moveFlags k t)

/-- BIS: sv | dv (spec/41_double_operand.md R185). -/
def bisOp {w : Nat} (sv : BitVec w) (k : Cc) (dv : BitVec w) : BitVec w × Cc :=
  let t := sv ||| dv
  (t, moveFlags k t)

/-- XOR: sv ^ dv (spec/41_double_operand.md R188). -/
def xorOp {w : Nat} (sv : BitVec w) (k : Cc) (dv : BitVec w) : BitVec w × Cc :=
  let t := sv ^^^ dv
  (t, moveFlags k t)

/-- ADD: sv + dv, C the carry out (spec/41_double_operand.md R186). -/
def addOp {w : Nat} (sv : BitVec w) (_ : Cc) (dv : BitVec w) : BitVec w × Cc :=
  let u := sv.setWidth (w + 1) + dv.setWidth (w + 1)
  let t := u.setWidth w
  (t, { n := negFlag t, z := zeroFlag t, v := (sv.msb == dv.msb) && (t.msb != sv.msb), c := u.msb })

/-- SUB: dv − sv, C the borrow (spec/41_double_operand.md R187). -/
def subOp {w : Nat} (sv : BitVec w) (_ : Cc) (dv : BitVec w) : BitVec w × Cc :=
  let t := dv - sv
  (t, { n := negFlag t, z := zeroFlag t, v := (sv.msb != dv.msb) && (t.msb == sv.msb), c := dv.ult sv })

/-- CLR's flags (spec/42_single_operand.md R221). -/
def clearFlags : Cc := { n := false, z := true, v := false, c := false }

/-- COM: ~dv (spec/42_single_operand.md R222). -/
def comOp {w : Nat} (_ : Cc) (dv : BitVec w) : BitVec w × Cc :=
  let t := ~~~dv
  (t, { n := negFlag t, z := zeroFlag t, v := false, c := true })

/-- INC: dv + 1, V when dv is the largest positive number, C kept (spec/42_single_operand.md R223). -/
def incOp {w : Nat} (k : Cc) (dv : BitVec w) : BitVec w × Cc :=
  let t := dv + 1#w
  (t, { n := negFlag t, z := zeroFlag t, v := dv == BitVec.intMax w, c := k.c })

/-- DEC: dv − 1, V when dv is the most negative number, C kept (spec/42_single_operand.md R224). -/
def decOp {w : Nat} (k : Cc) (dv : BitVec w) : BitVec w × Cc :=
  let t := dv - 1#w
  (t, { n := negFlag t, z := zeroFlag t, v := dv == BitVec.intMin w, c := k.c })

/-- NEG: 0 − dv (spec/42_single_operand.md R225). -/
def negOp {w : Nat} (_ : Cc) (dv : BitVec w) : BitVec w × Cc :=
  let t := 0#w - dv
  (t, { n := negFlag t, z := zeroFlag t, v := t == BitVec.intMin w, c := t != 0#w })

/-- The carry as a number of width w. -/
def carryIn {w : Nat} (k : Cc) : BitVec w := if k.c then 1#w else 0#w

/-- ADC: dv + C (spec/42_single_operand.md R226). -/
def adcOp {w : Nat} (k : Cc) (dv : BitVec w) : BitVec w × Cc :=
  let t := dv + carryIn k
  (t, { n := negFlag t, z := zeroFlag t, v := (dv == BitVec.intMax w) && k.c, c := (dv == BitVec.allOnes w) && k.c })

/-- SBC: dv − C, V by SBC_V_QUIRK (spec/42_single_operand.md R227, R232). -/
def sbcOp {w : Nat} (quirk : Bool) (k : Cc) (dv : BitVec w) : BitVec w × Cc :=
  let t := dv - carryIn k
  (t, { n := negFlag t, z := zeroFlag t, v := (dv == BitVec.intMin w) && (k.c || quirk), c := (dv == 0#w) && k.c })

/-- TST's flags (spec/42_single_operand.md R228). -/
def testFlags {w : Nat} (_ : Cc) (dv : BitVec w) : Cc :=
  { n := negFlag dv, z := zeroFlag dv, v := false, c := false }

/-- The flags of a shift or rotate: C is the bit shifted out, V = N ^ C with the new N and C
(spec/42_single_operand.md R240 to R243). -/
def shiftFlags {w : Nat} (t : BitVec w) (out : Bool) : Cc :=
  { n := negFlag t, z := zeroFlag t, v := negFlag t ^^ out, c := out }

/-- ROR: {C, dv[w-1:1]} (spec/42_single_operand.md R240). -/
def rorOp {w : Nat} (k : Cc) (dv : BitVec w) : BitVec w × Cc :=
  let t := (dv >>> 1) ||| (if k.c then BitVec.intMin w else 0#w)
  (t, shiftFlags t (dv.getLsbD 0))

/-- ROL: {dv[w-2:0], C} (spec/42_single_operand.md R241). -/
def rolOp {w : Nat} (k : Cc) (dv : BitVec w) : BitVec w × Cc :=
  let t := (dv <<< 1) ||| carryIn k
  (t, shiftFlags t dv.msb)

/-- ASR: {dv[w-1], dv[w-1:1]} (spec/42_single_operand.md R242). -/
def asrOp {w : Nat} (_ : Cc) (dv : BitVec w) : BitVec w × Cc :=
  let t := dv.sshiftRight 1
  (t, shiftFlags t (dv.getLsbD 0))

/-- ASL: {dv[w-2:0], 0} (spec/42_single_operand.md R243). -/
def aslOp {w : Nat} (_ : Cc) (dv : BitVec w) : BitVec w × Cc :=
  let t := dv <<< 1
  (t, shiftFlags t dv.msb)

/-- SWAB: {dv[7:0], dv[15:8]}, the flags of the new low byte (spec/42_single_operand.md R250). -/
def swabOp (_ : Cc) (dv : Word) : Word × Cc :=
  let t := joinBytes (lo8 dv) (hi8 dv)
  (t, { n := negFlag (lo8 t), z := zeroFlag (lo8 t), v := false, c := false })

/-- SXT's value (spec/42_single_operand.md R251). -/
def sxtValue (k : Cc) : Word := if k.n then 0xFFFF#16 else 0x0000#16

/-- SXT's flags: Z from N, V 0, N and C kept (spec/42_single_operand.md R251). -/
def sxtFlags (k : Cc) : Cc := { n := k.n, z := !k.n, v := false, c := k.c }

/-- The PSW after MTPS of the byte `sv`: N, Z, V and C; PRI only when the parameter says so; T never
(spec/42_single_operand.md R260; spec/10_state.md R41). -/
def mtpsPsw (writesPriority : Bool) (p sv : Byte) : Byte :=
  (if writesPriority then sv.extractLsb' 5 3 else p.extractLsb' 5 3) ++ p.extractLsb' 4 1 ++ sv.extractLsb' 0 4

/-- The clear group: `PSW[3:0] & ~m` (spec/44_system.md R310). -/
def clearCcBits (p : Byte) (m : BitVec 4) : Byte := p.extractLsb' 4 4 ++ (p.extractLsb' 0 4 &&& ~~~m)

/-- The set group: `PSW[3:0] | m` (spec/44_system.md R311). -/
def setCcBits (p : Byte) (m : BitVec 4) : Byte := p.extractLsb' 4 4 ++ (p.extractLsb' 0 4 ||| m)

end Sys2Proof.Machine
end

