-- ==== Sys2Proof/Machine/Memory.lean ====
section
/-! DEFINITION. The reference bus's byte array (spec/20_memory.md R88) as a list in one canonical form (log 3). -/

namespace Sys2Proof.Machine

/-- The canonical form: addresses strictly rising and inside the 64 KiB space, no byte equal to the unlisted one. -/
abbrev Memory.wf (m : Memory) : Prop :=
  m.Pairwise (fun x y => x.1 < y.1) ∧ ∀ c ∈ m, c.1 < 65536 ∧ c.2 ≠ Config.unlistedByte

/-- `byte[a]` (spec/20_memory.md R88). -/
def Memory.read : Memory → Nat → Byte
  | [], _ => Config.unlistedByte
  | c :: m, a => if c.1 = a then c.2 else Memory.read m a

/-- The pair (a, b) put at its place in a list without the address `a`. -/
def Memory.insert : Memory → Nat → Byte → Memory
  | [], a, b => [(a, b)]
  | c :: m, a, b => if c.1 < a then c :: Memory.insert m a b else (a, b) :: c :: m

/-- `byte[a] <- b` (spec/20_memory.md R88); writing the unlisted byte removes the pair. -/
def Memory.write (m : Memory) (a : Nat) (b : Byte) : Memory :=
  let rest := m.filter fun c => c.1 ≠ a
  if b = Config.unlistedByte then rest else Memory.insert rest a b

end Sys2Proof.Machine
end

