-- ==== Sys2Proof/Machine/Ops.lean ====
section
/-! DEFINITION. The named operations over registers, status and bus (spec/00_scope.md R10, R11; spec/20_memory.md), taking a
trap as one shared operation (spec/60_exceptions.md R360), the return from one beside it (R365), and the end of an
instruction (R372). An operation that makes bus calls answers `Res`: a value and the next state, or a bus error and the
state as it stands at the failing call, from which nothing is undone (spec/40_addressing.md R147). -/

namespace Sys2Proof.Machine

/-- SP is R6 (spec/10_state.md R30). -/
abbrev SP : Reg := 6

/-- PC is R7 (spec/10_state.md R30). -/
abbrev PC : Reg := 7

/-- The answer of an operation that makes bus calls (spec/20_memory.md R70). -/
inductive Res (α : Type) where
  /-- Every bus call completed. -/
  | ok (a : α) (s : State)
  /-- A bus call reported an error in this state. -/
  | err (s : State)
  deriving DecidableEq, Repr

/-- One operation after another; a bus error ends the sequence (spec/00_scope.md R11). -/
def Res.bind {α β : Type} (r : Res α) (f : α → State → Res β) : Res β :=
  match r with
  | .ok a s => f a s
  | .err s => .err s

/-! ### Registers and status -/

/-- `x[r]` (spec/00_scope.md R10; spec/10_state.md R33). -/
def State.reg (s : State) (r : Reg) : Word := s.regs[r]

/-- `x[r] <- v`: a write of the whole register, which is then a written one (spec/10_state.md R33, R51). -/
def State.setReg (s : State) (r : Reg) (v : Word) : State :=
  { s with regs := s.regs.set r v, written := s.written.set r true }

/-- `x[r][7:0] <- b`: the high byte stays, and an unwritten register stays unwritten (spec/10_state.md R33, R51). -/
def State.setRegLow (s : State) (r : Reg) (b : Byte) : State :=
  { s with regs := s.regs.set r (joinBytes (hi8 s.regs[r]) b) }

/-- The mark UnwrittenRegister after a read of register r: the first unwritten register of R0 to R5 that was read stays
recorded (spec/10_state.md R51; spec/70_reset_and_hazards.md R406; log 1). -/
def State.markAfterRead (s : State) (r : Reg) : Option Reg :=
  if s.unwrittenRead.isNone && decide (r.val < 6) && !s.written[r] then some r else s.unwrittenRead

/-- A rule's read of register r leaves its mark (spec/10_state.md R51). -/
def State.noteRead (s : State) (r : Reg) : State := { s with unwrittenRead := s.markAfterRead r }

/-- `SP` (spec/00_scope.md R10). -/
def State.sp (s : State) : Word := s.reg SP

/-- `pc` (spec/00_scope.md R10). -/
def State.pc (s : State) : Word := s.reg PC

/-- `SP <- v`. -/
def State.setSp (s : State) (v : Word) : State := s.setReg SP v

/-- `pc <- v` (spec/10_state.md R32, R35: no bit is forced to zero). -/
def State.setPc (s : State) (v : Word) : State := s.setReg PC v

/-- The condition codes. -/
def State.cc (s : State) : Cc := ccOf s.psw

/-- A write of the condition codes; T and PRI stay. -/
def State.setCc (s : State) (k : Cc) : State := { s with psw := withCc s.psw k }

/-- A write of the PSW's eight bits (spec/10_state.md R40). -/
def State.setPsw (s : State) (p : Byte) : State := { s with psw := p }

/-- An output to the world outside (spec/70_reset_and_hazards.md R404). -/
def State.emit (s : State) (e : BusEvent) : State := { s with events := e :: s.events }

/-! ### The bus -/

/-- What the platform puts at an address in place of the reference bus's memory (log 5). -/
def regionAt (p : Params) (a : Word) : Option RegionKind :=
  (p.platform.find? fun r => r.base ≤ a.toNat && a.toNat < r.base + r.size).map Region.kind

/-- The address at which a word access issued at `a` is performed, or none where it reports a bus error by
ODD_WORD_POLICY (spec/20_memory.md R76, R88). -/
def wordAddr (p : Params) (a : Word) : Option Word :=
  match p.oddWord with
  | .align => some (evenAddr a)
  | .busError => if a.getLsbD 0 then none else some a

/-- One transaction with a device: it joins the history, and the answer is the free value of that history (log 6). -/
def deviceCall (e : BusEvent) (s : State) : Res Word :=
  match Config.deviceReply (s.emit e).events with
  | some v => .ok v (s.emit e)
  | none => .err (s.emit e)

/-- `read_byte` (spec/20_memory.md R70, R88). -/
def readByte (a : Word) (s : State) : Res Byte :=
  match regionAt s.params a with
  | none => .ok (s.mem.read a.toNat) s
  | some .absent => .err s
  | some .device => (deviceCall (.readByte a) s).bind fun v t => .ok (lo8 v) t

/-- `write_byte` (spec/20_memory.md R70, R88). -/
def writeByte (a : Word) (v : Byte) (s : State) : Res Unit :=
  match regionAt s.params a with
  | none => .ok () { s with mem := s.mem.write a.toNat v }
  | some .absent => .err s
  | some .device => (deviceCall (.writeByte a v) s).bind fun _ t => .ok () t

/-- The little-endian word at an even address of the reference bus (spec/20_memory.md R73, R88). -/
def Memory.readWord (m : Memory) (a : Word) : Word := joinBytes (m.read (a.toNat + 1)) (m.read a.toNat)

/-- A little-endian word written at an even address of the reference bus (spec/20_memory.md R73, R88). -/
def Memory.writeWord (m : Memory) (a : Word) (v : Word) : Memory :=
  (m.write a.toNat (lo8 v)).write (a.toNat + 1) (hi8 v)

/-- `read_word` (spec/20_memory.md R70, R76, R88). -/
def readWord (a : Word) (s : State) : Res Word :=
  match wordAddr s.params a with
  | none => .err s
  | some b =>
    match regionAt s.params b with
    | none => .ok (s.mem.readWord b) s
    | some .absent => .err s
    | some .device => deviceCall (.readWord b) s

/-- `write_word` (spec/20_memory.md R70, R76, R88). -/
def writeWord (a : Word) (v : Word) (s : State) : Res Unit :=
  match wordAddr s.params a with
  | none => .err s
  | some b =>
    match regionAt s.params b with
    | none => .ok () { s with mem := s.mem.writeWord b v }
    | some .absent => .err s
    | some .device => (deviceCall (.writeWord b v) s).bind fun _ t => .ok () t

/-- `Fetch()`: the aligned word at pc; pc advances only after the read succeeds (spec/20_memory.md R80;
spec/60_exceptions.md R342). -/
def fetch (s : State) : Res Word :=
  (readWord (evenAddr s.pc) s).bind fun w t => .ok w (t.setPc (t.pc + 2#16))

/-- `Push(v)`: SP steps before the write (spec/00_scope.md R11). -/
def push (v : Word) (s : State) : Res Unit :=
  let t := s.setSp (s.sp - 2#16)
  writeWord t.sp v t

/-- `Pop()`: the read comes before SP steps (spec/00_scope.md R11). -/
def pop (s : State) : Res Word :=
  (readWord s.sp s).bind fun v t => .ok v (t.setSp (t.sp + 2#16))

/-! ### Traps -/

/-- The bus calls and writes of TrapEntry, in order (spec/60_exceptions.md R360). -/
def trapSequence (v : Word) (s : State) : Res Unit :=
  (push (zext16 s.psw) s).bind fun _ s1 =>
  (push s.pc s1).bind fun _ s2 =>
  (readWord v s2).bind fun newpc s3 =>
  (readWord (v + 2#16) s3).bind fun newps s4 =>
  .ok () { (s4.setPc newpc).setPsw (lo8 newps) with waiting := false }

/-- `TrapEntry(v)`: the one sequence of every trap and interrupt (spec/60_exceptions.md R360); a bus error inside it is a
double fault (R364). -/
def trapEntry (v : Word) (s : State) : State :=
  match trapSequence v s with
  | .ok _ t => t
  | .err t => { t with halted := true, doubleFault := true }

/-- BusError (spec/60_exceptions.md R343). -/
def busErrorTrap (s : State) : State := trapEntry 0x0004#16 s

/-- IllegalInstruction (spec/60_exceptions.md R344). -/
def illegalTrap (s : State) : State := trapEntry 0x0008#16 s

/-- Breakpoint (spec/44_system.md R305). -/
def breakpointTrap (s : State) : State := trapEntry 0x000C#16 s

/-- TraceTrap, which shares Breakpoint's vector (spec/60_exceptions.md R372). -/
def traceTrap (s : State) : State := trapEntry 0x000C#16 s

/-- IOTrap (spec/44_system.md R306). -/
def ioTrap (s : State) : State := trapEntry 0x0010#16 s

/-- PowerFail (spec/60_exceptions.md R347). -/
def powerFailTrap (s : State) : State := trapEntry 0x0014#16 s

/-- EmulatorTrap (spec/44_system.md R307). -/
def emulatorTrap (s : State) : State := trapEntry 0x0018#16 s

/-- GenericTrap (spec/44_system.md R308). -/
def genericTrap (s : State) : State := trapEntry 0x001C#16 s

/-- The pops of RTI and RTT: PC, then PSW (spec/44_system.md R303; spec/60_exceptions.md R365). -/
def returnFromTrap (s : State) : Res Unit :=
  (pop s).bind fun newpc s1 =>
  (pop (s1.setPc newpc)).bind fun p s2 =>
  .ok () (s2.setPsw (lo8 p))

/-- The trace rule at the end of an instruction that raised no synchronous trap and did not halt
(spec/60_exceptions.md R372). -/
def traceEnd (s : State) : State := if s.tstart then traceTrap s else s

/-- The end of an instruction: the trace rule, or BusError where a bus call failed (spec/40_addressing.md R140, R147;
spec/60_exceptions.md R343, R370; log 13). -/
def retire (r : Res Unit) : Host.Outcome State Fault Refusal :=
  match r with
  | .ok _ s => .next (traceEnd s)
  | .err s => .next (busErrorTrap s)

end Sys2Proof.Machine
end

