-- ==== Sys2Proof/Machine/Operands.lean ====
section
/-! DEFINITION. The resolver of spec/40_addressing.md (R141 to R145), operand reads and writes (R146), and the four shapes
an operand instruction has (R140): load, store, read-modify-write, and probe. -/

namespace Sys2Proof.Machine

/-- A resolved operand (spec/40_addressing.md R141, R144). -/
inductive Operand where
  /-- `Reg(r)`. -/
  | reg (r : Reg)
  /-- `Mem(a)`. -/
  | mem (a : Word)
  /-- `Mem(a)` with `a` taken from pc by mode 2 with R7: its read is an instruction-stream fetch. -/
  | stream (a : Word)
  deriving DecidableEq, Repr

/-- The address of an operand in memory; a register has none (spec/40_addressing.md R149). -/
def Operand.address? : Operand → Option Word
  | .reg _ => none
  | .mem a => some a
  | .stream a => some a

/-- `step(r, s)` (spec/40_addressing.md R142). -/
def stepOf (r : Reg) (sz : Size) : Word := if sz = .word ∨ r = SP ∨ r = PC then 2#16 else 1#16

/-- `Resolve(mode, r, s)` (spec/40_addressing.md R141, R142, R144, R145), with the marks its register reads leave
(spec/10_state.md R51). -/
def resolve (sz : Size) (o : Opnd) (s : State) : Res Operand :=
  let r := o.reg
  let x := s.reg r
  match o.mode with
  | .register => .ok (.reg r) s
  | .deferred => .ok (.mem x) (s.noteRead r)
  | .autoInc => .ok (if r = PC then .stream x else .mem x) ((s.noteRead r).setReg r (x + stepOf r sz))
  | .autoIncDeferred =>
    if r = PC then (fetch s).bind fun p t => .ok (.mem p) t
    else (readWord x ((s.noteRead r).setReg r (x + 2#16))).bind fun p t => .ok (.mem p) t
  | .autoDec => .ok (.mem (x - stepOf r sz)) ((s.noteRead r).setReg r (x - stepOf r sz))
  | .autoDecDeferred => (readWord (x - 2#16) ((s.noteRead r).setReg r (x - 2#16))).bind fun p t => .ok (.mem p) t
  | .indexed => (fetch s).bind fun d t => .ok (.mem (t.reg r + d)) (t.noteRead r)
  | .indexedDeferred =>
    (fetch s).bind fun d t => (readWord (t.reg r + d) (t.noteRead r)).bind fun p u => .ok (.mem p) u

/-- The immediate word at `a`. Where its read fails, pc is the word's own address, as after any failed stream fetch
(spec/40_addressing.md R144; spec/60_exceptions.md R342; spec/90_conflicts.md C11, C12; DEDUCED, log 7). -/
def readStream (a : Word) (s : State) : Res Word :=
  match readWord (evenAddr a) s with
  | .ok v t => .ok v t
  | .err t => .err (t.setPc a)

/-- `ReadOp(op, 2)` (spec/40_addressing.md R144, R146). -/
def readOpWord (op : Operand) (s : State) : Res Word :=
  match op with
  | .reg r => .ok (s.reg r) (s.noteRead r)
  | .mem a => readWord a s
  | .stream a => readStream a s

/-- `ReadOp(op, 1)` (spec/40_addressing.md R144, R146). -/
def readOpByte (op : Operand) (s : State) : Res Byte :=
  match op with
  | .reg r => .ok (lo8 (s.reg r)) (s.noteRead r)
  | .mem a => readByte a s
  | .stream a => (readStream a s).bind fun v t => .ok (lo8 v) t

/-- `WriteOp(op, 2, v)` (spec/40_addressing.md R144, R146). -/
def writeOpWord (op : Operand) (v : Word) (s : State) : Res Unit :=
  match op with
  | .reg r => .ok () (s.setReg r v)
  | .mem a => writeWord a v s
  | .stream a => writeWord a v s

/-- `WriteOp(op, 1, v)`: a register keeps its high byte (spec/40_addressing.md R144, R146). -/
def writeOpByte (op : Operand) (v : Byte) (s : State) : Res Unit :=
  match op with
  | .reg r => .ok () (s.setRegLow r v)
  | .mem a => writeByte a v s
  | .stream a => writeByte a v s

/-- The byte write of MOVB and MFPS: a register takes `sext_16` of the byte (spec/10_state.md R33;
spec/41_double_operand.md R181; spec/42_single_operand.md R261). -/
def writeOpSigned (op : Operand) (v : Byte) (s : State) : Res Unit :=
  match op with
  | .reg r => .ok () (s.setReg r (sext16 v))
  | .mem a => writeByte a v s
  | .stream a => writeByte a v s

/-- How an instruction reaches its operands: size, read, write. -/
structure Access (w : Nat) where
  size : Size
  read : Operand → State → Res (BitVec w)
  write : Operand → BitVec w → State → Res Unit

/-- Word instructions (spec/00_scope.md R14). -/
def wordAccess : Access 16 := { size := .word, read := readOpWord, write := writeOpWord }

/-- Byte instructions (spec/00_scope.md R14). -/
def byteAccess : Access 8 := { size := .byte, read := readOpByte, write := writeOpByte }

/-- MOVB and MFPS (spec/10_state.md R33). -/
def signedByteAccess : Access 8 := { size := .byte, read := readOpByte, write := writeOpSigned }

/-- An operand resolved and read (spec/40_addressing.md R140). -/
def loadOp {w : Nat} (acc : Access w) (o : Opnd) (s : State) : Res (BitVec w) :=
  (resolve acc.size o s).bind fun op t => acc.read op t

/-- A destination resolved and written without a read, then the flags (spec/40_addressing.md R140; spec/20_memory.md R78). -/
def storeOp {w : Nat} (acc : Access w) (v : BitVec w) (k : Cc) (o : Opnd) (s : State) : Res Unit :=
  (resolve acc.size o s).bind fun op t =>
  (acc.write op v t).bind fun _ u =>
  .ok () (u.setCc k)

/-- A destination resolved, read, computed on and written, then the flags (spec/40_addressing.md R140). -/
def modifyOp {w : Nat} (acc : Access w) (f : Cc → BitVec w → BitVec w × Cc) (o : Opnd) (s : State) : Res Unit :=
  (resolve acc.size o s).bind fun op t =>
  (acc.read op t).bind fun dv u =>
  let r := f u.cc dv
  (acc.write op r.1 u).bind fun _ x =>
  .ok () (x.setCc r.2)

/-- A destination resolved and read, then only the flags (spec/40_addressing.md R140). -/
def probeOp {w : Nat} (acc : Access w) (f : Cc → BitVec w → Cc) (o : Opnd) (s : State) : Res Unit :=
  (resolve acc.size o s).bind fun op t =>
  (acc.read op t).bind fun dv u =>
  .ok () (u.setCc (f u.cc dv))

end Sys2Proof.Machine
end

