-- ==== Sys2Proof/Machine/Control.lean ====
section
/-! DEFINITION. Branches, jumps and subroutine linkage (spec/43_control.md). -/

namespace Sys2Proof.Machine

/-- A branch: the target is pc + 2 × sext_16(offset) when the condition holds (spec/43_control.md R271). -/
def branchIf (cond : Bool) (off : BitVec 8) (s : State) : Res Unit :=
  .ok () (if cond then s.setPc (s.pc + 2#16 * sext16 off) else s)

/-- BR: always taken (spec/43_control.md R272). -/
def execBr (off : BitVec 8) (s : State) : Host.Outcome State Fault Refusal :=
  retire (branchIf true off s)

/-- BNE: taken when Z = 0 (spec/43_control.md R273). -/
def execBne (off : BitVec 8) (s : State) : Host.Outcome State Fault Refusal :=
  retire (branchIf (!s.cc.z) off s)

/-- BEQ: taken when Z = 1 (spec/43_control.md R274). -/
def execBeq (off : BitVec 8) (s : State) : Host.Outcome State Fault Refusal :=
  retire (branchIf s.cc.z off s)

/-- BGE: taken when N ^ V = 0 (spec/43_control.md R275). -/
def execBge (off : BitVec 8) (s : State) : Host.Outcome State Fault Refusal :=
  retire (branchIf (!(s.cc.n ^^ s.cc.v)) off s)

/-- BLT: taken when N ^ V = 1 (spec/43_control.md R276). -/
def execBlt (off : BitVec 8) (s : State) : Host.Outcome State Fault Refusal :=
  retire (branchIf (s.cc.n ^^ s.cc.v) off s)

/-- BGT: taken when Z | (N ^ V) = 0 (spec/43_control.md R277). -/
def execBgt (off : BitVec 8) (s : State) : Host.Outcome State Fault Refusal :=
  retire (branchIf (!(s.cc.z || (s.cc.n ^^ s.cc.v))) off s)

/-- BLE: taken when Z | (N ^ V) = 1 (spec/43_control.md R278). -/
def execBle (off : BitVec 8) (s : State) : Host.Outcome State Fault Refusal :=
  retire (branchIf (s.cc.z || (s.cc.n ^^ s.cc.v)) off s)

/-- BPL: taken when N = 0 (spec/43_control.md R279). -/
def execBpl (off : BitVec 8) (s : State) : Host.Outcome State Fault Refusal :=
  retire (branchIf (!s.cc.n) off s)

/-- BMI: taken when N = 1 (spec/43_control.md R280). -/
def execBmi (off : BitVec 8) (s : State) : Host.Outcome State Fault Refusal :=
  retire (branchIf s.cc.n off s)

/-- BHI: taken when C = 0 and Z = 0 (spec/43_control.md R281). -/
def execBhi (off : BitVec 8) (s : State) : Host.Outcome State Fault Refusal :=
  retire (branchIf (!s.cc.c && !s.cc.z) off s)

/-- BLOS: taken when C | Z = 1 (spec/43_control.md R282). -/
def execBlos (off : BitVec 8) (s : State) : Host.Outcome State Fault Refusal :=
  retire (branchIf (s.cc.c || s.cc.z) off s)

/-- BVC: taken when V = 0 (spec/43_control.md R283). -/
def execBvc (off : BitVec 8) (s : State) : Host.Outcome State Fault Refusal :=
  retire (branchIf (!s.cc.v) off s)

/-- BVS: taken when V = 1 (spec/43_control.md R284). -/
def execBvs (off : BitVec 8) (s : State) : Host.Outcome State Fault Refusal :=
  retire (branchIf s.cc.v off s)

/-- BCC: taken when C = 0 (spec/43_control.md R285). -/
def execBcc (off : BitVec 8) (s : State) : Host.Outcome State Fault Refusal :=
  retire (branchIf (!s.cc.c) off s)

/-- BCS: taken when C = 1 (spec/43_control.md R286). -/
def execBcs (off : BitVec 8) (s : State) : Host.Outcome State Fault Refusal :=
  retire (branchIf s.cc.c off s)

/-- JMP: register mode is illegal, and nothing else has happened then; otherwise pc takes the address
(spec/43_control.md R287; spec/30_encoding.md R117; spec/40_addressing.md R149). -/
def execJmp (dst : Opnd) (s : State) : Host.Outcome State Fault Refusal :=
  match resolve .word dst s with
  | .err t => .next (busErrorTrap t)
  | .ok op t =>
    match op.address? with
    | none => .next (illegalTrap s)
    | some a => retire (.ok () (t.setPc a))

/-- JSR: register mode is illegal; otherwise the linkage register, read after resolution, is pushed, takes pc, and pc takes
the address (spec/43_control.md R288; spec/30_encoding.md R117; spec/40_addressing.md R149). -/
def execJsr (r : Reg) (dst : Opnd) (s : State) : Host.Outcome State Fault Refusal :=
  match resolve .word dst s with
  | .err t => .next (busErrorTrap t)
  | .ok op t =>
    match op.address? with
    | none => .next (illegalTrap s)
    | some a => retire ((push (t.reg r) (t.noteRead r)).bind fun _ u => .ok () ((u.setReg r u.pc).setPc a))

/-- RTS: pc takes the linkage register, which takes the popped word (spec/43_control.md R289). -/
def execRts (r : Reg) (s : State) : Host.Outcome State Fault Refusal :=
  retire ((pop ((s.noteRead r).setPc (s.reg r))).bind fun v t => .ok () (t.setReg r v))

/-- SOB: subtract one, and branch backwards unless the result is 0 (spec/43_control.md R290). -/
def execSob (r : Reg) (off : BitVec 6) (s : State) : Host.Outcome State Fault Refusal :=
  let t := (s.noteRead r).setReg r (s.reg r - 1#16)
  retire (.ok () (if t.reg r = 0#16 then t else t.setPc (t.pc - 2#16 * off.setWidth 16)))

end Sys2Proof.Machine
end

