-- ==== Sys2Proof/Machine/DoubleOperand.lean ====
section
/-! DEFINITION. The double-operand instructions (spec/41_double_operand.md). -/

namespace Sys2Proof.Machine

/-- A source loaded, then the destination stored to without a read: the shape of MOV (spec/41_double_operand.md R180, R181). -/
def moveOp {w : Nat} (acc : Access w) (src dst : Opnd) (s : State) : Res Unit :=
  (loadOp acc src s).bind fun sv t => storeOp acc sv (moveFlags t.cc sv) dst t

/-- A source loaded, then the destination modified (spec/41_double_operand.md R180). -/
def combineOp {w : Nat} (acc : Access w) (f : BitVec w → Cc → BitVec w → BitVec w × Cc) (src dst : Opnd) (s : State) :
    Res Unit :=
  (loadOp acc src s).bind fun sv t => modifyOp acc (f sv) dst t

/-- A source loaded, then the destination probed (spec/41_double_operand.md R180). -/
def compareOp {w : Nat} (acc : Access w) (f : BitVec w → Cc → BitVec w → Cc) (src dst : Opnd) (s : State) : Res Unit :=
  (loadOp acc src s).bind fun sv t => probeOp acc (f sv) dst t

/-- MOV: move a word (spec/41_double_operand.md R181). -/
def execMov (src dst : Opnd) (s : State) : Host.Outcome State Fault Refusal :=
  retire (moveOp wordAccess src dst s)

/-- MOVB: move a byte; a register destination is sign-extended (spec/41_double_operand.md R181). -/
def execMovb (src dst : Opnd) (s : State) : Host.Outcome State Fault Refusal :=
  retire (moveOp signedByteAccess src dst s)

/-- CMP: compare, src − dst (spec/41_double_operand.md R182). -/
def execCmp (src dst : Opnd) (s : State) : Host.Outcome State Fault Refusal :=
  retire (compareOp wordAccess (fun sv _ dv => cmpFlags sv dv) src dst s)

/-- CMPB: compare, src − dst, bytes (spec/41_double_operand.md R182). -/
def execCmpb (src dst : Opnd) (s : State) : Host.Outcome State Fault Refusal :=
  retire (compareOp byteAccess (fun sv _ dv => cmpFlags sv dv) src dst s)

/-- BIT: bit test (spec/41_double_operand.md R183). -/
def execBit (src dst : Opnd) (s : State) : Host.Outcome State Fault Refusal :=
  retire (compareOp wordAccess bitFlags src dst s)

/-- BITB: bit test, bytes (spec/41_double_operand.md R183). -/
def execBitb (src dst : Opnd) (s : State) : Host.Outcome State Fault Refusal :=
  retire (compareOp byteAccess bitFlags src dst s)

/-- BIC: bit clear (spec/41_double_operand.md R184). -/
def execBic (src dst : Opnd) (s : State) : Host.Outcome State Fault Refusal :=
  retire (combineOp wordAccess bicOp src dst s)

/-- BICB: bit clear, bytes (spec/41_double_operand.md R184). -/
def execBicb (src dst : Opnd) (s : State) : Host.Outcome State Fault Refusal :=
  retire (combineOp byteAccess bicOp src dst s)

/-- BIS: bit set (spec/41_double_operand.md R185). -/
def execBis (src dst : Opnd) (s : State) : Host.Outcome State Fault Refusal :=
  retire (combineOp wordAccess bisOp src dst s)

/-- BISB: bit set, bytes (spec/41_double_operand.md R185). -/
def execBisb (src dst : Opnd) (s : State) : Host.Outcome State Fault Refusal :=
  retire (combineOp byteAccess bisOp src dst s)

/-- ADD: word add (spec/41_double_operand.md R186). -/
def execAdd (src dst : Opnd) (s : State) : Host.Outcome State Fault Refusal :=
  retire (combineOp wordAccess addOp src dst s)

/-- SUB: word subtract, dst − src (spec/41_double_operand.md R187). -/
def execSub (src dst : Opnd) (s : State) : Host.Outcome State Fault Refusal :=
  retire (combineOp wordAccess subOp src dst s)

/-- XOR: the register is read before the destination is resolved (spec/41_double_operand.md R188). -/
def execXor (r : Reg) (dst : Opnd) (s : State) : Host.Outcome State Fault Refusal :=
  retire (modifyOp wordAccess (xorOp (s.reg r)) dst (s.noteRead r))

end Sys2Proof.Machine
end

