-- ==== Sys2Proof/Machine/SingleOperand.lean ====
section
/-! DEFINITION. The single-operand instructions (spec/42_single_operand.md). -/

namespace Sys2Proof.Machine

/-- CLR: clear (spec/42_single_operand.md R221). -/
def execClr (dst : Opnd) (s : State) : Host.Outcome State Fault Refusal :=
  retire (storeOp wordAccess 0#16 clearFlags dst s)

/-- CLRB: clear a byte (spec/42_single_operand.md R221). -/
def execClrb (dst : Opnd) (s : State) : Host.Outcome State Fault Refusal :=
  retire (storeOp byteAccess 0#8 clearFlags dst s)

/-- COM: one's complement (spec/42_single_operand.md R222). -/
def execCom (dst : Opnd) (s : State) : Host.Outcome State Fault Refusal :=
  retire (modifyOp wordAccess comOp dst s)

/-- COMB: one's complement, byte (spec/42_single_operand.md R222). -/
def execComb (dst : Opnd) (s : State) : Host.Outcome State Fault Refusal :=
  retire (modifyOp byteAccess comOp dst s)

/-- INC: increment (spec/42_single_operand.md R223). -/
def execInc (dst : Opnd) (s : State) : Host.Outcome State Fault Refusal :=
  retire (modifyOp wordAccess incOp dst s)

/-- INCB: increment, byte (spec/42_single_operand.md R223). -/
def execIncb (dst : Opnd) (s : State) : Host.Outcome State Fault Refusal :=
  retire (modifyOp byteAccess incOp dst s)

/-- DEC: decrement (spec/42_single_operand.md R224). -/
def execDec (dst : Opnd) (s : State) : Host.Outcome State Fault Refusal :=
  retire (modifyOp wordAccess decOp dst s)

/-- DECB: decrement, byte (spec/42_single_operand.md R224). -/
def execDecb (dst : Opnd) (s : State) : Host.Outcome State Fault Refusal :=
  retire (modifyOp byteAccess decOp dst s)

/-- NEG: negate (spec/42_single_operand.md R225). -/
def execNeg (dst : Opnd) (s : State) : Host.Outcome State Fault Refusal :=
  retire (modifyOp wordAccess negOp dst s)

/-- NEGB: negate, byte (spec/42_single_operand.md R225). -/
def execNegb (dst : Opnd) (s : State) : Host.Outcome State Fault Refusal :=
  retire (modifyOp byteAccess negOp dst s)

/-- ADC: add carry (spec/42_single_operand.md R226). -/
def execAdc (dst : Opnd) (s : State) : Host.Outcome State Fault Refusal :=
  retire (modifyOp wordAccess adcOp dst s)

/-- ADCB: add carry, byte (spec/42_single_operand.md R226). -/
def execAdcb (dst : Opnd) (s : State) : Host.Outcome State Fault Refusal :=
  retire (modifyOp byteAccess adcOp dst s)

/-- SBC: subtract carry (spec/42_single_operand.md R227). -/
def execSbc (dst : Opnd) (s : State) : Host.Outcome State Fault Refusal :=
  retire (modifyOp wordAccess (sbcOp s.params.sbcVQuirk) dst s)

/-- SBCB: subtract carry, byte (spec/42_single_operand.md R227). -/
def execSbcb (dst : Opnd) (s : State) : Host.Outcome State Fault Refusal :=
  retire (modifyOp byteAccess (sbcOp s.params.sbcVQuirk) dst s)

/-- TST: test (spec/42_single_operand.md R228). -/
def execTst (dst : Opnd) (s : State) : Host.Outcome State Fault Refusal :=
  retire (probeOp wordAccess testFlags dst s)

/-- TSTB: test, byte (spec/42_single_operand.md R228). -/
def execTstb (dst : Opnd) (s : State) : Host.Outcome State Fault Refusal :=
  retire (probeOp byteAccess testFlags dst s)

/-- ROR: rotate right (spec/42_single_operand.md R240). -/
def execRor (dst : Opnd) (s : State) : Host.Outcome State Fault Refusal :=
  retire (modifyOp wordAccess rorOp dst s)

/-- RORB: rotate right, byte (spec/42_single_operand.md R240). -/
def execRorb (dst : Opnd) (s : State) : Host.Outcome State Fault Refusal :=
  retire (modifyOp byteAccess rorOp dst s)

/-- ROL: rotate left (spec/42_single_operand.md R241). -/
def execRol (dst : Opnd) (s : State) : Host.Outcome State Fault Refusal :=
  retire (modifyOp wordAccess rolOp dst s)

/-- ROLB: rotate left, byte (spec/42_single_operand.md R241). -/
def execRolb (dst : Opnd) (s : State) : Host.Outcome State Fault Refusal :=
  retire (modifyOp byteAccess rolOp dst s)

/-- ASR: arithmetic shift right (spec/42_single_operand.md R242). -/
def execAsr (dst : Opnd) (s : State) : Host.Outcome State Fault Refusal :=
  retire (modifyOp wordAccess asrOp dst s)

/-- ASRB: arithmetic shift right, byte (spec/42_single_operand.md R242). -/
def execAsrb (dst : Opnd) (s : State) : Host.Outcome State Fault Refusal :=
  retire (modifyOp byteAccess asrOp dst s)

/-- ASL: arithmetic shift left (spec/42_single_operand.md R243). -/
def execAsl (dst : Opnd) (s : State) : Host.Outcome State Fault Refusal :=
  retire (modifyOp wordAccess aslOp dst s)

/-- ASLB: arithmetic shift left, byte (spec/42_single_operand.md R243). -/
def execAslb (dst : Opnd) (s : State) : Host.Outcome State Fault Refusal :=
  retire (modifyOp byteAccess aslOp dst s)

/-- SWAB: swap bytes (spec/42_single_operand.md R250). -/
def execSwab (dst : Opnd) (s : State) : Host.Outcome State Fault Refusal :=
  retire (modifyOp wordAccess swabOp dst s)

/-- SXT: sign extend, from N (spec/42_single_operand.md R251). -/
def execSxt (dst : Opnd) (s : State) : Host.Outcome State Fault Refusal :=
  retire (storeOp wordAccess (sxtValue s.cc) (sxtFlags s.cc) dst s)

/-- MTPS: move a byte to the processor status (spec/42_single_operand.md R260). -/
def execMtps (src : Opnd) (s : State) : Host.Outcome State Fault Refusal :=
  retire ((loadOp byteAccess src s).bind fun sv t =>
    .ok () (t.setPsw (mtpsPsw t.params.mtpsWritesPriority t.psw sv)))

/-- MFPS: the PSW before this instruction, moved to a byte; a register destination is sign-extended
(spec/42_single_operand.md R261). -/
def execMfps (dst : Opnd) (s : State) : Host.Outcome State Fault Refusal :=
  retire (storeOp signedByteAccess s.psw (moveFlags s.cc s.psw) dst s)

end Sys2Proof.Machine
end

