-- ==== Sys2Proof/Machine/System.lean ====
section
/-! DEFINITION. System, trap and condition-code instructions, and the illegal words (spec/44_system.md;
spec/60_exceptions.md R344). -/

namespace Sys2Proof.Machine

/-- HALT, by HALT_ACTION: the halted state, without a trace trap, or a trap as if a bus error (spec/44_system.md R300). -/
def execHalt (s : State) : Host.Outcome State Fault Refusal :=
  match s.params.haltAction with
  | .stop => .next { s with halted := true }
  | .trap4 => .next (busErrorTrap s)

/-- WAIT: enter the wait state (spec/44_system.md R301). -/
def execWait (s : State) : Host.Outcome State Fault Refusal :=
  retire (.ok () { s with waiting := true })

/-- RESET: one ResetOut event; no core register changes (spec/44_system.md R302; log 8). -/
def execReset (s : State) : Host.Outcome State Fault Refusal :=
  retire (.ok () (s.emit .resetOut))

/-- RTI: the return, then a trace trap when the instruction began with T = 1 or restored T = 1
(spec/44_system.md R303; spec/60_exceptions.md R372). -/
def execRti (s : State) : Host.Outcome State Fault Refusal :=
  match returnFromTrap s with
  | .err t => .next (busErrorTrap t)
  | .ok _ t => .next (if t.tstart || traceBit t.psw then traceTrap t else t)

/-- RTT: the return, and no trace trap at its end (spec/44_system.md R304; spec/60_exceptions.md R372). -/
def execRtt (s : State) : Host.Outcome State Fault Refusal :=
  match returnFromTrap s with
  | .err t => .next (busErrorTrap t)
  | .ok _ t => .next t

/-- BPT (spec/44_system.md R305). -/
def execBpt (s : State) : Host.Outcome State Fault Refusal := .next (breakpointTrap s)

/-- IOT (spec/44_system.md R306). -/
def execIot (s : State) : Host.Outcome State Fault Refusal := .next (ioTrap s)

/-- EMT: the core ignores the code (spec/44_system.md R307). -/
def execEmt (_code : BitVec 8) (s : State) : Host.Outcome State Fault Refusal := .next (emulatorTrap s)

/-- TRAP: the core ignores the code (spec/44_system.md R308). -/
def execTrap (_code : BitVec 8) (s : State) : Host.Outcome State Fault Refusal := .next (genericTrap s)

/-- The clear group; mask 0 is NOP (spec/44_system.md R310; spec/30_encoding.md R119). -/
def execClcc (m : BitVec 4) (s : State) : Host.Outcome State Fault Refusal :=
  retire (.ok () (s.setPsw (clearCcBits s.psw m)))

/-- The set group; mask 0 changes nothing (spec/44_system.md R311; spec/30_encoding.md R119). -/
def execSecc (m : BitVec 4) (s : State) : Host.Outcome State Fault Refusal :=
  retire (.ok () (s.setPsw (setCcBits s.psw m)))

/-- A word of an illegal range: IllegalInstruction, right after the opcode fetch (spec/30_encoding.md R116, R118;
spec/60_exceptions.md R344). -/
def execIllegal (_w : Word) (s : State) : Host.Outcome State Fault Refusal := .next (illegalTrap s)

end Sys2Proof.Machine
end

