-- ==== Sys2Proof/WellFormed.lean ====
section
/-! DEFINITION. Which terms of `Instr` are instructions of the hardware. Every field of a constructor but `illegal`'s word
admits every value of its type (spec/30_encoding.md R117: JMP and JSR with mode 0 decode as JMP and JSR); an `illegal` term
must hold a word of an illegal range (R118). -/

namespace Sys2Proof

/-- The ten illegal ranges, first and last word (spec/30_encoding.md R118). -/
def illegalRanges : List (Nat × Nat) :=
  [(0x0007, 0x003F), (0x0088, 0x0097), (0x0098, 0x009F), (0x0D00, 0x0DBF), (0x0E00, 0x0FFF),
   (0x7000, 0x77FF), (0x7A00, 0x7DFF), (0x8D40, 0x8DBF), (0x8E00, 0x8FFF), (0xF000, 0xFFFF)]

/-- Whether a word lies in an illegal range (spec/30_encoding.md R118). -/
def isIllegalWord (w : Word) : Bool :=
  illegalRanges.any fun r => r.1 ≤ w.toNat && w.toNat ≤ r.2

/-- Whether a term of `Instr` stands for words of the hardware. -/
def Instr.wellFormed : Instr → Bool
  | .illegal w => isIllegalWord w
  | _ => true

end Sys2Proof
end

