-- ==== Sys2Proof/Decode.lean ====
section
/-! DEFINITION. From words and bytes to instructions and back (spec/30_encoding.md). `decode` is total on words (R116);
`decodeBytes` is total on bytes and rejects a stream that is too short by name; `encode` is written from the same formats
(R101 to R109) and opcode map (R114). -/

namespace Sys2Proof

/-- The bit field of a word that starts at bit `lo` and is `n` bits wide (spec/00_scope.md R9). -/
def bits (w : Word) (lo n : Nat) : Nat := w.toNat / 2 ^ lo % 2 ^ n

/-- Mode 0 to 7 (spec/40_addressing.md R141). -/
def modeOf : Nat → Mode
  | 0 => .register
  | 1 => .deferred
  | 2 => .autoInc
  | 3 => .autoIncDeferred
  | 4 => .autoDec
  | 5 => .autoDecDeferred
  | 6 => .indexed
  | _ => .indexedDeferred

/-- The number of a mode. -/
def Mode.number : Mode → Nat
  | .register => 0
  | .deferred => 1
  | .autoInc => 2
  | .autoIncDeferred => 3
  | .autoDec => 4
  | .autoDecDeferred => 5
  | .indexed => 6
  | .indexedDeferred => 7

/-- The register a 3-bit field names. -/
def regOf (n : Nat) : Reg := ⟨n % 8, by omega⟩

/-- A 6-bit operand field: mode in bits 5:3, register in bits 2:0 (spec/30_encoding.md R110). -/
def opndOf (n : Nat) : Opnd := { mode := modeOf (n / 8 % 8), reg := regOf n }

/-- The 6-bit field of an operand (spec/30_encoding.md R110). -/
def Opnd.field (o : Opnd) : Nat := o.mode.number * 8 + o.reg.val

/-- The destination field, bits 5:0 (spec/30_encoding.md R101, R102, R103). -/
def dstOf (w : Word) : Opnd := opndOf (bits w 0 6)

/-- The source field of format DOP, bits 11:6 (spec/30_encoding.md R101). -/
def srcOf (w : Word) : Opnd := opndOf (bits w 6 6)

/-- The register field of formats RDD and SOB, bits 8:6 (spec/30_encoding.md R102, R105). -/
def regField (w : Word) : Reg := regOf (bits w 6 3)

/-- The low byte: a branch offset or a trap code (spec/30_encoding.md R104, R108). -/
def lowByte (w : Word) : BitVec 8 := BitVec.ofNat 8 (bits w 0 8)

/-- The words 0x0000 to 0x003F: format Z, and the first illegal range (spec/30_encoding.md R109, R114, R118). -/
def decodeZ (w : Word) : Instr :=
  match bits w 0 6 with
  | 0 => .halt
  | 1 => .wait
  | 2 => .rti
  | 3 => .bpt
  | 4 => .iot
  | 5 => .reset
  | 6 => .rtt
  | _ => .illegal w

/-- The words 0x0080 to 0x00BF: RTS, three illegal blocks, and the condition-code operators
(spec/30_encoding.md R106, R107, R114, R118). -/
def decodeRtsCc (w : Word) : Instr :=
  match bits w 3 3 with
  | 0 => .rts (regOf (bits w 0 3))
  | 1 => .illegal w
  | 2 => .illegal w
  | 3 => .illegal w
  | 4 => .clcc (BitVec.ofNat 4 (bits w 0 4))
  | 5 => .clcc (BitVec.ofNat 4 (bits w 0 4))
  | _ => .secc (BitVec.ofNat 4 (bits w 0 4))

/-- The words whose bits 15:12 are 0 (spec/30_encoding.md R114, R118), by bits 11:6. -/
def decodeLow (w : Word) : Instr :=
  match bits w 6 6 with
  | 0 => decodeZ w
  | 1 => .jmp (dstOf w)
  | 2 => decodeRtsCc w
  | 3 => .swab (dstOf w)
  | 4 | 5 | 6 | 7 => .br (lowByte w)
  | 8 | 9 | 10 | 11 => .bne (lowByte w)
  | 12 | 13 | 14 | 15 => .beq (lowByte w)
  | 16 | 17 | 18 | 19 => .bge (lowByte w)
  | 20 | 21 | 22 | 23 => .blt (lowByte w)
  | 24 | 25 | 26 | 27 => .bgt (lowByte w)
  | 28 | 29 | 30 | 31 => .ble (lowByte w)
  | 32 | 33 | 34 | 35 | 36 | 37 | 38 | 39 => .jsr (regField w) (dstOf w)
  | 40 => .clr (dstOf w)
  | 41 => .com (dstOf w)
  | 42 => .inc (dstOf w)
  | 43 => .dec (dstOf w)
  | 44 => .neg (dstOf w)
  | 45 => .adc (dstOf w)
  | 46 => .sbc (dstOf w)
  | 47 => .tst (dstOf w)
  | 48 => .ror (dstOf w)
  | 49 => .rol (dstOf w)
  | 50 => .asr (dstOf w)
  | 51 => .asl (dstOf w)
  | 55 => .sxt (dstOf w)
  | _ => .illegal w

/-- The words whose bits 15:12 are 8 (spec/30_encoding.md R114, R118), by bits 11:6. -/
def decodeHigh (w : Word) : Instr :=
  match bits w 6 6 with
  | 0 | 1 | 2 | 3 => .bpl (lowByte w)
  | 4 | 5 | 6 | 7 => .bmi (lowByte w)
  | 8 | 9 | 10 | 11 => .bhi (lowByte w)
  | 12 | 13 | 14 | 15 => .blos (lowByte w)
  | 16 | 17 | 18 | 19 => .bvc (lowByte w)
  | 20 | 21 | 22 | 23 => .bvs (lowByte w)
  | 24 | 25 | 26 | 27 => .bcc (lowByte w)
  | 28 | 29 | 30 | 31 => .bcs (lowByte w)
  | 32 | 33 | 34 | 35 => .emt (lowByte w)
  | 36 | 37 | 38 | 39 => .trap (lowByte w)
  | 40 => .clrb (dstOf w)
  | 41 => .comb (dstOf w)
  | 42 => .incb (dstOf w)
  | 43 => .decb (dstOf w)
  | 44 => .negb (dstOf w)
  | 45 => .adcb (dstOf w)
  | 46 => .sbcb (dstOf w)
  | 47 => .tstb (dstOf w)
  | 48 => .rorb (dstOf w)
  | 49 => .rolb (dstOf w)
  | 50 => .asrb (dstOf w)
  | 51 => .aslb (dstOf w)
  | 52 => .mtps (dstOf w)
  | 55 => .mfps (dstOf w)
  | _ => .illegal w

/-- The words whose bits 15:12 are 7 (spec/30_encoding.md R114, R118), by bits 11:9. -/
def decodeSeven (w : Word) : Instr :=
  match bits w 9 3 with
  | 4 => .xor (regField w) (dstOf w)
  | 7 => .sob (regField w) (BitVec.ofNat 6 (bits w 0 6))
  | _ => .illegal w

/-- The instruction of an opcode word; total (spec/30_encoding.md R114, R116). -/
def decode (w : Word) : Instr :=
  match bits w 12 4 with
  | 0 => decodeLow w
  | 1 => .mov (srcOf w) (dstOf w)
  | 2 => .cmp (srcOf w) (dstOf w)
  | 3 => .bit (srcOf w) (dstOf w)
  | 4 => .bic (srcOf w) (dstOf w)
  | 5 => .bis (srcOf w) (dstOf w)
  | 6 => .add (srcOf w) (dstOf w)
  | 7 => decodeSeven w
  | 8 => decodeHigh w
  | 9 => .movb (srcOf w) (dstOf w)
  | 10 => .cmpb (srcOf w) (dstOf w)
  | 11 => .bitb (srcOf w) (dstOf w)
  | 12 => .bicb (srcOf w) (dstOf w)
  | 13 => .bisb (srcOf w) (dstOf w)
  | 14 => .sub (srcOf w) (dstOf w)
  | _ => .illegal w

/-- Extension words of one operand field: one for modes 6 and 7, and for R7 in modes 2 and 3
(spec/30_encoding.md R100, R115). -/
def Opnd.extWords (o : Opnd) : Nat :=
  match o.mode with
  | .indexed | .indexedDeferred => 1
  | .autoInc | .autoIncDeferred => if o.reg = 7 then 1 else 0
  | _ => 0

/-- The operand fields of an instruction, source first (spec/30_encoding.md R101, R102, R103, R112). -/
def Instr.operands : Instr → List Opnd
  | .mov src dst | .cmp src dst | .bit src dst | .bic src dst | .bis src dst | .add src dst
  | .movb src dst | .cmpb src dst | .bitb src dst | .bicb src dst | .bisb src dst | .sub src dst => [src, dst]
  | .jmp dst | .swab dst | .jsr _ dst | .xor _ dst
  | .clr dst | .com dst | .inc dst | .dec dst | .neg dst | .adc dst | .sbc dst | .tst dst
  | .ror dst | .rol dst | .asr dst | .asl dst | .sxt dst
  | .clrb dst | .comb dst | .incb dst | .decb dst | .negb dst | .adcb dst | .sbcb dst | .tstb dst
  | .rorb dst | .rolb dst | .asrb dst | .aslb dst | .mtps dst | .mfps dst => [dst]
  | .halt | .wait | .rti | .bpt | .iot | .reset | .rtt | .rts _ | .clcc _ | .secc _
  | .br _ | .bne _ | .beq _ | .bge _ | .blt _ | .bgt _ | .ble _ | .sob _ _
  | .bpl _ | .bmi _ | .bhi _ | .blos _ | .bvc _ | .bvs _ | .bcc _ | .bcs _
  | .emt _ | .trap _ | .illegal _ => []

/-- The length of an instruction in words, opcode word included (spec/30_encoding.md R115). -/
def Instr.length (i : Instr) : Nat := 1 + (i.operands.map Opnd.extWords).sum

/-- The little-endian word at the head of a byte stream (spec/20_memory.md R73). -/
def wordOfBytes (low high : Byte) : Word := high ++ low

/-- Why a byte stream holds no instruction. No word is rejected (spec/30_encoding.md R116): only a stream that ends too
early is. -/
inductive DecodeReject where
  /-- The stream ends before the opcode word does. -/
  | noOpcodeWord
  /-- The stream ends before the instruction's extension words do. -/
  | noExtensionWord
  deriving DecidableEq, Repr

/-- The instruction at the head of a byte stream, and what follows the whole instruction. -/
def decodeBytes : List Byte → Except DecodeReject (Instr × List Byte)
  | low :: high :: rest =>
    let i := decode (wordOfBytes low high)
    let more := 2 * (i.length - 1)
    if rest.length < more then .error .noExtensionWord else .ok (i, rest.drop more)
  | _ => .error .noOpcodeWord

/-- The opcode word of a single-operand format: a 10-bit code above the operand field (spec/30_encoding.md R103). -/
def sopWord (code : Nat) (dst : Opnd) : Word := BitVec.ofNat 16 (code * 64 + dst.field)

/-- Format DOP (spec/30_encoding.md R101). -/
def dopWord (code : Nat) (src dst : Opnd) : Word := BitVec.ofNat 16 (code * 4096 + src.field * 64 + dst.field)

/-- Format RDD (spec/30_encoding.md R102). -/
def rddWord (code : Nat) (r : Reg) (dst : Opnd) : Word := BitVec.ofNat 16 (code * 512 + r.val * 64 + dst.field)

/-- Formats BR and TRP: an 8-bit code above a byte (spec/30_encoding.md R104, R108). -/
def byteWord (code : Nat) (low : BitVec 8) : Word := BitVec.ofNat 16 (code * 256 + low.toNat)

/-- Format CC: a 12-bit code above the mask (spec/30_encoding.md R107). -/
def ccWord (code : Nat) (m : BitVec 4) : Word := BitVec.ofNat 16 (code * 16 + m.toNat)

/-- The opcode word of an instruction (spec/30_encoding.md R114). Codes in octal or hexadecimal as the formats cut them. -/
def encode : Instr → Word
  | .halt => 0x0000#16
  | .wait => 0x0001#16
  | .rti => 0x0002#16
  | .bpt => 0x0003#16
  | .iot => 0x0004#16
  | .reset => 0x0005#16
  | .rtt => 0x0006#16
  | .jmp dst => sopWord 0o0001 dst
  | .rts r => BitVec.ofNat 16 (0x0080 + r.val)
  | .clcc m => ccWord 0x00A m
  | .secc m => ccWord 0x00B m
  | .swab dst => sopWord 0o0003 dst
  | .br off => byteWord 0x01 off
  | .bne off => byteWord 0x02 off
  | .beq off => byteWord 0x03 off
  | .bge off => byteWord 0x04 off
  | .blt off => byteWord 0x05 off
  | .bgt off => byteWord 0x06 off
  | .ble off => byteWord 0x07 off
  | .jsr r dst => rddWord 0o004 r dst
  | .clr dst => sopWord 0o0050 dst
  | .com dst => sopWord 0o0051 dst
  | .inc dst => sopWord 0o0052 dst
  | .dec dst => sopWord 0o0053 dst
  | .neg dst => sopWord 0o0054 dst
  | .adc dst => sopWord 0o0055 dst
  | .sbc dst => sopWord 0o0056 dst
  | .tst dst => sopWord 0o0057 dst
  | .ror dst => sopWord 0o0060 dst
  | .rol dst => sopWord 0o0061 dst
  | .asr dst => sopWord 0o0062 dst
  | .asl dst => sopWord 0o0063 dst
  | .sxt dst => sopWord 0o0067 dst
  | .mov src dst => dopWord 0o01 src dst
  | .cmp src dst => dopWord 0o02 src dst
  | .bit src dst => dopWord 0o03 src dst
  | .bic src dst => dopWord 0o04 src dst
  | .bis src dst => dopWord 0o05 src dst
  | .add src dst => dopWord 0o06 src dst
  | .xor r dst => rddWord 0o074 r dst
  | .sob r off => BitVec.ofNat 16 (0o077 * 512 + r.val * 64 + off.toNat)
  | .bpl off => byteWord 0x80 off
  | .bmi off => byteWord 0x81 off
  | .bhi off => byteWord 0x82 off
  | .blos off => byteWord 0x83 off
  | .bvc off => byteWord 0x84 off
  | .bvs off => byteWord 0x85 off
  | .bcc off => byteWord 0x86 off
  | .bcs off => byteWord 0x87 off
  | .emt code => byteWord 0x88 code
  | .trap code => byteWord 0x89 code
  | .clrb dst => sopWord 0o1050 dst
  | .comb dst => sopWord 0o1051 dst
  | .incb dst => sopWord 0o1052 dst
  | .decb dst => sopWord 0o1053 dst
  | .negb dst => sopWord 0o1054 dst
  | .adcb dst => sopWord 0o1055 dst
  | .sbcb dst => sopWord 0o1056 dst
  | .tstb dst => sopWord 0o1057 dst
  | .rorb dst => sopWord 0o1060 dst
  | .rolb dst => sopWord 0o1061 dst
  | .asrb dst => sopWord 0o1062 dst
  | .aslb dst => sopWord 0o1063 dst
  | .mtps src => sopWord 0o1064 src
  | .mfps dst => sopWord 0o1067 dst
  | .movb src dst => dopWord 0o11 src dst
  | .cmpb src dst => dopWord 0o12 src dst
  | .bitb src dst => dopWord 0o13 src dst
  | .bicb src dst => dopWord 0o14 src dst
  | .bisb src dst => dopWord 0o15 src dst
  | .sub src dst => dopWord 0o16 src dst
  | .illegal w => w

/-- The bytes of an instruction of three words whose bits, numbered from the first word's bit 0, are those of `w` below
`nbits` and 0 above; each word low byte first (spec/20_memory.md R73). -/
def tableBytes (nbits w : Nat) : List Byte :=
  let n := w % 2 ^ nbits
  [0, 8, 16, 24, 32, 40].map fun k => BitVec.ofNat 8 (n / 2 ^ k)

/-- The instruction the decoder reads from the bits of an opcode-table row. -/
def decodeTableWord (nbits w : Nat) : Option Instr :=
  match decodeBytes (tableBytes nbits w) with
  | .ok (i, _) => some i
  | .error _ => none

end Sys2Proof
end

