-- ==== Sys2Proof/Machine/Events.lean ====
section
/-! DEFINITION. What happens at an instruction boundary (spec/60_exceptions.md R347, R356 to R361, R370), the fetch of an
instruction (spec/40_addressing.md R140), and the moves of the host and the interrupt source
(spec/70_reset_and_hazards.md R390, R391, R403, R404, R405; log 15). -/

namespace Sys2Proof.Machine

/-- Line n qualifies: active, and its priority strictly above PSW.PRI (spec/60_exceptions.md R357). -/
def qualifies (s : State) (n : Fin 4) : Bool :=
  s.lines[n].active && (priOf s.psw).ult s.params.linePriority[n]

/-- The better of a qualifying line and the best of the lines below it: the greater priority, and the higher line number
on a tie (spec/60_exceptions.md R359). -/
def betterLine (s : State) (best : Option (Fin 4)) (n : Fin 4) : Option (Fin 4) :=
  if qualifies s n then
    match best with
    | none => some n
    | some m => if s.params.linePriority[m].ule s.params.linePriority[n] then some n else some m
  else best

/-- The line the core takes, if any qualifies (spec/60_exceptions.md R359). -/
def bestLine (s : State) : Option (Fin 4) :=
  betterLine s (betterLine s (betterLine s (betterLine s none 0) 1) 2) 3

/-- Acceptance of line n (spec/60_exceptions.md R361; spec/10_state.md R44). -/
def acceptLine (n : Fin 4) (s : State) : State :=
  trapEntry s.lines[n].vector { s with ppc := s.pc }

/-- Acceptance of the power-fail request; PPC is not written (spec/60_exceptions.md R347). -/
def acceptPowerFail (s : State) : State := powerFailTrap { s with pfail := false }

/-- Why a halted core takes no step (spec/10_state.md R46; spec/70_reset_and_hazards.md R406). -/
def haltReason (s : State) : Fault :=
  if s.doubleFault then .doubleFault
  else if s.resetFault then .resetFault
  else
    match s.unwrittenRead with
    | some r => .unwrittenRegister r
    | none => .halted

/-- What a core step is, by the order of spec/60_exceptions.md R370. -/
inductive Boundary where
  /-- 1: halted, no step. -/
  | stopped (f : Fault)
  /-- 2, 3 and 4: power-fail, an interrupt, or an idle step of a held wait. -/
  | taken (t : State)
  /-- 5: one instruction. -/
  | instruction
  deriving DecidableEq, Repr

/-- Steps 1 to 4 of CoreStep (spec/60_exceptions.md R370). A held wait takes an idle step, which changes no state
(spec/70_reset_and_hazards.md R402, R410; log 10). -/
def boundary (s : State) : Boundary :=
  if s.halted then .stopped (haltReason s)
  else if s.pfail then .taken (acceptPowerFail s)
  else
    match bestLine s with
    | some n => .taken (acceptLine n s)
    | none => if s.waiting then .taken s else .instruction

/-- `PPC <- pc; tstart <- PSW.T` (spec/40_addressing.md R140; spec/10_state.md R44, R47). -/
def beginInstr (s : State) : State := { s with ppc := s.pc, tstart := traceBit s.psw }

/-- The opcode word fetched and decoded (spec/40_addressing.md R140). -/
def fetchInstr (s : State) : Res Instr :=
  (fetch (beginInstr s)).bind fun w t => .ok (decode w) t

/-- The six bytes of an opcode-table word placed where the next opcode fetch reads, low byte first. -/
def placeBytes (a : Word) : List Byte → Memory → Memory
  | [], m => m
  | b :: bs, m => placeBytes (a + 1#16) bs (m.write a.toNat b)

/-- Whether a region covers one of the n addresses from `a` on. -/
def coversFetch (r : Region) (a : Word) : Nat → Bool
  | 0 => false
  | n + 1 =>
    (r.base ≤ (a + BitVec.ofNat 16 n).toNat && (a + BitVec.ofNat 16 n).toNat < r.base + r.size) || coversFetch r a n

/-- `s` made to run the instruction with these bytes in its very next step: the bytes stand at pc & 0xFFFE, and what would
keep the step from fetching there is taken away (log 16). -/
def placeInstr (bytes : List Byte) (s : State) : State :=
  let a := evenAddr s.pc
  { s with
    mem := placeBytes a bytes s.mem
    halted := false
    waiting := false
    pfail := false
    lines := #v[⟨false, s.lines[0].vector⟩, ⟨false, s.lines[1].vector⟩, ⟨false, s.lines[2].vector⟩,
      ⟨false, s.lines[3].vector⟩]
    params := { s.params with platform := s.params.platform.filter fun r => !coversFetch r a bytes.length } }

/-! ### The host and the interrupt source, between two steps -/

/-- The registers a core reset leaves before it reads the reset words: R0 to R5 unwritten, with the value the model names
(spec/70_reset_and_hazards.md R390; log 1). -/
def clearRegisters (s : State) : State :=
  { s with
    regs := #v[Config.resetRegister, Config.resetRegister, Config.resetRegister, Config.resetRegister,
      Config.resetRegister, Config.resetRegister, s.sp, s.pc]
    written := #v[false, false, false, false, false, false, s.written[SP], s.written[PC]] }

/-- The two reset words: PC, then SP (spec/70_reset_and_hazards.md R390). -/
def resetWords (s : State) : Res (Word × Word) :=
  (readWord 0x0000#16 s).bind fun t0 s1 =>
  (readWord 0x0002#16 s1).bind fun t1 s2 =>
  .ok (t0, t1) s2

/-- `Reset(INIT_PSW)` (spec/70_reset_and_hazards.md R390, R392); a bus error on a reset word halts the core with the mark
ResetFault, before pc or SP is written (R391). -/
def hostReset (initPsw : Word) (s : State) : State :=
  let c := clearRegisters
    { s with waiting := false, halted := false, tstart := false, pfail := false, psw := lo8 initPsw }
  match resetWords c with
  | .ok (newpc, newsp) t => { (t.setPc newpc).setSp newsp with ppc := newpc }
  | .err t => { t with halted := true, resetFault := true }

/-- `SetPowerFail` (spec/70_reset_and_hazards.md R404). -/
def setPowerFail (s : State) : State := { s with pfail := true }

/-- `SetLine(n, active, vector)` (spec/70_reset_and_hazards.md R404). -/
def setLine (n : Fin 4) (active : Bool) (vector : Word) (s : State) : State :=
  { s with lines := s.lines.set n { active := active, vector := vector } }

/-- What the host may look at (spec/70_reset_and_hazards.md R405). -/
structure Inspection where
  general : Vector Word 8
  pc : Word
  sp : Word
  psw : Word
  ppc : Word
  deriving DecidableEq, Repr

/-- `Inspect`: reads only; the PSW reads as `zext_16` (spec/70_reset_and_hazards.md R405; spec/10_state.md R40). -/
def inspect (s : State) : Inspection :=
  { general := s.regs, pc := s.pc, sp := s.sp, psw := zext16 s.psw, ppc := s.ppc }

/-- The moves the environment can make at a boundary (spec/70_reset_and_hazards.md R404). -/
inductive Move where
  | reset (initPsw : Word)
  | setPowerFail
  | setLine (n : Fin 4) (active : Bool) (vector : Word)
  /-- Ends the slice and changes no state (spec/70_reset_and_hazards.md R403). -/
  | requestHalt
  deriving DecidableEq, Repr

/-- The state after a move (spec/70_reset_and_hazards.md R403, R404). -/
def applyMove : Move → State → State
  | .reset p, s => hostReset p s
  | .setPowerFail, s => setPowerFail s
  | .setLine n active vector, s => setLine n active vector s
  | .requestHalt, s => s

end Sys2Proof.Machine
end

