-- ==== Sys2Proof/Machine/Step.lean ====
section
/-! DEFINITION. One core step (spec/60_exceptions.md R370), and a state made to run a given instruction next. -/

namespace Sys2Proof.Machine

/-- CoreStep (spec/60_exceptions.md R370). A bus error on the opcode fetch is BusError (R342, R343). -/
def step (s : State) : Host.Outcome State Fault Refusal :=
  match boundary s with
  | .stopped f => .fault f
  | .taken t => .next t
  | .instruction =>
    match fetchInstr s with
    | .ok i t => exec i t
    | .err t => .next (busErrorTrap t)

/-- `s` with the instruction whose bits are `w` (numbered as spec/opcode_table.json numbers them, bits from `nbits` on
zero) where the next step fetches it (log 16). -/
def State.withFetchWord (s : State) (nbits w : Nat) : State := placeInstr (tableBytes nbits w) s

end Sys2Proof.Machine
end

