-- ==== Sys2Proof/Safety.lean ====
section
/-! DEFINITION. The terms claims use: the reference bus, a run that has ended well, a held wait, the registers
an instruction reads, the invariant every step keeps, and the bytes a store touches. -/

namespace Sys2Proof.Machine

/-- The reference bus under ODD_WORD_POLICY = ALIGN, the spec's default: no bus call reports an error
(spec/20_memory.md R76, R88). -/
abbrev ReferenceBus (s : State) : Prop := s.params.platform = [] ∧ s.params.oddWord = .align

/-- No region of the platform is a device; absent regions may be there (log 5). -/
abbrev NoDevice (s : State) : Prop := ∀ r ∈ s.params.platform, r.kind ≠ .device

/-- The end of a run: halted with no fault mark, DoubleFault, ResetFault or UnwrittenRegister
(spec/70_reset_and_hazards.md R406; spec/10_state.md R51). -/
def endedWell (s : State) : Bool := s.halted && !s.doubleFault && !s.resetFault && s.unwrittenRead.isNone

/-- A held wait: waiting, not halted, and nothing to accept (spec/70_reset_and_hazards.md R402). -/
def held (s : State) : Bool := s.waiting && !s.halted && !s.pfail && (bestLine s).isNone

/-- Registers whose old value a read operand takes. -/
def loadReads (o : Opnd) : List Reg := [o.reg]

/-- Registers whose old value a written operand takes: none in register mode. -/
def storeReads (o : Opnd) : List Reg := if o.mode = .register then [] else [o.reg]

/-- The registers an instruction's operand rules read before they write them (spec/40_addressing.md R140, R141, R146). -/
def registersRead : Instr → List Reg
  | .mov src dst | .movb src dst => loadReads src ++ storeReads dst
  | .cmp src dst | .bit src dst | .bic src dst | .bis src dst | .add src dst
  | .cmpb src dst | .bitb src dst | .bicb src dst | .bisb src dst | .sub src dst => loadReads src ++ loadReads dst
  | .xor r dst => r :: loadReads dst
  | .clr dst | .clrb dst | .sxt dst | .mfps dst => storeReads dst
  | .com dst | .inc dst | .dec dst | .neg dst | .adc dst | .sbc dst | .tst dst
  | .ror dst | .rol dst | .asr dst | .asl dst | .swab dst
  | .comb dst | .incb dst | .decb dst | .negb dst | .adcb dst | .sbcb dst | .tstb dst
  | .rorb dst | .rolb dst | .asrb dst | .aslb dst | .mtps dst => loadReads dst
  | .jmp dst => storeReads dst
  | .jsr r dst => if dst.mode = .register then [] else [dst.reg, r]
  | .rts r | .sob r _ => [r]
  | .halt | .wait | .rti | .bpt | .iot | .reset | .rtt | .clcc _ | .secc _
  | .br _ | .bne _ | .beq _ | .bge _ | .blt _ | .bgt _ | .ble _
  | .bpl _ | .bmi _ | .bhi _ | .blos _ | .bvc _ | .bvs _ | .bcc _ | .bcs _
  | .emt _ | .trap _ | .illegal _ => []

/-- From `s` to `t` at most reads of these registers have left a mark: the mark stays, or none becomes one of them that is
unwritten in `s` and is one of R0 to R5 (spec/10_state.md R51; log 1). -/
def NotesOnly (regs : List Reg) (s t : State) : Prop :=
  t.unwrittenRead = s.unwrittenRead ∨
  (s.unwrittenRead = none ∧ ∃ q ∈ regs, q.val < 6 ∧ s.written[q] = false ∧ t.unwrittenRead = some q)

/-- What every step keeps: memory in its canonical form, and SP and PC written registers. -/
abbrev State.Inv (s : State) : Prop :=
  Memory.wf s.mem ∧ s.written[SP] = true ∧ s.written[PC] = true

/-- The register that resolving an operand steps: the addressing register of modes 2 to 5 (spec/40_addressing.md R141,
R143). The pc advances of stream fetches are not counted. -/
def steppedBy (o : Opnd) : List Reg :=
  match o.mode with
  | .autoInc | .autoIncDeferred | .autoDec | .autoDecDeferred => [o.reg]
  | .register | .deferred | .indexed | .indexedDeferred => []

/-- The register that writing an operand writes: in register mode only (spec/40_addressing.md R146). -/
def writtenBy (o : Opnd) : List Reg := if o.mode = .register then [o.reg] else []

/-- The bytes a write to an operand touches, as ODD_WORD_POLICY places them (spec/20_memory.md R76, R88). -/
def storedBytes (p : Params) (sz : Size) (op : Operand) : List Nat :=
  match op.address? with
  | none => []
  | some a =>
    match sz with
    | .byte => [a.toNat]
    | .word =>
      match wordAddr p a with
      | none => []
      | some b => [b.toNat, b.toNat + 1]

end Sys2Proof.Machine
end

