-- ==== Sys2Proof/Certificates/Slice0/Obligations.lean ====
section
/-! DEFINITION. The statements about the machine, each a `def Obligations.<Name> : Prop`, and the terms they share. Formulas
of results and flags are written out from spec/ here, not taken from Machine/Flags.lean. -/

namespace Sys2Proof.Claims

open Sys2Proof Sys2Proof.Machine

/-! ### How an instruction ends -/

/-- The instruction raises BusError in state `u` (spec/60_exceptions.md R343). -/
def BusFault (i : Instr) (s u : State) : Prop := exec i s = .next (trapEntry 0x0004#16 u)

/-- The state after an instruction that began in `s` and completed in `x`: the trace rule of spec/60_exceptions.md R372. -/
def finished (s x : State) : State := if s.tstart then trapEntry 0x000C#16 x else x

/-- A completed instruction leaves `x`, with these condition codes over the PSW it began with. -/
def flagged (s x : State) (k : Cc) : State := { x with psw := withCc s.psw k }

/-- The instruction ends in `u`, or with a BusError or a trace trap taken from `u`. -/
def EndsFrom (i : Instr) (s u : State) : Prop :=
  exec i s = .next u ∨ exec i s = .next (trapEntry 0x0004#16 u) ∨ exec i s = .next (trapEntry 0x000C#16 u)

/-- The number of an operand field: mode in bits 5:3, register in bits 2:0 (spec/30_encoding.md R110). -/
def fieldWord (o : Opnd) : Word := BitVec.ofNat 16 (8 * o.mode.number + o.reg.val)

/-! ### The shapes of an operand instruction (spec/40_addressing.md R140) -/

/-- `i`, begun in `s`, resolves `d` from `s1`, reads it, writes `res` of the value and sets `flags` of the value; each bus
call that fails raises BusError in the state it leaves. -/
def ModifyClauses {w : Nat} (acc : Access w) (i : Instr) (s s1 : State) (d : Opnd) (res : BitVec w → BitVec w)
    (flags : BitVec w → Cc) : Prop :=
  (∀ u, resolve acc.size d s1 = .err u → BusFault i s u) ∧
  (∀ o t u, resolve acc.size d s1 = .ok o t → acc.read o t = .err u → BusFault i s u) ∧
  (∀ o t dv u x, resolve acc.size d s1 = .ok o t → acc.read o t = .ok dv u → acc.write o (res dv) u = .err x →
    BusFault i s x) ∧
  (∀ o t dv u x, resolve acc.size d s1 = .ok o t → acc.read o t = .ok dv u → acc.write o (res dv) u = .ok () x →
    exec i s = .next (finished s (flagged s x (flags dv))))

/-- The calls of `ModifyClauses` complete, and so does the instruction. -/
def ModifyCompletes {w : Nat} (acc : Access w) (i : Instr) (s s1 : State) (d : Opnd) (res : BitVec w → BitVec w)
    (flags : BitVec w → Cc) : Prop :=
  ∃ o t dv u x, resolve acc.size d s1 = .ok o t ∧ acc.read o t = .ok dv u ∧ acc.write o (res dv) u = .ok () x ∧
    exec i s = .next (finished s (flagged s x (flags dv)))

/-- `i` resolves `d`, writes `v` without reading, and sets flags. -/
def StoreClauses {w : Nat} (acc : Access w) (i : Instr) (s s1 : State) (d : Opnd) (v : BitVec w) (flags : Cc) : Prop :=
  (∀ u, resolve acc.size d s1 = .err u → BusFault i s u) ∧
  (∀ o t x, resolve acc.size d s1 = .ok o t → acc.write o v t = .err x → BusFault i s x) ∧
  (∀ o t x, resolve acc.size d s1 = .ok o t → acc.write o v t = .ok () x →
    exec i s = .next (finished s (flagged s x flags)))

/-- The calls of `StoreClauses` complete, and so does the instruction. -/
def StoreCompletes {w : Nat} (acc : Access w) (i : Instr) (s s1 : State) (d : Opnd) (v : BitVec w) (flags : Cc) : Prop :=
  ∃ o t x, resolve acc.size d s1 = .ok o t ∧ acc.write o v t = .ok () x ∧
    exec i s = .next (finished s (flagged s x flags))

/-- `i` resolves `d`, reads it, and sets flags. -/
def ProbeClauses {w : Nat} (acc : Access w) (i : Instr) (s s1 : State) (d : Opnd) (flags : BitVec w → Cc) : Prop :=
  (∀ u, resolve acc.size d s1 = .err u → BusFault i s u) ∧
  (∀ o t u, resolve acc.size d s1 = .ok o t → acc.read o t = .err u → BusFault i s u) ∧
  (∀ o t dv u, resolve acc.size d s1 = .ok o t → acc.read o t = .ok dv u →
    exec i s = .next (finished s (flagged s u (flags dv))))

/-- The calls of `ProbeClauses` complete, and so does the instruction. -/
def ProbeCompletes {w : Nat} (acc : Access w) (i : Instr) (s s1 : State) (d : Opnd) (flags : BitVec w → Cc) : Prop :=
  ∃ o t dv u, resolve acc.size d s1 = .ok o t ∧ acc.read o t = .ok dv u ∧
    exec i s = .next (finished s (flagged s u (flags dv)))

/-- A single-operand instruction that modifies its destination: encoding, every outcome, and completion on the reference
bus. -/
def Modifies {w : Nat} (acc : Access w) (base : Word) (mk : Opnd → Instr) (res : State → BitVec w → BitVec w)
    (flags : State → BitVec w → Cc) : Prop :=
  ∀ (d : Opnd) (s : State),
    encode (mk d) = base + fieldWord d ∧
    ModifyClauses acc (mk d) s s d (res s) (flags s) ∧
    (ReferenceBus s → ModifyCompletes acc (mk d) s s d (res s) (flags s))

/-- A single-operand instruction that only writes its destination. -/
def Stores {w : Nat} (acc : Access w) (base : Word) (mk : Opnd → Instr) (v : State → BitVec w) (flags : State → Cc) :
    Prop :=
  ∀ (d : Opnd) (s : State),
    encode (mk d) = base + fieldWord d ∧
    StoreClauses acc (mk d) s s d (v s) (flags s) ∧
    (ReferenceBus s → StoreCompletes acc (mk d) s s d (v s) (flags s))

/-- A single-operand instruction that only reads its destination. -/
def Probes {w : Nat} (acc : Access w) (base : Word) (mk : Opnd → Instr) (flags : State → BitVec w → Cc) : Prop :=
  ∀ (d : Opnd) (s : State),
    encode (mk d) = base + fieldWord d ∧
    ProbeClauses acc (mk d) s s d (flags s) ∧
    (ReferenceBus s → ProbeCompletes acc (mk d) s s d (flags s))

/-- A double-operand instruction: the source is resolved and read, then `Clauses` holds of the destination from there; on
the reference bus the source's calls complete and `Completes` holds. -/
def AfterSource {w : Nat} (acc : Access w) (base : Word) (mk : Opnd → Opnd → Instr)
    (Clauses Completes : Instr → State → State → Opnd → BitVec w → Prop) : Prop :=
  ∀ (src dst : Opnd) (s : State),
    encode (mk src dst) = base + 64#16 * fieldWord src + fieldWord dst ∧
    (∀ u, loadOp acc src s = .err u → BusFault (mk src dst) s u) ∧
    (∀ sv s1, loadOp acc src s = .ok sv s1 → Clauses (mk src dst) s s1 dst sv) ∧
    (ReferenceBus s → ∃ sv s1, loadOp acc src s = .ok sv s1 ∧ Completes (mk src dst) s s1 dst sv)

/-- A double-operand instruction that modifies its destination. -/
def Combines {w : Nat} (acc : Access w) (base : Word) (mk : Opnd → Opnd → Instr) (res : BitVec w → BitVec w → BitVec w)
    (flags : Cc → BitVec w → BitVec w → Cc) : Prop :=
  AfterSource acc base mk
    (fun i s s1 d sv => ModifyClauses acc i s s1 d (res sv) (flags (ccOf s.psw) sv))
    (fun i s s1 d sv => ModifyCompletes acc i s s1 d (res sv) (flags (ccOf s.psw) sv))

/-- A double-operand instruction that only reads its destination. -/
def Compares {w : Nat} (acc : Access w) (base : Word) (mk : Opnd → Opnd → Instr)
    (flags : Cc → BitVec w → BitVec w → Cc) : Prop :=
  AfterSource acc base mk
    (fun i s s1 d sv => ProbeClauses acc i s s1 d (flags (ccOf s.psw) sv))
    (fun i s s1 d sv => ProbeCompletes acc i s s1 d (flags (ccOf s.psw) sv))

/-- A double-operand instruction that only writes its destination, with the source value. -/
def Moves {w : Nat} (acc : Access w) (base : Word) (mk : Opnd → Opnd → Instr) (flags : Cc → BitVec w → Cc) : Prop :=
  AfterSource acc base mk
    (fun i s s1 d sv => StoreClauses acc i s s1 d sv (flags (ccOf s.psw) sv))
    (fun i s s1 d sv => StoreCompletes acc i s s1 d sv (flags (ccOf s.psw) sv))

/-- The byte write of MOVB and MFPS: a register takes the sign-extended byte, memory one byte, through a stream operand too
(spec/10_state.md R33; spec/40_addressing.md R144, R146). -/
def SignExtends : Prop :=
  ∀ (b : Byte) (s : State),
    (∀ r : Reg, signedByteAccess.write (.reg r) b s = .ok () (s.setReg r (b.signExtend 16))) ∧
    (∀ a : Word, signedByteAccess.write (.mem a) b s = writeByte a b s) ∧
    ∀ a : Word, signedByteAccess.write (.stream a) b s = writeByte a b s

/-- N and Z of a value, V 0, C as it was. -/
def logicFlags {w : Nat} (k : Cc) (t : BitVec w) : Cc := { n := t.msb, z := t == 0#w, v := false, c := k.c }

/-- C the bit shifted out, V = N ^ C with the new N and C (spec/42_single_operand.md R240 to R243). -/
def rotateFlags {w : Nat} (t : BitVec w) (out : Bool) : Cc := { n := t.msb, z := t == 0#w, v := t.msb ^^ out, c := out }

/-- A branch: encoding, target, and that no flag changes (spec/43_control.md R271). -/
def Branches (code : BitVec 8) (mk : BitVec 8 → Instr) (cond : Cc → Bool) : Prop :=
  ∀ (off : BitVec 8) (s : State),
    decode (code ++ off) = mk off ∧
    exec (mk off) s =
      .next (finished s (if cond (ccOf s.psw) then s.setPc (s.pc + 2#16 * off.signExtend 16) else s))

/-- MTPS, the one instruction that a parameter lets write PRI (spec/42_single_operand.md R260). -/
def isMtps : Instr → Bool
  | .mtps _ => true
  | _ => false

/-! ### Frames -/

/-- PPC, the trace latch, the power-fail request, the fault marks, the lines and the parameters stay. -/
def KeepsRest (s u : State) : Prop :=
  u.ppc = s.ppc ∧ u.tstart = s.tstart ∧ u.pfail = s.pfail ∧ u.doubleFault = s.doubleFault ∧
  u.resetFault = s.resetFault ∧ u.lines = s.lines ∧ u.params = s.params

/-- Every register outside the list keeps its value and its mark. -/
def KeepsRegs (s u : State) (changed : List Reg) : Prop :=
  ∀ r : Reg, r ∉ changed → u.reg r = s.reg r ∧ u.written[r] = s.written[r]

/-- The PSW bits of the mask stay. -/
def KeepsPsw (s u : State) (mask : Byte) : Prop := u.psw &&& mask = s.psw &&& mask

/-- The wait and halt states stay, so does the history where no region is a device, and the mark UnwrittenRegister changes
only by a read of a register that the instruction reads (log 1). -/
def KeepsExecution (i : Instr) (s u : State) : Prop :=
  u.waiting = s.waiting ∧ u.halted = s.halted ∧ (NoDevice s → u.events = s.events) ∧
  NotesOnly (registersRead i) s u

/-- The frame of a single-operand instruction: registers but pc, the stepped register and a register destination; the PSW
bits of `mask`; every byte of memory but those stored to. -/
def WritingFrame (sz : Size) (mask : Byte) (mk : Opnd → Instr) : Prop :=
  ∀ (d : Opnd) (s : State), ∃ u, EndsFrom (mk d) s u ∧
    KeepsRest s u ∧ KeepsExecution (mk d) s u ∧ KeepsPsw s u mask ∧
    KeepsRegs s u (PC :: (steppedBy d ++ writtenBy d)) ∧
    ∀ x : Nat, (∀ o t, resolve sz d s = .ok o t → x ∉ storedBytes s.params sz o) → u.mem.read x = s.mem.read x

/-- The frame of a single-operand instruction that writes no operand. -/
def ReadingFrame (mask : State → Byte) (mk : Opnd → Instr) : Prop :=
  ∀ (d : Opnd) (s : State), ∃ u, EndsFrom (mk d) s u ∧
    KeepsRest s u ∧ KeepsExecution (mk d) s u ∧ KeepsPsw s u (mask s) ∧
    KeepsRegs s u (PC :: steppedBy d) ∧ u.mem = s.mem

/-- The frame of a double-operand instruction that writes its destination. -/
def CombiningFrame {w : Nat} (acc : Access w) (mask : Byte) (mk : Opnd → Opnd → Instr) : Prop :=
  ∀ (src dst : Opnd) (s : State), ∃ u, EndsFrom (mk src dst) s u ∧
    KeepsRest s u ∧ KeepsExecution (mk src dst) s u ∧ KeepsPsw s u mask ∧
    KeepsRegs s u (PC :: (steppedBy src ++ steppedBy dst ++ writtenBy dst)) ∧
    ∀ x : Nat, (∀ sv s1 o t, loadOp acc src s = .ok sv s1 → resolve acc.size dst s1 = .ok o t →
      x ∉ storedBytes s.params acc.size o) → u.mem.read x = s.mem.read x

/-- The frame of a double-operand instruction that writes no operand. -/
def ComparingFrame (mask : Byte) (mk : Opnd → Opnd → Instr) : Prop :=
  ∀ (src dst : Opnd) (s : State), ∃ u, EndsFrom (mk src dst) s u ∧
    KeepsRest s u ∧ KeepsExecution (mk src dst) s u ∧ KeepsPsw s u mask ∧
    KeepsRegs s u (PC :: (steppedBy src ++ steppedBy dst)) ∧ u.mem = s.mem

end Sys2Proof.Claims

open Sys2Proof Sys2Proof.Machine Sys2Proof.Claims

/-! ## Encoding -/

/-- Decoding the encoded word of any well-formed instruction gives it back, at every operand value
(spec/30_encoding.md R101 to R110, R114). -/
def Obligations.DecodeOfEncode : Prop := ∀ i : Instr, i.wellFormed = true → decode (encode i) = i

/-- Every word decodes to a well-formed instruction whose word it is: no bit is dropped and no two rows share a word
(spec/30_encoding.md R114, R116). -/
def Obligations.EncodeOfDecode : Prop := ∀ w : Word, (decode w).wellFormed = true ∧ encode (decode w) = w

/-- The illegal words are those of the ten ranges (spec/30_encoding.md R118). -/
def Obligations.IllegalWordsAreTheRanges : Prop :=
  ∀ w : Word, decode w = .illegal w ↔
    (0x0007 ≤ w.toNat ∧ w.toNat ≤ 0x003F) ∨ (0x0088 ≤ w.toNat ∧ w.toNat ≤ 0x0097) ∨
    (0x0098 ≤ w.toNat ∧ w.toNat ≤ 0x009F) ∨ (0x0D00 ≤ w.toNat ∧ w.toNat ≤ 0x0DBF) ∨
    (0x0E00 ≤ w.toNat ∧ w.toNat ≤ 0x0FFF) ∨ (0x7000 ≤ w.toNat ∧ w.toNat ≤ 0x77FF) ∨
    (0x7A00 ≤ w.toNat ∧ w.toNat ≤ 0x7DFF) ∨ (0x8D40 ≤ w.toNat ∧ w.toNat ≤ 0x8DBF) ∨
    (0x8E00 ≤ w.toNat ∧ w.toNat ≤ 0x8FFF) ∨ (0xF000 ≤ w.toNat ∧ w.toNat ≤ 0xFFFF)

/-- A word of each format, as spec/95_test_vectors.md writes it, decodes to its instruction. -/
def Obligations.SpecWordsDecode : Prop :=
  decode 0x1401#16 = .mov ⟨.autoInc, 0⟩ ⟨.register, 1⟩ ∧
  decode 0x0948#16 = .jsr 5 ⟨.deferred, 0⟩ ∧
  decode 0x8BD8#16 = .tstb ⟨.autoIncDeferred, 0⟩ ∧
  decode 0x0305#16 = .beq 5#8 ∧
  decode 0x7E3F#16 = .sob 0 63#6 ∧
  decode 0x0087#16 = .rts 7 ∧
  decode 0x00BC#16 = .secc 0b1100#4 ∧
  decode 0x88AB#16 = .emt 0xAB#8 ∧
  decode 0x0006#16 = .rtt

/-- The length of an instruction follows from its opcode word by the formula of spec/30_encoding.md R115. -/
def Obligations.LengthFromOpcodeWord : Prop :=
  ∀ w : Word,
    let ext : Nat → Nat := fun f => if f / 8 = 6 ∨ f / 8 = 7 ∨ (f % 8 = 7 ∧ (f / 8 = 2 ∨ f / 8 = 3)) then 1 else 0
    let n := w.toNat
    let op4 := n / 4096
    let op10 := n / 64
    let op7 := n / 512
    let dop : Bool := (1 ≤ op4 && op4 ≤ 6) || (9 ≤ op4 && op4 ≤ 14)
    let sop : Bool := op10 = 0o0001 || op10 = 0o0003 || (0o0050 ≤ op10 && op10 ≤ 0o0063) || op10 = 0o0067 ||
      (0o1050 ≤ op10 && op10 ≤ 0o1064) || op10 = 0o1067
    let rdd : Bool := op7 = 0o004 || op7 = 0o074
    (decode w).length =
      1 + (if dop then ext (n / 64 % 64) else 0) + (if dop || sop || rdd then ext (n % 64) else 0)

/-- A step that executes an instruction is `exec` of the decoded opcode bytes at pc & 0xFFFE, in the state whose PPC holds
pc, whose trace latch holds T, and whose pc is 2 further (spec/40_addressing.md R140; spec/20_memory.md R80). -/
def Obligations.StepRunsDecodedInstruction : Prop :=
  ∀ (s : State) (i : Instr) (rest after : List Byte),
    s.halted = false → s.pfail = false → bestLine s = none → s.waiting = false →
    regionAt s.params (evenAddr s.pc) = none →
    decodeBytes (s.mem.read (evenAddr s.pc).toNat :: s.mem.read ((evenAddr s.pc).toNat + 1) :: rest) = .ok (i, after) →
    step s = exec i ({ s with ppc := s.pc, tstart := s.psw.getLsbD 4 }.setPc (s.pc + 2#16))

/-! ## Registers, status, memory, bus -/

/-- Operands by kind and width. A register: a word and a byte read, a word write, a byte write that keeps the high byte, and
the sign-extending writes of MOVB and MFPS (spec/10_state.md R33). Memory: the bus call at the address, of the access's
width (spec/40_addressing.md R146). That a read of an unwritten register is recorded and the run goes on, with the value
the register holds, is the model's choice (spec/10_state.md R51; log 1). -/
def Obligations.OperandAccess : Prop :=
  ∀ (r : Reg) (a v : Word) (b : Byte) (s : State),
    readOpWord (.reg r) s = .ok (s.reg r) (s.noteRead r) ∧
    readOpByte (.reg r) s = .ok ((s.reg r).setWidth 8) (s.noteRead r) ∧
    s.noteRead r = { s with
      unwrittenRead := if s.unwrittenRead = none ∧ r.val < 6 ∧ s.written[r] = false then some r
        else s.unwrittenRead } ∧
    (∃ t, writeOpWord (.reg r) v s = .ok () t ∧ t.reg r = v ∧ t.written[r] = true ∧
      ∀ q : Reg, q ≠ r → t.reg q = s.reg q ∧ t.written[q] = s.written[q]) ∧
    (∃ t, writeOpByte (.reg r) b s = .ok () t ∧ t.reg r = (s.reg r &&& 0xFF00#16) ||| b.setWidth 16 ∧
      (∀ q : Reg, q ≠ r → t.reg q = s.reg q) ∧ t.written = s.written) ∧
    (∃ t, writeOpSigned (.reg r) b s = .ok () t ∧ t.reg r = b.signExtend 16 ∧ t.written[r] = true ∧
      ∀ q : Reg, q ≠ r → t.reg q = s.reg q ∧ t.written[q] = s.written[q]) ∧
    (∀ src : Opnd, execMovb src ⟨.register, r⟩ s =
      retire ((loadOp byteAccess src s).bind fun sv t =>
        (writeOpSigned (.reg r) sv t).bind fun _ u => .ok () (flagged t u (logicFlags t.cc sv)))) ∧
    execMfps ⟨.register, r⟩ s =
      retire ((writeOpSigned (.reg r) s.psw s).bind fun _ u => .ok () (flagged s u (logicFlags s.cc s.psw))) ∧
    readOpWord (.mem a) s = readWord a s ∧ readOpByte (.mem a) s = readByte a s ∧
    writeOpWord (.mem a) v s = writeWord a v s ∧ writeOpByte (.mem a) b s = writeByte a b s

/-- The PSW's layout: C, V, Z, N in bits 0 to 3, T in bit 4, PRI in bits 7:5; a write of the condition codes leaves bits
7:4; a write of a whole word stores its low byte and the host reads it back with a zero high byte
(spec/10_state.md R36, R40). -/
def Obligations.PswLayout : Prop :=
  (∀ (p : Byte) (k : Cc),
    ccOf (withCc p k) = k ∧ withCc p k &&& 0xF0#8 = p &&& 0xF0#8 ∧
    ccOf p = { n := p.getLsbD 3, z := p.getLsbD 2, v := p.getLsbD 1, c := p.getLsbD 0 } ∧
    traceBit p = p.getLsbD 4 ∧ (priOf p).toNat = p.toNat / 32) ∧
  ∀ (v : Word) (s : State), (inspect (s.setPsw (lo8 v))).psw = v &&& 0x00FF#16

/-- The word at an even address is its two bytes, the low byte at the lower address, and a word write stores them so
(spec/20_memory.md R73). -/
def Obligations.LittleEndianWords : Prop :=
  ∀ (a v : Word) (s : State), a.toNat % 2 = 0 → regionAt s.params a = none →
    readWord a s = .ok (s.mem.read (a.toNat + 1) ++ s.mem.read a.toNat) s ∧
    ∃ t, writeWord a v s = .ok () t ∧ t.mem.read a.toNat = v.extractLsb' 0 8 ∧
      t.mem.read (a.toNat + 1) = v.extractLsb' 8 8 ∧
      ∀ x : Nat, x ≠ a.toNat → x ≠ a.toNat + 1 → t.mem.read x = s.mem.read x

/-- A byte access may be anywhere; a word access at an odd address goes to the even address below under ALIGN and reports
a bus error under BUS_ERROR (spec/20_memory.md R76, R88). -/
def Obligations.OddWordPolicy : Prop :=
  ∀ (a v : Word) (b : Byte) (s : State), s.params.platform = [] →
    (∃ x, readByte a s = .ok x s) ∧ (∃ t, writeByte a b s = .ok () t) ∧
    (s.params.oddWord = .align →
      readWord a s = readWord (a &&& 0xFFFE#16) s ∧ writeWord a v s = writeWord (a &&& 0xFFFE#16) v s ∧
      ∃ x, readWord a s = .ok x s) ∧
    (s.params.oddWord = .busError → a.getLsbD 0 = true → readWord a s = .err s ∧ writeWord a v s = .err s)

/-- On the reference bus a read returns the most recent write, in each mix of word and byte views, and every other byte is
as before (spec/20_memory.md R74, R83, R88). -/
def Obligations.ReadAfterWrite : Prop :=
  ∀ (a b v : Word) (x : Byte) (s : State), ReferenceBus s →
    (∃ t, writeWord a v s = .ok () t ∧ readWord a t = .ok v t ∧
      readByte (a &&& 0xFFFE#16) t = .ok (v.extractLsb' 0 8) t ∧
      readByte (a ||| 1#16) t = .ok (v.extractLsb' 8 8) t ∧
      (b &&& 0xFFFE#16 ≠ a &&& 0xFFFE#16 → ∃ y, readByte b t = .ok y t ∧ readByte b s = .ok y s)) ∧
    ∃ t, writeByte a x s = .ok () t ∧ readByte a t = .ok x t ∧
      (b ≠ a → ∃ y, readByte b t = .ok y t ∧ readByte b s = .ok y s) ∧
      (∃ y, readWord a t = .ok y t ∧ (if a.getLsbD 0 then y.extractLsb' 8 8 else y.extractLsb' 0 8) = x)

/-- A fetch reads at pc & 0xFFFE and advances pc by 2 only when the read succeeds, and it sees the store before it
(spec/20_memory.md R80, R86). -/
def Obligations.FetchReadsCurrentMemory : Prop :=
  (∀ s : State, (∀ w t, readWord (s.pc &&& 0xFFFE#16) s = .ok w t → fetch s = .ok w (t.setPc (t.pc + 2#16))) ∧
    (∀ t, readWord (s.pc &&& 0xFFFE#16) s = .err t → fetch s = .err t ∧ t.pc = s.pc)) ∧
  ∀ (a v : Word) (s : State), ReferenceBus s → s.pc &&& 0xFFFE#16 = a &&& 0xFFFE#16 →
    ∃ t u, writeWord a v s = .ok () t ∧ fetch t = .ok v u ∧ u.pc = s.pc + 2#16

/-- An access to an absent region reports a bus error and changes nothing; an access to a device joins the history, and is
answered by the free value of that history, whatever it is, or by a bus error; memory stays (spec/20_memory.md R70, R88).
The regions and the history are the model's (log 5, log 6). -/
def Obligations.PlatformAccess : Prop :=
  ∀ (a v : Word) (b : Byte) (s : State),
    (regionAt s.params a = some .absent → readByte a s = .err s ∧ writeByte a b s = .err s) ∧
    (regionAt s.params (a &&& 0xFFFE#16) = some .absent →
      readWord (a &&& 0xFFFE#16) s = .err s ∧ writeWord (a &&& 0xFFFE#16) v s = .err s) ∧
    (regionAt s.params a = some .device →
      readByte a s =
        (match Config.deviceReply (.readByte a :: s.events) with
          | some x => .ok (x.extractLsb' 0 8) { s with events := .readByte a :: s.events }
          | none => .err { s with events := .readByte a :: s.events }) ∧
      writeByte a b s =
        (match Config.deviceReply (.writeByte a b :: s.events) with
          | some _ => .ok () { s with events := .writeByte a b :: s.events }
          | none => .err { s with events := .writeByte a b :: s.events })) ∧
    (regionAt s.params (a &&& 0xFFFE#16) = some .device →
      readWord (a &&& 0xFFFE#16) s =
        (match Config.deviceReply (.readWord (a &&& 0xFFFE#16) :: s.events) with
          | some x => .ok x { s with events := .readWord (a &&& 0xFFFE#16) :: s.events }
          | none => .err { s with events := .readWord (a &&& 0xFFFE#16) :: s.events }) ∧
      writeWord (a &&& 0xFFFE#16) v s =
        (match Config.deviceReply (.writeWord (a &&& 0xFFFE#16) v :: s.events) with
          | some _ => .ok () { s with events := .writeWord (a &&& 0xFFFE#16) v :: s.events }
          | none => .err { s with events := .writeWord (a &&& 0xFFFE#16) v :: s.events }))

/-! ## Operands -/

/-- The autoincrement and autodecrement step (spec/40_addressing.md R142): 2 for words, for SP and for PC, else 1; the
deferred modes step by 2. -/
def Obligations.AutoStep : Prop :=
  ∀ (r : Reg) (sz : Size) (s : State),
    stepOf r sz = (if sz = .word ∨ r = 6 ∨ r = 7 then 2#16 else 1#16) ∧
    (∃ o t, resolve sz ⟨.autoInc, r⟩ s = .ok o t ∧ t.reg r = s.reg r + stepOf r sz) ∧
    (∃ o t, resolve sz ⟨.autoDec, r⟩ s = .ok o t ∧ t.reg r = s.reg r - stepOf r sz) ∧
    (∀ o t, resolve sz ⟨.autoIncDeferred, r⟩ s = .ok o t → t.reg r = s.reg r + 2#16) ∧
    (∀ o t, resolve sz ⟨.autoDecDeferred, r⟩ s = .ok o t → t.reg r = s.reg r - 2#16)

/-- The eight modes (spec/40_addressing.md R141), the stream reads through R7 (R144) and the order of the index fetch and
the register read (R145). Each read of the addressing register may leave the mark of log 1. -/
def Obligations.ResolverModes : Prop :=
  ∀ (r : Reg) (sz : Size) (s : State),
    resolve sz ⟨.register, r⟩ s = .ok (.reg r) s ∧
    resolve sz ⟨.deferred, r⟩ s = .ok (.mem (s.reg r)) (s.noteRead r) ∧
    resolve sz ⟨.autoInc, r⟩ s =
      .ok (if r = 7 then .stream (s.reg r) else .mem (s.reg r)) ((s.noteRead r).setReg r (s.reg r + stepOf r sz)) ∧
    (r ≠ 7 → resolve sz ⟨.autoIncDeferred, r⟩ s =
      (readWord (s.reg r) ((s.noteRead r).setReg r (s.reg r + 2#16))).bind fun p t => .ok (.mem p) t) ∧
    (r = 7 → resolve sz ⟨.autoIncDeferred, r⟩ s = (fetch s).bind fun p t => .ok (.mem p) t) ∧
    resolve sz ⟨.autoDec, r⟩ s =
      .ok (.mem (s.reg r - stepOf r sz)) ((s.noteRead r).setReg r (s.reg r - stepOf r sz)) ∧
    resolve sz ⟨.autoDecDeferred, r⟩ s =
      ((readWord (s.reg r - 2#16) ((s.noteRead r).setReg r (s.reg r - 2#16))).bind fun p t => .ok (.mem p) t) ∧
    resolve sz ⟨.indexed, r⟩ s = ((fetch s).bind fun d t => .ok (.mem (t.reg r + d)) (t.noteRead r)) ∧
    resolve sz ⟨.indexedDeferred, r⟩ s =
      ((fetch s).bind fun d t => (readWord (t.reg r + d) (t.noteRead r)).bind fun p u => .ok (.mem p) u)

/-- Operands named through R7, for an opcode word at A (pc = A + 2 after its fetch), on the reference bus: the operand and
pc after resolution (spec/40_addressing.md R150; spec/30_encoding.md R113). -/
def Obligations.PcOperandForms : Prop :=
  ∀ (a : Word) (sz : Size) (s : State), ReferenceBus s → s.pc = a + 2#16 →
    let word : Word → Word := fun x => s.mem.readWord (x &&& 0xFFFE#16)
    let gives : Mode → Operand → Word → Prop := fun m o pc' => ∃ t, resolve sz ⟨m, 7⟩ s = .ok o t ∧ t.pc = pc'
    gives .register (.reg 7) (a + 2#16) ∧
    gives .deferred (.mem (a + 2#16)) (a + 2#16) ∧
    gives .autoInc (.stream (a + 2#16)) (a + 4#16) ∧
    gives .autoIncDeferred (.mem (word (a + 2#16))) (a + 4#16) ∧
    gives .autoDec (.mem a) a ∧
    gives .autoDecDeferred (.mem (word a)) a ∧
    gives .indexed (.mem (a + 4#16 + word (a + 2#16))) (a + 4#16) ∧
    gives .indexedDeferred (.mem (word (a + 4#16 + word (a + 2#16)))) (a + 4#16)

/-- The immediate: its read is an aligned word read, a byte instruction takes the low byte, and a write to it is an
ordinary write (spec/40_addressing.md R144). Where the read fails, pc is the word's own address: the model's reading of
spec/60_exceptions.md R342 and C11 (DEDUCED, log 7). -/
def Obligations.ImmediateOperand : Prop :=
  ∀ (a v : Word) (b : Byte) (s : State),
    (∀ x t, readWord (a &&& 0xFFFE#16) s = .ok x t →
      readOpWord (.stream a) s = .ok x t ∧ readOpByte (.stream a) s = .ok (x.extractLsb' 0 8) t) ∧
    (∀ t, readWord (a &&& 0xFFFE#16) s = .err t →
      readOpWord (.stream a) s = .err (t.setPc a) ∧ readOpByte (.stream a) s = .err (t.setPc a)) ∧
    writeOpWord (.stream a) v s = writeWord a v s ∧ writeOpByte (.stream a) b s = writeByte a b s

/-- One register in both operands (the four examples of spec/40_addressing.md R148), for every value of R0, on the reference
bus and without a trace trap. -/
def Obligations.SameRegisterTwice : Prop :=
  ∀ (s : State), ReferenceBus s → s.tstart = false →
    (∃ t, exec (.mov ⟨.register, 0⟩ ⟨.autoInc, 0⟩) s = .next t ∧ t.reg 0 = s.reg 0 + 2#16 ∧
      readWord (s.reg 0) t = .ok (s.reg 0) t) ∧
    (∃ t v, readWord (s.reg 0) s = .ok v s ∧ exec (.mov ⟨.autoInc, 0⟩ ⟨.register, 0⟩) s = .next t ∧ t.reg 0 = v) ∧
    (∃ t v, readWord (s.reg 0) s = .ok v s ∧ exec (.add ⟨.autoInc, 0⟩ ⟨.register, 0⟩) s = .next t ∧
      t.reg 0 = s.reg 0 + 2#16 + v) ∧
    (∃ t v, readWord (s.reg 0 - 2#16) s = .ok v s ∧ exec (.mov ⟨.autoDec, 0⟩ ⟨.autoDec, 0⟩) s = .next t ∧
      t.reg 0 = s.reg 0 - 4#16 ∧ readWord (s.reg 0 - 4#16) t = .ok v t)

/-! ## Traps -/

/-- TrapEntry (spec/60_exceptions.md R360). On any platform, where its four bus calls answer: the PSW and then pc are pushed,
pc and the PSW come from the vector's two words, the other registers stay and the wait ends. On the reference bus they
answer, and the two stack words then hold what was pushed. -/
def Obligations.TrapEntryEffect : Prop :=
  (∀ (v newpc newps : Word) (s s1 s2 s3 s4 : State),
    writeWord (s.sp - 2#16) (s.psw.setWidth 16) (s.setSp (s.sp - 2#16)) = .ok () s1 →
    writeWord (s.sp - 4#16) s.pc (s1.setSp (s.sp - 4#16)) = .ok () s2 →
    readWord v s2 = .ok newpc s3 → readWord (v + 2#16) s3 = .ok newps s4 →
    let t := trapEntry v s
    t = { s4.setPc newpc with psw := newps.extractLsb' 0 8, waiting := false } ∧
    t.sp = s.sp - 4#16 ∧ t.pc = newpc ∧ t.mem = s2.mem ∧ t.halted = s.halted ∧ t.doubleFault = s.doubleFault ∧
    ∀ r : Reg, r ≠ SP → r ≠ PC → t.reg r = s.reg r) ∧
  ∀ (v : Word) (s : State), ReferenceBus s →
    let m := (s.mem.writeWord ((s.sp - 2#16) &&& 0xFFFE#16) (s.psw.setWidth 16)).writeWord
      ((s.sp - 4#16) &&& 0xFFFE#16) s.pc
    let t := trapEntry v s
    t.mem = m ∧ t.sp = s.sp - 4#16 ∧ t.pc = m.readWord (v &&& 0xFFFE#16) ∧
    t.psw = (m.readWord ((v + 2#16) &&& 0xFFFE#16)).extractLsb' 0 8 ∧ t.waiting = false ∧ t.halted = s.halted ∧
    t.doubleFault = s.doubleFault ∧ (∀ r : Reg, r ≠ SP → r ≠ PC → t.reg r = s.reg r) ∧
    m.readWord ((s.sp - 4#16) &&& 0xFFFE#16) = s.pc ∧ m.readWord ((s.sp - 2#16) &&& 0xFFFE#16) = s.psw.setWidth 16

/-- What a trap entry leaves alone on any platform, double fault included: every register but SP and PC, PPC, the latches,
the lines, the parameters, and every byte but those of the two stack words (spec/60_exceptions.md R360, R341;
spec/10_state.md R44). -/
def Obligations.TrapEntryFrame : Prop :=
  ∀ (v : Word) (s : State),
    let t := trapEntry v s
    KeepsRegs s t [SP, PC] ∧ t.ppc = s.ppc ∧ t.tstart = s.tstart ∧ t.pfail = s.pfail ∧ t.resetFault = s.resetFault ∧
    t.unwrittenRead = s.unwrittenRead ∧ t.lines = s.lines ∧ t.params = s.params ∧
    (NoDevice s → t.events = s.events) ∧
    ∀ x : Nat, x ∉ storedBytes s.params .word (.mem (s.sp - 2#16)) →
      x ∉ storedBytes s.params .word (.mem (s.sp - 4#16)) → t.mem.read x = s.mem.read x

/-- A bus error inside TrapEntry halts the core with the mark DoubleFault, and what was done stays
(spec/60_exceptions.md R364): at the first push, at the second, and at either vector read. -/
def Obligations.DoubleFaultHalts : Prop :=
  ∀ (v : Word) (s : State),
    (∀ u, push (s.psw.setWidth 16) s = .err u → trapEntry v s = { u with halted := true, doubleFault := true }) ∧
    (∀ s1 u, push (s.psw.setWidth 16) s = .ok () s1 → push s.pc s1 = .err u →
      trapEntry v s = { u with halted := true, doubleFault := true }) ∧
    (∀ s1 s2 u, push (s.psw.setWidth 16) s = .ok () s1 → push s.pc s1 = .ok () s2 → readWord v s2 = .err u →
      trapEntry v s = { u with halted := true, doubleFault := true }) ∧
    (∀ s1 s2 w s3 u, push (s.psw.setWidth 16) s = .ok () s1 → push s.pc s1 = .ok () s2 → readWord v s2 = .ok w s3 →
      readWord (v + 2#16) s3 = .err u → trapEntry v s = { u with halted := true, doubleFault := true })

/-- IllegalInstruction: a word of an illegal range traps through 0x0008 right after its opcode fetch, and JMP and JSR in
register mode trap before anything else (spec/60_exceptions.md R344; spec/30_encoding.md R116, R117). -/
def Obligations.IllegalInstructionTraps : Prop :=
  (∀ (s t : State) (w : Word), boundary s = .instruction → fetch (beginInstr s) = .ok w t → isIllegalWord w = true →
    step s = .next (trapEntry 0x0008#16 t)) ∧
  (∀ (w : Word) (s : State), exec (.illegal w) s = .next (trapEntry 0x0008#16 s)) ∧
  (∀ (r : Reg) (s : State), exec (.jmp ⟨.register, r⟩) s = .next (trapEntry 0x0008#16 s)) ∧
  ∀ (l r : Reg) (s : State), exec (.jsr l ⟨.register, r⟩) s = .next (trapEntry 0x0008#16 s)

/-- BPT, IOT, EMT and TRAP: encodings and vectors, with the pc that follows the instruction; the code plays no part and no
trace trap follows (spec/44_system.md R305 to R308). -/
def Obligations.TrapInstructions : Prop :=
  decode 0x0003#16 = .bpt ∧ decode 0x0004#16 = .iot ∧
  (∀ c : BitVec 8, decode (0x88#8 ++ c) = .emt c ∧ decode (0x89#8 ++ c) = .trap c) ∧
  ∀ (c : BitVec 8) (s : State),
    exec .bpt s = .next (trapEntry 0x000C#16 s) ∧ exec .iot s = .next (trapEntry 0x0010#16 s) ∧
    exec (.emt c) s = .next (trapEntry 0x0018#16 s) ∧ exec (.trap c) s = .next (trapEntry 0x001C#16 s)

/-- RTI and RTT: pc and then the whole PSW are popped; a failed pop is BusError; RTI is traced when it began with T = 1 or
restored T = 1, RTT never; on the reference bus both complete (spec/44_system.md R303, R304;
spec/60_exceptions.md R372). -/
def Obligations.ReturnInstructions : Prop :=
  decode 0x0002#16 = .rti ∧ decode 0x0006#16 = .rtt ∧
  ∀ s : State,
    (∀ u, pop s = .err u → BusFault .rti s u ∧ BusFault .rtt s u) ∧
    (∀ a s1 u, pop s = .ok a s1 → pop (s1.setPc a) = .err u → BusFault .rti s u ∧ BusFault .rtt s u) ∧
    (∀ a s1 p s2, pop s = .ok a s1 → pop (s1.setPc a) = .ok p s2 →
      exec .rtt s = .next { s2 with psw := p.extractLsb' 0 8 } ∧
      exec .rti s = .next (if s.tstart || p.getLsbD 4 then trapEntry 0x000C#16 { s2 with psw := p.extractLsb' 0 8 }
        else { s2 with psw := p.extractLsb' 0 8 })) ∧
    (ReferenceBus s → ∃ t, t.pc = s.mem.readWord (s.sp &&& 0xFFFE#16) ∧
      t.psw = (s.mem.readWord ((s.sp + 2#16) &&& 0xFFFE#16)).extractLsb' 0 8 ∧ t.sp = s.sp + 4#16 ∧ t.mem = s.mem ∧
      exec .rtt s = .next t ∧
      exec .rti s = .next (if s.tstart || t.psw.getLsbD 4 then trapEntry 0x000C#16 t else t))

/-- The round trip: after a trap entry, in any later state that has SP where entry left it and the two stacked words as
entry stored them, RTT, and RTI but for its trace trap, restore the exact pc, PSW and SP from before the entry
(spec/60_exceptions.md R365). -/
def Obligations.ReturnRestoresExactly : Prop :=
  ∀ (v : Word) (s h : State), ReferenceBus s → ReferenceBus h →
    h.sp = (trapEntry v s).sp →
    readWord h.sp h = .ok s.pc h → readWord (h.sp + 2#16) h = .ok (s.psw.setWidth 16) h →
    (∃ e, readWord (trapEntry v s).sp (trapEntry v s) = .ok s.pc e) ∧
    (∃ e, readWord ((trapEntry v s).sp + 2#16) (trapEntry v s) = .ok (s.psw.setWidth 16) e) ∧
    ∃ t, exec .rtt h = .next t ∧ t.pc = s.pc ∧ t.psw = s.psw ∧ t.sp = s.sp ∧
      (∀ r : Reg, r ≠ SP → r ≠ PC → t.reg r = h.reg r) ∧ t.mem = h.mem ∧
      exec .rti h = .next (if h.tstart || s.psw.getLsbD 4 then trapEntry 0x000C#16 t else t)

/-! ## Boundaries, interrupts, reset -/

/-- The order of a core step (spec/60_exceptions.md R370): halted, power-fail, an interrupt, the held wait, an instruction.
That a halted core answers a fault and a held wait an unchanged state is the model's choice (log 9, log 10). -/
def Obligations.StepOrder : Prop :=
  ∀ s : State,
    (s.halted = true → ∃ f, step s = .fault f) ∧
    (s.halted = false → s.pfail = true → step s = .next (trapEntry 0x0014#16 { s with pfail := false })) ∧
    (∀ n, s.halted = false → s.pfail = false → bestLine s = some n →
      step s = .next (trapEntry s.lines[n].vector { s with ppc := s.pc })) ∧
    (s.halted = false → s.pfail = false → bestLine s = none → s.waiting = true → step s = .next s) ∧
    (s.halted = false → s.pfail = false → bestLine s = none → s.waiting = false →
      (∀ w t, fetch { s with ppc := s.pc, tstart := s.psw.getLsbD 4 } = .ok w t → step s = exec (decode w) t) ∧
      (∀ t, fetch { s with ppc := s.pc, tstart := s.psw.getLsbD 4 } = .err t →
        step s = .next (trapEntry 0x0004#16 t)))

/-- Which line is taken: an active line whose priority is strictly above PSW.PRI, the one of greatest priority, and the
highest line number among equals; with PRI 7 none (spec/60_exceptions.md R357, R359). -/
def Obligations.LineSelection : Prop :=
  ∀ s : State,
    let level : Fin 4 → Nat := fun n => s.params.linePriority[n].toNat
    let asks : Fin 4 → Prop := fun n => s.lines[n].active = true ∧ s.psw.toNat / 32 < level n
    (∀ n, bestLine s = some n ↔ asks n ∧ ∀ m, asks m → level m < level n ∨ (level m = level n ∧ m ≤ n)) ∧
    (bestLine s = none ↔ ∀ n, ¬ asks n) ∧
    (s.psw.toNat / 32 = 7 → bestLine s = none)

/-- Power-fail is taken at the next boundary of a core that is not halted, whatever PRI holds, and clears the request;
otherwise a qualifying line is accepted: PPC takes pc, then TrapEntry of the line's vector
(spec/60_exceptions.md R347, R361). -/
def Obligations.AsynchronousAcceptance : Prop :=
  ∀ s : State, s.halted = false →
    (s.pfail = true → ∃ t, step s = .next t ∧ t = trapEntry 0x0014#16 { s with pfail := false } ∧ t.pfail = false ∧
      t.ppc = s.ppc) ∧
    (∀ n, s.pfail = false → bestLine s = some n → ∃ t, step s = .next t ∧
      t = trapEntry s.lines[n].vector { s with ppc := s.pc } ∧ t.ppc = s.pc ∧ t.lines = s.lines)

/-- Reset on any platform where the reads of its two words answer: pc and SP take the words, the PSW is the host's, the
latches are 0, R0 to R5 unwritten; memory, lines, parameters and fault marks stay, and the history is that of the reads
(spec/70_reset_and_hazards.md R390, R392). With no platform region both answer from memory, under either ODD_WORD_POLICY
(spec/20_memory.md R88). That the mark UnwrittenRegister stays too is the model's choice (log 1). -/
def Obligations.HostResetEffect : Prop :=
  (∀ (p w x : Word) (s u v : State), readWord 0x0000#16 s = .ok w u → readWord 0x0002#16 u = .ok x v →
    let t := hostReset p s
    t.pc = w ∧ t.sp = x ∧ t.ppc = w ∧ t.psw = p.extractLsb' 0 8 ∧
    t.waiting = false ∧ t.halted = false ∧ t.tstart = false ∧ t.pfail = false ∧
    (∀ r : Reg, r ≠ SP → r ≠ PC → t.written[r] = false) ∧ t.written[SP] = true ∧ t.written[PC] = true ∧
    t.mem = s.mem ∧ t.lines = s.lines ∧ t.params = s.params ∧ t.events = v.events ∧
    t.doubleFault = s.doubleFault ∧ t.resetFault = s.resetFault ∧ t.unwrittenRead = s.unwrittenRead) ∧
  ∀ s : State, s.params.platform = [] →
    readWord 0x0000#16 s = .ok (s.mem.readWord 0x0000#16) s ∧ readWord 0x0002#16 s = .ok (s.mem.readWord 0x0002#16) s

/-- A bus error on either reset word, whether an absent region or a device reports it, halts the core with the mark
ResetFault; pc, SP and PPC keep their values, since the sequence writes them after both reads, and the history is that of
the reads (spec/70_reset_and_hazards.md R391, R390). Which calls report an error is the model's platform (log 5, log 6). -/
def Obligations.ResetFaultHalts : Prop :=
  ∀ (p : Word) (s : State),
    let t := hostReset p s
    let failed : State → Prop := fun u =>
      t.halted = true ∧ t.resetFault = true ∧ t.pc = s.pc ∧ t.sp = s.sp ∧ t.ppc = s.ppc ∧ t.mem = s.mem ∧
      t.events = u.events
    (∀ u, readWord 0x0000#16 s = .err u → failed u) ∧
    (∀ w u v, readWord 0x0000#16 s = .ok w u → readWord 0x0002#16 u = .err v → failed v)

/-- `State.reset` is what Reset leaves of it, and the values the spec states hold in it: PC and SP are the words at 0x0000
and 0x0002, PPC the new PC, the latches 0, the default parameters (spec/10_state.md R50; spec/00_scope.md R8). The PSW is
the model's INIT_PSW (log 2), and R0 to R5, memory, lines and marks are the model's choice (log 1, log 3, log 14). -/
def Obligations.ResetState : Prop :=
  let s := State.reset
  hostReset (Config.initPsw.setWidth 16) s = s ∧
  s.pc = s.mem.readWord 0x0000#16 ∧ s.sp = s.mem.readWord 0x0002#16 ∧ s.ppc = s.pc ∧
  s.waiting = false ∧ s.halted = false ∧ s.tstart = false ∧ s.pfail = false ∧
  s.params.oddWord = .align ∧ s.params.linePriority = #v[4, 5, 6, 7] ∧ s.params.haltAction = .stop ∧
  s.params.mtpsWritesPriority = false ∧ s.params.sbcVQuirk = false

/-! ## Instructions: results, every bus error, and completion -/

/-- MOV and MOVB; MOVB sign-extends into a register (spec/41_double_operand.md R181). -/
def Obligations.MoveInstructions : Prop :=
  Moves wordAccess 0x1000#16 .mov (fun k sv => { n := sv.msb, z := sv == 0#16, v := false, c := k.c }) ∧
  Moves signedByteAccess 0x9000#16 .movb (fun k sv => { n := sv.msb, z := sv == 0#8, v := false, c := k.c }) ∧
  SignExtends

/-- CMP, CMPB, BIT and BITB (spec/41_double_operand.md R182, R183). -/
def Obligations.CompareAndBitTest : Prop :=
  Compares wordAccess 0x2000#16 .cmp (fun _ sv dv =>
    let t := sv - dv
    { n := t.getLsbD 15, z := t == 0#16, v := sv.getLsbD 15 != dv.getLsbD 15 && t.getLsbD 15 == dv.getLsbD 15,
      c := decide (sv.toNat < dv.toNat) }) ∧
  Compares byteAccess 0xA000#16 .cmpb (fun _ sv dv =>
    let t := sv - dv
    { n := t.getLsbD 7, z := t == 0#8, v := sv.getLsbD 7 != dv.getLsbD 7 && t.getLsbD 7 == dv.getLsbD 7,
      c := decide (sv.toNat < dv.toNat) }) ∧
  Compares wordAccess 0x3000#16 .bit (fun k sv dv => logicFlags k (sv &&& dv)) ∧
  Compares byteAccess 0xB000#16 .bitb (fun k sv dv => logicFlags k (sv &&& dv))

/-- BIC, BICB, BIS, BISB and XOR; XOR's register is read, and may leave the mark of log 1, before its destination is resolved
(spec/41_double_operand.md R184, R185, R188). -/
def Obligations.BitClearSetXor : Prop :=
  Combines wordAccess 0x4000#16 .bic (fun sv dv => ~~~sv &&& dv) (fun k sv dv => logicFlags k (~~~sv &&& dv)) ∧
  Combines byteAccess 0xC000#16 .bicb (fun sv dv => ~~~sv &&& dv) (fun k sv dv => logicFlags k (~~~sv &&& dv)) ∧
  Combines wordAccess 0x5000#16 .bis (fun sv dv => sv ||| dv) (fun k sv dv => logicFlags k (sv ||| dv)) ∧
  Combines byteAccess 0xD000#16 .bisb (fun sv dv => sv ||| dv) (fun k sv dv => logicFlags k (sv ||| dv)) ∧
  ∀ (r : Reg) (d : Opnd) (s : State),
    let res : Word → Word := fun dv => s.reg r ^^^ dv
    let flags : Word → Cc := fun dv => logicFlags (ccOf s.psw) (s.reg r ^^^ dv)
    encode (.xor r d) = 0x7800#16 + 64#16 * BitVec.ofNat 16 r.val + fieldWord d ∧
    ModifyClauses wordAccess (.xor r d) s (s.noteRead r) d res flags ∧
    (ReferenceBus s → ModifyCompletes wordAccess (.xor r d) s (s.noteRead r) d res flags)

/-- ADD and SUB (spec/41_double_operand.md R186, R187): the 17-bit sum, and dst − src with its borrow. -/
def Obligations.AddSubtract : Prop :=
  Combines wordAccess 0x6000#16 .add (fun sv dv => BitVec.ofNat 16 (sv.toNat + dv.toNat)) (fun _ sv dv =>
    let t := BitVec.ofNat 16 (sv.toNat + dv.toNat)
    { n := t.getLsbD 15, z := t == 0#16, v := sv.getLsbD 15 == dv.getLsbD 15 && t.getLsbD 15 != sv.getLsbD 15,
      c := decide (sv.toNat + dv.toNat ≥ 65536) }) ∧
  Combines wordAccess 0xE000#16 .sub (fun sv dv => dv - sv) (fun _ sv dv =>
    let t := dv - sv
    { n := t.getLsbD 15, z := t == 0#16, v := sv.getLsbD 15 != dv.getLsbD 15 && t.getLsbD 15 == sv.getLsbD 15,
      c := decide (dv.toNat < sv.toNat) })

/-- What V and C of ADD, SUB and CMP mean: V is set exactly when the signed result does not fit, C exactly on an unsigned
carry or borrow (spec/41_double_operand.md R182, R186, R187; "signed overflow" is the source's word for V). -/
def Obligations.OverflowMeansDoesNotFit : Prop :=
  ∀ (k : Cc) (sv dv : Word),
    (addOp sv k dv).2.v = decide (sv.toInt + dv.toInt ≠ (addOp sv k dv).1.toInt) ∧
    (addOp sv k dv).2.c = decide (sv.toNat + dv.toNat ≠ (addOp sv k dv).1.toNat) ∧
    (subOp sv k dv).2.v = decide (dv.toInt - sv.toInt ≠ (subOp sv k dv).1.toInt) ∧
    (subOp sv k dv).2.c = decide ((dv.toNat : Int) - sv.toNat ≠ (subOp sv k dv).1.toNat) ∧
    (cmpFlags sv dv).v = decide (sv.toInt - dv.toInt ≠ (sv - dv).toInt) ∧
    (cmpFlags sv dv).c = decide (sv.toNat < dv.toNat)

/-- CLR, CLRB, SXT and MFPS, which do not read their destination; MFPS sign-extends into a register
(spec/42_single_operand.md R221, R251, R261). -/
def Obligations.ClearExtendStatus : Prop :=
  Stores wordAccess 0x0A00#16 .clr (fun _ => 0#16) (fun _ => { n := false, z := true, v := false, c := false }) ∧
  Stores byteAccess 0x8A00#16 .clrb (fun _ => 0#8) (fun _ => { n := false, z := true, v := false, c := false }) ∧
  Stores wordAccess 0x0DC0#16 .sxt (fun s => if s.psw.getLsbD 3 then 0xFFFF#16 else 0x0000#16)
    (fun s => { n := s.psw.getLsbD 3, z := !s.psw.getLsbD 3, v := false, c := s.psw.getLsbD 0 }) ∧
  Stores signedByteAccess 0x8DC0#16 .mfps (fun s => s.psw)
    (fun s => { n := s.psw.getLsbD 7, z := s.psw == 0#8, v := false, c := s.psw.getLsbD 0 }) ∧
  SignExtends

/-- COM, INC and DEC and their byte forms (spec/42_single_operand.md R222, R223, R224). -/
def Obligations.ComplementIncrementDecrement : Prop :=
  Modifies wordAccess 0x0A40#16 .com (fun _ dv => ~~~dv)
    (fun _ dv => { n := (~~~dv).msb, z := ~~~dv == 0#16, v := false, c := true }) ∧
  Modifies byteAccess 0x8A40#16 .comb (fun _ dv => ~~~dv)
    (fun _ dv => { n := (~~~dv).msb, z := ~~~dv == 0#8, v := false, c := true }) ∧
  Modifies wordAccess 0x0A80#16 .inc (fun _ dv => dv + 1#16)
    (fun s dv => { n := (dv + 1#16).msb, z := dv + 1#16 == 0#16, v := dv == 0x7FFF#16, c := s.psw.getLsbD 0 }) ∧
  Modifies byteAccess 0x8A80#16 .incb (fun _ dv => dv + 1#8)
    (fun s dv => { n := (dv + 1#8).msb, z := dv + 1#8 == 0#8, v := dv == 0x7F#8, c := s.psw.getLsbD 0 }) ∧
  Modifies wordAccess 0x0AC0#16 .dec (fun _ dv => dv - 1#16)
    (fun s dv => { n := (dv - 1#16).msb, z := dv - 1#16 == 0#16, v := dv == 0x8000#16, c := s.psw.getLsbD 0 }) ∧
  Modifies byteAccess 0x8AC0#16 .decb (fun _ dv => dv - 1#8)
    (fun s dv => { n := (dv - 1#8).msb, z := dv - 1#8 == 0#8, v := dv == 0x80#8, c := s.psw.getLsbD 0 })

/-- NEG, ADC and SBC and their byte forms; SBC's V for both values of SBC_V_QUIRK
(spec/42_single_operand.md R225, R226, R227, R232). -/
def Obligations.NegateAndCarry : Prop :=
  Modifies wordAccess 0x0B00#16 .neg (fun _ dv => 0#16 - dv)
    (fun _ dv => { n := (0#16 - dv).msb, z := 0#16 - dv == 0#16, v := 0#16 - dv == 0x8000#16, c := 0#16 - dv != 0#16 }) ∧
  Modifies byteAccess 0x8B00#16 .negb (fun _ dv => 0#8 - dv)
    (fun _ dv => { n := (0#8 - dv).msb, z := 0#8 - dv == 0#8, v := 0#8 - dv == 0x80#8, c := 0#8 - dv != 0#8 }) ∧
  Modifies wordAccess 0x0B40#16 .adc (fun s dv => dv + (if s.psw.getLsbD 0 then 1#16 else 0#16))
    (fun s dv =>
      let t := dv + (if s.psw.getLsbD 0 then 1#16 else 0#16)
      { n := t.msb, z := t == 0#16, v := dv == 0x7FFF#16 && s.psw.getLsbD 0, c := dv == 0xFFFF#16 && s.psw.getLsbD 0 }) ∧
  Modifies byteAccess 0x8B40#16 .adcb (fun s dv => dv + (if s.psw.getLsbD 0 then 1#8 else 0#8))
    (fun s dv =>
      let t := dv + (if s.psw.getLsbD 0 then 1#8 else 0#8)
      { n := t.msb, z := t == 0#8, v := dv == 0x7F#8 && s.psw.getLsbD 0, c := dv == 0xFF#8 && s.psw.getLsbD 0 }) ∧
  Modifies wordAccess 0x0B80#16 .sbc (fun s dv => dv - (if s.psw.getLsbD 0 then 1#16 else 0#16))
    (fun s dv =>
      let t := dv - (if s.psw.getLsbD 0 then 1#16 else 0#16)
      { n := t.msb, z := t == 0#16, v := dv == 0x8000#16 && (s.psw.getLsbD 0 || s.params.sbcVQuirk),
        c := dv == 0#16 && s.psw.getLsbD 0 }) ∧
  Modifies byteAccess 0x8B80#16 .sbcb (fun s dv => dv - (if s.psw.getLsbD 0 then 1#8 else 0#8))
    (fun s dv =>
      let t := dv - (if s.psw.getLsbD 0 then 1#8 else 0#8)
      { n := t.msb, z := t == 0#8, v := dv == 0x80#8 && (s.psw.getLsbD 0 || s.params.sbcVQuirk),
        c := dv == 0#8 && s.psw.getLsbD 0 })

/-- TST and TSTB, which never write the operand (spec/42_single_operand.md R228). -/
def Obligations.TestInstructions : Prop :=
  Probes wordAccess 0x0BC0#16 .tst (fun _ dv => { n := dv.getLsbD 15, z := dv == 0#16, v := false, c := false }) ∧
  Probes byteAccess 0x8BC0#16 .tstb (fun _ dv => { n := dv.getLsbD 7, z := dv == 0#8, v := false, c := false })

/-- The rotates and shifts and their byte forms, and SWAB, whose flags are those of the new low byte
(spec/42_single_operand.md R240 to R243, R250). -/
def Obligations.RotatesShiftsSwap : Prop :=
  let ror16 : Bool → Word → Word := fun c dv => BitVec.ofBool c ++ dv.extractLsb' 1 15
  let ror8 : Bool → Byte → Byte := fun c dv => BitVec.ofBool c ++ dv.extractLsb' 1 7
  let rol16 : Bool → Word → Word := fun c dv => dv.extractLsb' 0 15 ++ BitVec.ofBool c
  let rol8 : Bool → Byte → Byte := fun c dv => dv.extractLsb' 0 7 ++ BitVec.ofBool c
  Modifies wordAccess 0x0C00#16 .ror (fun s dv => ror16 (s.psw.getLsbD 0) dv)
    (fun s dv => rotateFlags (ror16 (s.psw.getLsbD 0) dv) (dv.getLsbD 0)) ∧
  Modifies byteAccess 0x8C00#16 .rorb (fun s dv => ror8 (s.psw.getLsbD 0) dv)
    (fun s dv => rotateFlags (ror8 (s.psw.getLsbD 0) dv) (dv.getLsbD 0)) ∧
  Modifies wordAccess 0x0C40#16 .rol (fun s dv => rol16 (s.psw.getLsbD 0) dv)
    (fun s dv => rotateFlags (rol16 (s.psw.getLsbD 0) dv) (dv.getLsbD 15)) ∧
  Modifies byteAccess 0x8C40#16 .rolb (fun s dv => rol8 (s.psw.getLsbD 0) dv)
    (fun s dv => rotateFlags (rol8 (s.psw.getLsbD 0) dv) (dv.getLsbD 7)) ∧
  Modifies wordAccess 0x0C80#16 .asr (fun _ dv => ror16 (dv.getLsbD 15) dv)
    (fun _ dv => rotateFlags (ror16 (dv.getLsbD 15) dv) (dv.getLsbD 0)) ∧
  Modifies byteAccess 0x8C80#16 .asrb (fun _ dv => ror8 (dv.getLsbD 7) dv)
    (fun _ dv => rotateFlags (ror8 (dv.getLsbD 7) dv) (dv.getLsbD 0)) ∧
  Modifies wordAccess 0x0CC0#16 .asl (fun _ dv => rol16 false dv)
    (fun _ dv => rotateFlags (rol16 false dv) (dv.getLsbD 15)) ∧
  Modifies byteAccess 0x8CC0#16 .aslb (fun _ dv => rol8 false dv)
    (fun _ dv => rotateFlags (rol8 false dv) (dv.getLsbD 7)) ∧
  Modifies wordAccess 0x00C0#16 .swab (fun _ dv => dv.extractLsb' 0 8 ++ dv.extractLsb' 8 8)
    (fun _ dv => { n := dv.getLsbD 15, z := dv.extractLsb' 8 8 == 0#8, v := false, c := false })

/-- MTPS: N, Z, V, C from the byte; PRI only under MTPS_WRITES_PRIORITY; T never; every bus error; completion on the
reference bus (spec/42_single_operand.md R260). -/
def Obligations.MoveToStatus : Prop :=
  ∀ (src : Opnd) (s : State),
    let new : Byte → Byte := fun sv =>
      ((if s.params.mtpsWritesPriority then sv else s.psw) &&& 0xE0#8) ||| (s.psw &&& 0x10#8) ||| (sv &&& 0x0F#8)
    encode (.mtps src) = 0x8D00#16 + fieldWord src ∧
    (∀ u, loadOp byteAccess src s = .err u → BusFault (.mtps src) s u) ∧
    (∀ sv t, loadOp byteAccess src s = .ok sv t → exec (.mtps src) s = .next (finished s { t with psw := new sv })) ∧
    (ReferenceBus s → ∃ sv t, loadOp byteAccess src s = .ok sv t ∧
      exec (.mtps src) s = .next (finished s { t with psw := new sv }))

/-- BR, the branches on Z, the signed branches and the branches on N (spec/43_control.md R271 to R280). -/
def Obligations.SignedBranches : Prop :=
  Branches 0x01#8 .br (fun _ => true) ∧
  Branches 0x02#8 .bne (fun k => k.z == false) ∧
  Branches 0x03#8 .beq (fun k => k.z == true) ∧
  Branches 0x04#8 .bge (fun k => (k.n ^^ k.v) == false) ∧
  Branches 0x05#8 .blt (fun k => (k.n ^^ k.v) == true) ∧
  Branches 0x06#8 .bgt (fun k => (k.z || (k.n ^^ k.v)) == false) ∧
  Branches 0x07#8 .ble (fun k => (k.z || (k.n ^^ k.v)) == true) ∧
  Branches 0x80#8 .bpl (fun k => k.n == false) ∧
  Branches 0x81#8 .bmi (fun k => k.n == true)

/-- The unsigned branches and the branches on V and C (spec/43_control.md R281 to R286). -/
def Obligations.UnsignedBranches : Prop :=
  Branches 0x82#8 .bhi (fun k => k.c == false && k.z == false) ∧
  Branches 0x83#8 .blos (fun k => (k.c || k.z) == true) ∧
  Branches 0x84#8 .bvc (fun k => k.v == false) ∧
  Branches 0x85#8 .bvs (fun k => k.v == true) ∧
  Branches 0x86#8 .bcc (fun k => k.c == false) ∧
  Branches 0x87#8 .bcs (fun k => k.c == true)

/-- JMP and JSR: illegal in register mode, otherwise the address of the resolved operand, which is not read; JSR pushes the
linkage register as it is after resolution, gives it pc, and jumps; each failing bus call is BusError, with SP already
stepped when the push fails; completion on the reference bus (spec/43_control.md R287, R288). The read of the linkage
register may leave the mark of log 1. -/
def Obligations.JumpAndCall : Prop :=
  ∀ (r : Reg) (d : Opnd) (s : State),
    encode (.jmp d) = 0x0040#16 + fieldWord d ∧
    encode (.jsr r d) = 0x0800#16 + 64#16 * BitVec.ofNat 16 r.val + fieldWord d ∧
    (d.mode = .register → exec (.jmp d) s = .next (trapEntry 0x0008#16 s) ∧
      exec (.jsr r d) s = .next (trapEntry 0x0008#16 s)) ∧
    (∀ u, resolve .word d s = .err u → BusFault (.jmp d) s u ∧ BusFault (.jsr r d) s u) ∧
    (∀ o a t, resolve .word d s = .ok o t → o.address? = some a →
      exec (.jmp d) s = .next (finished s (t.setPc a)) ∧
      (∀ u, writeWord (t.sp - 2#16) (t.reg r) ((t.noteRead r).setSp (t.sp - 2#16)) = .err u →
        BusFault (.jsr r d) s u ∧ u.sp = t.sp - 2#16) ∧
      (∀ u, writeWord (t.sp - 2#16) (t.reg r) ((t.noteRead r).setSp (t.sp - 2#16)) = .ok () u →
        exec (.jsr r d) s = .next (finished s ((u.setReg r u.pc).setPc a)))) ∧
    (d.mode ≠ .register → ReferenceBus s → ∃ o a t u, resolve .word d s = .ok o t ∧ o.address? = some a ∧
      writeWord (t.sp - 2#16) (t.reg r) ((t.noteRead r).setSp (t.sp - 2#16)) = .ok () u ∧
      exec (.jmp d) s = .next (finished s (t.setPc a)) ∧
      exec (.jsr r d) s = .next (finished s ((u.setReg r u.pc).setPc a)))

/-- RTS and SOB; RTS has written pc before its pop can fail; completion of RTS on the reference bus, of SOB always
(spec/43_control.md R289, R290). The read of the register may leave the mark of log 1. -/
def Obligations.ReturnAndLoop : Prop :=
  ∀ (r : Reg) (off : BitVec 6) (s : State),
    let jumped := (s.noteRead r).setPc (s.reg r)
    let counted := (s.noteRead r).setReg r (s.reg r - 1#16)
    encode (.rts r) = 0x0080#16 + BitVec.ofNat 16 r.val ∧
    encode (.sob r off) = 0x7E00#16 + 64#16 * BitVec.ofNat 16 r.val + off.setWidth 16 ∧
    (∀ u, readWord jumped.sp jumped = .err u → BusFault (.rts r) s u ∧ u.pc = s.reg r) ∧
    (∀ v t, readWord jumped.sp jumped = .ok v t →
      exec (.rts r) s = .next (finished s ((t.setSp (t.sp + 2#16)).setReg r v))) ∧
    (ReferenceBus s → exec (.rts r) s = .next (finished s
      ((jumped.setSp (s.sp + 2#16)).setReg r (s.mem.readWord (s.sp &&& 0xFFFE#16))))) ∧
    exec (.sob r off) s = .next (finished s
      (if s.reg r - 1#16 ≠ 0#16 then counted.setPc (counted.pc - 2#16 * off.setWidth 16) else counted))

/-- HALT by HALT_ACTION, without a trace trap, and no step of a halted core; WAIT; RESET, one ResetOut event and nothing
else (spec/44_system.md R300, R301, R302). -/
def Obligations.HaltWaitReset : Prop :=
  decode 0x0000#16 = .halt ∧ decode 0x0001#16 = .wait ∧ decode 0x0005#16 = .reset ∧
  ∀ s : State,
    (s.params.haltAction = .stop → exec .halt s = .next { s with halted := true } ∧
      ∀ t, exec .halt s = .next t → ∃ f, step t = .fault f) ∧
    (s.params.haltAction = .trap4 → exec .halt s = .next (trapEntry 0x0004#16 s)) ∧
    exec .wait s = .next (finished s { s with waiting := true }) ∧
    exec .reset s = .next (finished s { s with events := .resetOut :: s.events })

/-- The clear and set groups: each masked flag becomes 0 or 1, the others, T and PRI stay; mask 0 changes nothing
(spec/44_system.md R310, R311). -/
def Obligations.ConditionCodeOperators : Prop :=
  ∀ (m : BitVec 4) (s : State),
    decode (0x00A#12 ++ m) = .clcc m ∧ decode (0x00B#12 ++ m) = .secc m ∧
    exec (.clcc m) s = .next (finished s { s with psw := s.psw &&& ~~~(m.setWidth 8) }) ∧
    exec (.secc m) s = .next (finished s { s with psw := s.psw ||| m.setWidth 8 })

/-! ## Frames -/

/-- What a single-operand instruction that writes its destination leaves alone. The mask names the PSW bits it leaves: T and
PRI, and C (bit 0) or N (bit 3) where the rule says "unaffected" (spec/42_single_operand.md, spec/41_double_operand.md
R188). -/
def Obligations.SingleOperandFrame : Prop :=
  (∀ mk ∈ [Instr.clr, .com, .neg, .adc, .sbc, .ror, .rol, .asr, .asl, .swab], WritingFrame .word 0xF0#8 mk) ∧
  (∀ mk ∈ [Instr.inc, .dec], WritingFrame .word 0xF1#8 mk) ∧
  WritingFrame .word 0xF9#8 .sxt ∧
  (∀ r : Reg, WritingFrame .word 0xF1#8 (.xor r)) ∧
  (∀ mk ∈ [Instr.clrb, .comb, .negb, .adcb, .sbcb, .rorb, .rolb, .asrb, .aslb], WritingFrame .byte 0xF0#8 mk) ∧
  (∀ mk ∈ [Instr.incb, .decb, .mfps], WritingFrame .byte 0xF1#8 mk)

/-- What a double-operand instruction that writes its destination leaves alone (spec/41_double_operand.md). -/
def Obligations.DoubleOperandFrame : Prop :=
  (∀ mk ∈ [Instr.mov, .bic, .bis], CombiningFrame wordAccess 0xF1#8 mk) ∧
  (∀ mk ∈ [Instr.add, .sub], CombiningFrame wordAccess 0xF0#8 mk) ∧
  (∀ mk ∈ [Instr.movb, .bicb, .bisb], CombiningFrame byteAccess 0xF1#8 mk)

/-- What an operand instruction that writes no operand leaves alone: all of memory, every register but pc and the stepped
ones, T and PRI (MTPS: PRI unless MTPS_WRITES_PRIORITY); BIT keeps C (spec/41_double_operand.md R182, R183;
spec/42_single_operand.md R228, R260). -/
def Obligations.ReadOnlyOperandFrame : Prop :=
  (∀ mk ∈ [Instr.cmp, .cmpb], ComparingFrame 0xF0#8 mk) ∧
  (∀ mk ∈ [Instr.bit, .bitb], ComparingFrame 0xF1#8 mk) ∧
  (∀ mk ∈ [Instr.tst, .tstb], ReadingFrame (fun _ => 0xF0#8) mk) ∧
  ReadingFrame (fun s => if s.params.mtpsWritesPriority then 0x10#8 else 0xF0#8) .mtps

/-- What control transfers leave alone: the PSW; memory but JSR's stack word; every register but pc, JSR's and RTS's SP and
linkage register, SOB's counter, and a stepped addressing register (spec/43_control.md R270, R287 to R290). -/
def Obligations.ControlFrame : Prop :=
  (∀ mk ∈ [Instr.br, .bne, .beq, .bge, .blt, .bgt, .ble, .bpl, .bmi, .bhi, .blos, .bvc, .bvs, .bcc, .bcs],
    ∀ off s, ∃ u, EndsFrom (mk off) s u ∧ KeepsRest s u ∧ KeepsExecution (mk off) s u ∧ u.psw = s.psw ∧
      KeepsRegs s u [PC] ∧ u.mem = s.mem) ∧
  (∀ r off s, ∃ u, EndsFrom (.sob r off) s u ∧ KeepsRest s u ∧ KeepsExecution (.sob r off) s u ∧
    u.psw = s.psw ∧ KeepsRegs s u [PC, r] ∧ u.mem = s.mem) ∧
  (∀ d s, d.mode ≠ .register → ∃ u, EndsFrom (.jmp d) s u ∧ KeepsRest s u ∧ KeepsExecution (.jmp d) s u ∧
    u.psw = s.psw ∧ KeepsRegs s u (PC :: steppedBy d) ∧ u.mem = s.mem) ∧
  (∀ r s, ∃ u, EndsFrom (.rts r) s u ∧ KeepsRest s u ∧ KeepsExecution (.rts r) s u ∧ u.psw = s.psw ∧
    KeepsRegs s u [PC, SP, r] ∧ u.mem = s.mem) ∧
  (∀ r d s, d.mode ≠ .register → ∃ u, EndsFrom (.jsr r d) s u ∧ KeepsRest s u ∧ KeepsExecution (.jsr r d) s u ∧
    u.psw = s.psw ∧ KeepsRegs s u (PC :: SP :: r :: steppedBy d) ∧
    ∀ x : Nat, (∀ o t, resolve .word d s = .ok o t → x ∉ storedBytes s.params .word (.mem (t.sp - 2#16))) →
      u.mem.read x = s.mem.read x)

/-- What the system instructions leave alone. HALT and WAIT change one latch, RESET the history, the condition-code
operators PSW bits 3:0, and RTI and RTT pc, SP and the PSW (spec/44_system.md). BPT, IOT, EMT and TRAP are a trap entry,
whose frame is TrapEntryFrame. -/
def Obligations.SystemFrame : Prop :=
  (∀ s, ∃ u, EndsFrom .halt s u ∧ (u = s ∨ u = { s with halted := true })) ∧
  (∀ s, ∃ u, EndsFrom .wait s u ∧ u = { s with waiting := true }) ∧
  (∀ s, ∃ u, EndsFrom .reset s u ∧ u = { s with events := .resetOut :: s.events }) ∧
  (∀ mk ∈ [Instr.clcc, .secc], ∀ m s, ∃ u, EndsFrom (mk m) s u ∧ KeepsPsw s u 0xF0#8 ∧ u = { s with psw := u.psw }) ∧
  (∀ i ∈ [Instr.rti, .rtt], ∀ s, ∃ u, EndsFrom i s u ∧ KeepsRest s u ∧ KeepsExecution i s u ∧
    KeepsRegs s u [PC, SP] ∧ u.mem = s.mem)

/-! ## Invariants and whole-machine rules -/

/-- Every step keeps memory in its canonical form and SP and PC written registers (spec/20_memory.md R71, R88;
spec/10_state.md R51; log 3). -/
def Obligations.StepKeepsInvariant : Prop := ∀ s t : State, s.Inv → step s = .next t → t.Inv

/-- The invariant holds at reset, and the host's and the interrupt source's moves keep it. -/
def Obligations.ResetAndMovesMeetInvariant : Prop :=
  State.reset.Inv ∧ ∀ (m : Move) (s : State), s.Inv → (applyMove m s).Inv

/-- No step changes an interrupt line, a parameter or the mark ResetFault, clears the mark DoubleFault or changes a recorded
mark UnwrittenRegister, forgets a history entry, or makes a written register unwritten (spec/10_state.md R46, R49, R51;
spec/70_reset_and_hazards.md R406). The history is the model's own field (log 6, log 8), and so is the form of the mark
UnwrittenRegister (log 1). -/
def Obligations.StepLeavesEnvironment : Prop :=
  ∀ s t : State, step s = .next t →
    t.lines = s.lines ∧ t.params = s.params ∧ t.resetFault = s.resetFault ∧
    (s.doubleFault = true → t.doubleFault = true) ∧
    (∀ r : Reg, s.unwrittenRead = some r → t.unwrittenRead = some r) ∧ s.events <:+ t.events ∧
    ∀ r : Reg, s.written[r] = true → t.written[r] = true

/-- PPC and the trace latch are written only at an instruction fetch, PPC also at an interrupt acceptance and at reset; no
instruction and no synchronous trap writes either (spec/10_state.md R43, R44, R47). -/
def Obligations.PpcWriters : Prop :=
  (∀ (i : Instr) (s t : State), exec i s = .next t → t.ppc = s.ppc ∧ t.tstart = s.tstart) ∧
  (∀ (v : Word) (s : State), (trapEntry v s).ppc = s.ppc) ∧
  (∀ s t : State, boundary s = .instruction → step s = .next t → t.ppc = s.pc ∧ t.tstart = s.psw.getLsbD 4) ∧
  (∀ (s t : State) (n : Fin 4), s.halted = false → s.pfail = false → bestLine s = some n → step s = .next t →
    t.ppc = s.pc ∧ t.tstart = s.tstart) ∧
  (∀ s t : State, s.halted = false → s.pfail = true → step s = .next t → t.ppc = s.ppc ∧ t.tstart = s.tstart) ∧
  (∀ (n : Fin 4) (b : Bool) (v : Word) (s : State), (setPowerFail s).ppc = s.ppc ∧ (setLine n b v s).ppc = s.ppc) ∧
  (∀ (p w x : Word) (s u v : State), readWord 0x0000#16 s = .ok w u → readWord 0x0002#16 u = .ok x v →
    (hostReset p s).ppc = w ∧ (hostReset p s).pc = w)

/-- A run has ended well exactly when it is halted with no fault mark, DoubleFault, ResetFault or UnwrittenRegister; a step
reaches such a state only by executing HALT under HALT_ACTION = STOP, and never from a state in which a rule has read an
unwritten register (spec/70_reset_and_hazards.md R406; spec/10_state.md R51). That the mark UnwrittenRegister stays is the
model's choice (log 1), and so is the fault a halted core answers (log 9). -/
def Obligations.EndedWellOnlyByHalt : Prop :=
  (∀ t : State, (endedWell t = true ↔
      t.halted = true ∧ t.doubleFault = false ∧ t.resetFault = false ∧ t.unwrittenRead = none) ∧
    (endedWell t = true ↔ step t = .fault .halted)) ∧
  ∀ s t : State, step s = .next t → endedWell t = true →
    s.params.haltAction = .stop ∧ s.unwrittenRead = none ∧
    ∃ u, fetchInstr s = .ok .halt u ∧ t = { u with halted := true }

/-- T and PRI change only by a trap or interrupt entry, by RTI and RTT, and PRI by MTPS under its parameter. Of every step:
bits 7:4 of the PSW stay, or the next state is an entry, through a fixed vector or a line's, from a state in which they had
stayed; or the step fetched RTI or RTT; or it fetched MTPS under MTPS_WRITES_PRIORITY, and the same holds of bit 4
(spec/10_state.md R36, R41). -/
def Obligations.TraceAndPriorityWriters : Prop :=
  ∀ s t : State, step s = .next t →
    let keptOrEntered : Byte → Prop := fun mask =>
      t.psw &&& mask = s.psw &&& mask ∨
      ∃ (v : Word) (u : State), u.psw &&& mask = s.psw &&& mask ∧ t = trapEntry v u ∧
        (v ∈ [0x0004#16, 0x0008#16, 0x000C#16, 0x0010#16, 0x0014#16, 0x0018#16, 0x001C#16] ∨
          ∃ n : Fin 4, bestLine s = some n ∧ v = s.lines[n].vector)
    keptOrEntered 0xF0#8 ∨
    (boundary s = .instruction ∧ ∃ i u, fetchInstr s = .ok i u ∧
      (i = .rti ∨ i = .rtt ∨ (isMtps i = true ∧ s.params.mtpsWritesPriority = true ∧ keptOrEntered 0x10#8)))

/-- With no device on the bus, absent regions or not, the only output a step leaves in `events` is the one ResetOut of a RESET it executes, whatever
trap or interrupt it takes (spec/44_system.md R302). `events` is the model's own field: of the outputs of
spec/70_reset_and_hazards.md R404 it records ResetOut (log 8) and the calls that reach a device (log 6), and no other bus
call. -/
def Obligations.OnlyResetSpeaks : Prop :=
  ∀ s t : State, NoDevice s → step s = .next t →
    (∀ u, boundary s = .instruction → fetchInstr s = .ok .reset u → t.events = .resetOut :: s.events) ∧
    ((boundary s = .instruction → ∀ u, fetchInstr s ≠ .ok .reset u) → t.events = s.events)
end

