-- ==== Sys2Proof/Laws/Bits.lean ====
section
/-! SUPPORT. Bit fields and byte order: what the small operations of Machine/Bits.lean and the PSW's accessors give back. -/

namespace Sys2Proof.Machine

theorem lo8_toNat (v : Word) : (lo8 v).toNat = v.toNat % 256 := by
  simp [lo8, BitVec.extractLsb'_toNat]

theorem hi8_toNat (v : Word) : (hi8 v).toNat = v.toNat / 256 := by
  have := v.isLt
  simp [hi8, BitVec.extractLsb'_toNat, Nat.shiftRight_eq_div_pow]
  omega

theorem joinBytes_toNat (h l : Byte) : (joinBytes h l).toNat = h.toNat * 256 + l.toNat := by
  show (h ++ l : BitVec (8 + 8)).toNat = _
  rw [BitVec.toNat_append, ← Nat.shiftLeft_add_eq_or_of_lt l.isLt, Nat.shiftLeft_eq]

theorem zext16_toNat (b : Byte) : (zext16 b).toNat = b.toNat := by
  have := b.isLt
  simp [zext16]
  omega

@[simp] theorem lo8_joinBytes (h l : Byte) : lo8 (joinBytes h l) = l := by
  apply BitVec.eq_of_toNat_eq
  have := l.isLt
  rw [lo8_toNat, joinBytes_toNat]
  omega

@[simp] theorem hi8_joinBytes (h l : Byte) : hi8 (joinBytes h l) = h := by
  apply BitVec.eq_of_toNat_eq
  have := l.isLt
  rw [hi8_toNat, joinBytes_toNat]
  omega

@[simp] theorem joinBytes_hi8_lo8 (v : Word) : joinBytes (hi8 v) (lo8 v) = v := by
  apply BitVec.eq_of_toNat_eq
  rw [joinBytes_toNat, lo8_toNat, hi8_toNat]
  omega

@[simp] theorem lo8_zext16 (b : Byte) : lo8 (zext16 b) = b := by
  apply BitVec.eq_of_toNat_eq
  have := b.isLt
  rw [lo8_toNat, zext16_toNat]
  omega

theorem evenAddr_toNat (a : Word) : (evenAddr a).toNat = a.toNat / 2 * 2 := by
  have key : ∀ j : Fin 16, (0xFFFE#16).getLsbD j.val = !decide (j.val < 1) := by decide
  have h : evenAddr a = (a >>> 1) <<< 1 := by
    unfold evenAddr
    apply BitVec.eq_of_getLsbD_eq
    intro i hi
    rw [BitVec.getLsbD_and, key ⟨i, hi⟩, BitVec.getLsbD_shiftLeft, BitVec.getLsbD_ushiftRight]
    by_cases h0 : i < 1
    · simp [h0]
    · have : 1 + (i - 1) = i := by omega
      simp [h0, this, hi]
  rw [h, BitVec.toNat_shiftLeft, BitVec.toNat_ushiftRight, Nat.shiftLeft_eq, Nat.shiftRight_eq_div_pow]
  have := a.isLt
  omega

theorem evenAddr_lt (a : Word) : (evenAddr a).toNat + 1 < 65536 := by
  have := evenAddr_toNat a
  have := a.isLt
  omega

@[simp] theorem evenAddr_evenAddr (a : Word) : evenAddr (evenAddr a) = evenAddr a := by
  apply BitVec.eq_of_toNat_eq
  rw [evenAddr_toNat, evenAddr_toNat]
  omega

@[simp] theorem ccOf_withCc (p : Byte) (k : Cc) : ccOf (withCc p k) = k := by
  obtain ⟨n, z, v, c⟩ := k
  revert p n z v c
  decide +kernel

@[simp] theorem traceBit_withCc (p : Byte) (k : Cc) : traceBit (withCc p k) = traceBit p := by
  obtain ⟨n, z, v, c⟩ := k
  revert p n z v c
  decide +kernel

@[simp] theorem priOf_withCc (p : Byte) (k : Cc) : priOf (withCc p k) = priOf p := by
  obtain ⟨n, z, v, c⟩ := k
  revert p n z v c
  decide +kernel

end Sys2Proof.Machine
end

