-- ==== Sys2Proof/Laws/Memory.lean ====
section
/-! SUPPORT. The byte array: a read after a write, and the canonical form, which every memory operation keeps. -/

namespace Sys2Proof.Machine

@[simp] theorem Memory.read_nil (x : Nat) : Memory.read [] x = Config.unlistedByte := rfl

theorem Memory.read_cons (c : Host.Cell) (m : Memory) (x : Nat) :
    Memory.read (c :: m) x = if c.1 = x then c.2 else Memory.read m x := rfl

theorem Memory.read_insert (m : Memory) (a : Nat) (b : Byte) (h : ∀ c ∈ m, c.1 ≠ a) (x : Nat) :
    (Memory.insert m a b).read x = if x = a then b else m.read x := by
  induction m with
  | nil => simp [Memory.insert, Memory.read_cons, eq_comm]
  | cons c m ih =>
    have hc : c.1 ≠ a := h c (by simp)
    unfold Memory.insert
    split
    · rw [Memory.read_cons, ih (fun d hd => h d (by simp [hd])), Memory.read_cons]
      by_cases hx : c.1 = x
      · have : x ≠ a := fun e => hc (hx.trans e)
        simp [hx, this]
      · simp [hx]
    · rw [Memory.read_cons]
      simp [eq_comm]

theorem Memory.read_filter (m : Memory) (a x : Nat) :
    Memory.read (m.filter fun c => c.1 ≠ a) x = if x = a then Config.unlistedByte else m.read x := by
  induction m with
  | nil => simp
  | cons c m ih =>
    simp only [List.filter_cons]
    by_cases hc : c.1 = a
    · simp only [hc, ne_eq, not_true_eq_false, decide_false, Bool.false_eq_true, if_false]
      rw [ih, Memory.read_cons]
      by_cases hx : x = a
      · simp [hx]
      · simp [hx, show ¬ c.1 = x from fun e => hx (e.symm.trans hc)]
    · simp only [hc, ne_eq, not_false_eq_true, decide_true, if_true]
      rw [Memory.read_cons, ih, Memory.read_cons]
      by_cases hx : c.1 = x
      · simp [hx, show ¬ x = a from fun e => hc (hx.trans e)]
      · simp [hx]

/-- A read after a write, for any list. -/
theorem Memory.read_write (m : Memory) (a : Nat) (b : Byte) (x : Nat) :
    (m.write a b).read x = if x = a then b else m.read x := by
  unfold Memory.write
  simp only
  split
  · rename_i hb
    rw [Memory.read_filter, hb]
  · rw [Memory.read_insert _ _ _ (by simp)]
    by_cases hx : x = a
    · simp [hx]
    · simp only [hx, if_false]
      rw [Memory.read_filter, if_neg hx]

@[simp] theorem Memory.read_write_self (m : Memory) (a : Nat) (b : Byte) : (m.write a b).read a = b := by
  simp [Memory.read_write]

theorem Memory.read_write_ne (m : Memory) {a x : Nat} (b : Byte) (h : x ≠ a) : (m.write a b).read x = m.read x := by
  simp [Memory.read_write, h]

theorem Memory.mem_insert (m : Memory) (a : Nat) (b : Byte) (c : Host.Cell) :
    c ∈ Memory.insert m a b ↔ c = (a, b) ∨ c ∈ m := by
  induction m with
  | nil => simp [Memory.insert]
  | cons d m ih =>
    unfold Memory.insert
    split
    · simp only [List.mem_cons, ih]; tauto
    · simp only [List.mem_cons]

theorem Memory.pairwise_insert (m : Memory) (a : Nat) (b : Byte) (h : ∀ c ∈ m, c.1 ≠ a)
    (hp : m.Pairwise fun x y => x.1 < y.1) : (Memory.insert m a b).Pairwise fun x y => x.1 < y.1 := by
  induction m with
  | nil => simp [Memory.insert]
  | cons c m ih =>
    rw [List.pairwise_cons] at hp
    unfold Memory.insert
    split
    · rename_i hlt
      rw [List.pairwise_cons]
      refine ⟨fun d hd => ?_, ih (fun d hd => h d (by simp [hd])) hp.2⟩
      rcases (Memory.mem_insert m a b d).1 hd with rfl | hd
      · exact hlt
      · exact hp.1 d hd
    · rename_i hlt
      have hca : c.1 ≠ a := h c (by simp)
      rw [List.pairwise_cons, List.pairwise_cons]
      refine ⟨fun d hd => ?_, hp⟩
      rcases List.mem_cons.1 hd with rfl | hd
      · show a < d.1; omega
      · have := hp.1 d hd
        show a < d.1; omega

/-- A write inside the address space keeps the canonical form. -/
theorem Memory.wf_write (m : Memory) (a : Nat) (b : Byte) (ha : a < 65536) (h : m.wf) : (m.write a b).wf := by
  obtain ⟨hp, hc⟩ := h
  have hf : (m.filter fun c => c.1 ≠ a).Pairwise fun x y => x.1 < y.1 := hp.filter _
  unfold Memory.write
  simp only
  split
  · exact ⟨hf, fun c hm => hc c (List.mem_filter.1 hm).1⟩
  · rename_i hb
    refine ⟨Memory.pairwise_insert _ _ _ (by simp) hf, fun c hm => ?_⟩
    rcases (Memory.mem_insert _ _ _ _).1 hm with rfl | hm
    · exact ⟨ha, hb⟩
    · exact hc c (List.mem_filter.1 hm).1

theorem Memory.wf_writeWord (m : Memory) (a v : Word) (ha : a.toNat + 1 < 65536) (h : m.wf) : (m.writeWord a v).wf :=
  Memory.wf_write _ _ _ ha (Memory.wf_write _ _ _ (by omega) h)

theorem Memory.read_writeWord (m : Memory) (a v : Word) (x : Nat) :
    (m.writeWord a v).read x =
      if x = a.toNat then lo8 v else if x = a.toNat + 1 then hi8 v else m.read x := by
  unfold Memory.writeWord
  rw [Memory.read_write, Memory.read_write]
  by_cases h : x = a.toNat
  · simp [h]
  · simp [h]

@[simp] theorem Memory.readWord_writeWord_self (m : Memory) (a v : Word) : (m.writeWord a v).readWord a = v := by
  simp [Memory.readWord, Memory.read_writeWord]

theorem Memory.readWord_writeWord_even (m : Memory) (a b v : Word) :
    (m.writeWord (evenAddr a) v).readWord (evenAddr b) =
      if evenAddr b = evenAddr a then v else m.readWord (evenAddr b) := by
  by_cases h : evenAddr b = evenAddr a
  · simp [h]
  · have hn : (evenAddr b).toNat ≠ (evenAddr a).toNat := fun e => h (BitVec.eq_of_toNat_eq e)
    have ha := evenAddr_toNat a
    have hb := evenAddr_toNat b
    have h1 : (evenAddr b).toNat ≠ (evenAddr a).toNat + 1 := by omega
    have h2 : (evenAddr b).toNat + 1 ≠ (evenAddr a).toNat := by omega
    have h3 : (evenAddr b).toNat + 1 ≠ (evenAddr a).toNat + 1 := by omega
    simp [Memory.readWord, Memory.read_writeWord, h, h1, h2, hn]

theorem Memory.wf_reset : Memory.wf State.reset.mem := by decide

end Sys2Proof.Machine
end

