-- ==== Sys2Proof/Laws/State.lean ====
section
/-! SUPPORT. One lemma for each field under each named update of a state, and for the register and flag readers, so that no
later proof unfolds a record update. -/

namespace Sys2Proof.Machine

@[simp] theorem State.setReg_regs (s : State) (r : Reg) (v : Word) : (s.setReg r v).regs = s.regs.set r v := rfl
@[simp] theorem State.setReg_written (s : State) (r : Reg) (v : Word) : (s.setReg r v).written = s.written.set r true := rfl
@[simp] theorem State.setReg_psw (s : State) (r : Reg) (v : Word) : (s.setReg r v).psw = s.psw := rfl
@[simp] theorem State.setReg_ppc (s : State) (r : Reg) (v : Word) : (s.setReg r v).ppc = s.ppc := rfl
@[simp] theorem State.setReg_waiting (s : State) (r : Reg) (v : Word) : (s.setReg r v).waiting = s.waiting := rfl
@[simp] theorem State.setReg_halted (s : State) (r : Reg) (v : Word) : (s.setReg r v).halted = s.halted := rfl
@[simp] theorem State.setReg_tstart (s : State) (r : Reg) (v : Word) : (s.setReg r v).tstart = s.tstart := rfl
@[simp] theorem State.setReg_pfail (s : State) (r : Reg) (v : Word) : (s.setReg r v).pfail = s.pfail := rfl
@[simp] theorem State.setReg_doubleFault (s : State) (r : Reg) (v : Word) : (s.setReg r v).doubleFault = s.doubleFault := rfl
@[simp] theorem State.setReg_resetFault (s : State) (r : Reg) (v : Word) : (s.setReg r v).resetFault = s.resetFault := rfl
@[simp] theorem State.setReg_unwrittenRead (s : State) (r : Reg) (v : Word) : (s.setReg r v).unwrittenRead = s.unwrittenRead := rfl
@[simp] theorem State.setReg_lines (s : State) (r : Reg) (v : Word) : (s.setReg r v).lines = s.lines := rfl
@[simp] theorem State.setReg_mem (s : State) (r : Reg) (v : Word) : (s.setReg r v).mem = s.mem := rfl
@[simp] theorem State.setReg_events (s : State) (r : Reg) (v : Word) : (s.setReg r v).events = s.events := rfl
@[simp] theorem State.setReg_params (s : State) (r : Reg) (v : Word) : (s.setReg r v).params = s.params := rfl

@[simp] theorem State.setRegLow_regs (s : State) (r : Reg) (b : Byte) : (s.setRegLow r b).regs = s.regs.set r (joinBytes (hi8 s.regs[r]) b) := rfl
@[simp] theorem State.setRegLow_written (s : State) (r : Reg) (b : Byte) : (s.setRegLow r b).written = s.written := rfl
@[simp] theorem State.setRegLow_psw (s : State) (r : Reg) (b : Byte) : (s.setRegLow r b).psw = s.psw := rfl
@[simp] theorem State.setRegLow_ppc (s : State) (r : Reg) (b : Byte) : (s.setRegLow r b).ppc = s.ppc := rfl
@[simp] theorem State.setRegLow_waiting (s : State) (r : Reg) (b : Byte) : (s.setRegLow r b).waiting = s.waiting := rfl
@[simp] theorem State.setRegLow_halted (s : State) (r : Reg) (b : Byte) : (s.setRegLow r b).halted = s.halted := rfl
@[simp] theorem State.setRegLow_tstart (s : State) (r : Reg) (b : Byte) : (s.setRegLow r b).tstart = s.tstart := rfl
@[simp] theorem State.setRegLow_pfail (s : State) (r : Reg) (b : Byte) : (s.setRegLow r b).pfail = s.pfail := rfl
@[simp] theorem State.setRegLow_doubleFault (s : State) (r : Reg) (b : Byte) : (s.setRegLow r b).doubleFault = s.doubleFault := rfl
@[simp] theorem State.setRegLow_resetFault (s : State) (r : Reg) (b : Byte) : (s.setRegLow r b).resetFault = s.resetFault := rfl
@[simp] theorem State.setRegLow_unwrittenRead (s : State) (r : Reg) (b : Byte) : (s.setRegLow r b).unwrittenRead = s.unwrittenRead := rfl
@[simp] theorem State.setRegLow_lines (s : State) (r : Reg) (b : Byte) : (s.setRegLow r b).lines = s.lines := rfl
@[simp] theorem State.setRegLow_mem (s : State) (r : Reg) (b : Byte) : (s.setRegLow r b).mem = s.mem := rfl
@[simp] theorem State.setRegLow_events (s : State) (r : Reg) (b : Byte) : (s.setRegLow r b).events = s.events := rfl
@[simp] theorem State.setRegLow_params (s : State) (r : Reg) (b : Byte) : (s.setRegLow r b).params = s.params := rfl

@[simp] theorem State.setSp_regs (s : State) (v : Word) : (s.setSp v).regs = s.regs.set SP v := rfl
@[simp] theorem State.setSp_written (s : State) (v : Word) : (s.setSp v).written = s.written.set SP true := rfl
@[simp] theorem State.setSp_psw (s : State) (v : Word) : (s.setSp v).psw = s.psw := rfl
@[simp] theorem State.setSp_ppc (s : State) (v : Word) : (s.setSp v).ppc = s.ppc := rfl
@[simp] theorem State.setSp_waiting (s : State) (v : Word) : (s.setSp v).waiting = s.waiting := rfl
@[simp] theorem State.setSp_halted (s : State) (v : Word) : (s.setSp v).halted = s.halted := rfl
@[simp] theorem State.setSp_tstart (s : State) (v : Word) : (s.setSp v).tstart = s.tstart := rfl
@[simp] theorem State.setSp_pfail (s : State) (v : Word) : (s.setSp v).pfail = s.pfail := rfl
@[simp] theorem State.setSp_doubleFault (s : State) (v : Word) : (s.setSp v).doubleFault = s.doubleFault := rfl
@[simp] theorem State.setSp_resetFault (s : State) (v : Word) : (s.setSp v).resetFault = s.resetFault := rfl
@[simp] theorem State.setSp_unwrittenRead (s : State) (v : Word) : (s.setSp v).unwrittenRead = s.unwrittenRead := rfl
@[simp] theorem State.setSp_lines (s : State) (v : Word) : (s.setSp v).lines = s.lines := rfl
@[simp] theorem State.setSp_mem (s : State) (v : Word) : (s.setSp v).mem = s.mem := rfl
@[simp] theorem State.setSp_events (s : State) (v : Word) : (s.setSp v).events = s.events := rfl
@[simp] theorem State.setSp_params (s : State) (v : Word) : (s.setSp v).params = s.params := rfl

@[simp] theorem State.setPc_regs (s : State) (v : Word) : (s.setPc v).regs = s.regs.set PC v := rfl
@[simp] theorem State.setPc_written (s : State) (v : Word) : (s.setPc v).written = s.written.set PC true := rfl
@[simp] theorem State.setPc_psw (s : State) (v : Word) : (s.setPc v).psw = s.psw := rfl
@[simp] theorem State.setPc_ppc (s : State) (v : Word) : (s.setPc v).ppc = s.ppc := rfl
@[simp] theorem State.setPc_waiting (s : State) (v : Word) : (s.setPc v).waiting = s.waiting := rfl
@[simp] theorem State.setPc_halted (s : State) (v : Word) : (s.setPc v).halted = s.halted := rfl
@[simp] theorem State.setPc_tstart (s : State) (v : Word) : (s.setPc v).tstart = s.tstart := rfl
@[simp] theorem State.setPc_pfail (s : State) (v : Word) : (s.setPc v).pfail = s.pfail := rfl
@[simp] theorem State.setPc_doubleFault (s : State) (v : Word) : (s.setPc v).doubleFault = s.doubleFault := rfl
@[simp] theorem State.setPc_resetFault (s : State) (v : Word) : (s.setPc v).resetFault = s.resetFault := rfl
@[simp] theorem State.setPc_unwrittenRead (s : State) (v : Word) : (s.setPc v).unwrittenRead = s.unwrittenRead := rfl
@[simp] theorem State.setPc_lines (s : State) (v : Word) : (s.setPc v).lines = s.lines := rfl
@[simp] theorem State.setPc_mem (s : State) (v : Word) : (s.setPc v).mem = s.mem := rfl
@[simp] theorem State.setPc_events (s : State) (v : Word) : (s.setPc v).events = s.events := rfl
@[simp] theorem State.setPc_params (s : State) (v : Word) : (s.setPc v).params = s.params := rfl

@[simp] theorem State.setCc_regs (s : State) (k : Cc) : (s.setCc k).regs = s.regs := rfl
@[simp] theorem State.setCc_written (s : State) (k : Cc) : (s.setCc k).written = s.written := rfl
@[simp] theorem State.setCc_psw (s : State) (k : Cc) : (s.setCc k).psw = withCc s.psw k := rfl
@[simp] theorem State.setCc_ppc (s : State) (k : Cc) : (s.setCc k).ppc = s.ppc := rfl
@[simp] theorem State.setCc_waiting (s : State) (k : Cc) : (s.setCc k).waiting = s.waiting := rfl
@[simp] theorem State.setCc_halted (s : State) (k : Cc) : (s.setCc k).halted = s.halted := rfl
@[simp] theorem State.setCc_tstart (s : State) (k : Cc) : (s.setCc k).tstart = s.tstart := rfl
@[simp] theorem State.setCc_pfail (s : State) (k : Cc) : (s.setCc k).pfail = s.pfail := rfl
@[simp] theorem State.setCc_doubleFault (s : State) (k : Cc) : (s.setCc k).doubleFault = s.doubleFault := rfl
@[simp] theorem State.setCc_resetFault (s : State) (k : Cc) : (s.setCc k).resetFault = s.resetFault := rfl
@[simp] theorem State.setCc_unwrittenRead (s : State) (k : Cc) : (s.setCc k).unwrittenRead = s.unwrittenRead := rfl
@[simp] theorem State.setCc_lines (s : State) (k : Cc) : (s.setCc k).lines = s.lines := rfl
@[simp] theorem State.setCc_mem (s : State) (k : Cc) : (s.setCc k).mem = s.mem := rfl
@[simp] theorem State.setCc_events (s : State) (k : Cc) : (s.setCc k).events = s.events := rfl
@[simp] theorem State.setCc_params (s : State) (k : Cc) : (s.setCc k).params = s.params := rfl

@[simp] theorem State.setPsw_regs (s : State) (p : Byte) : (s.setPsw p).regs = s.regs := rfl
@[simp] theorem State.setPsw_written (s : State) (p : Byte) : (s.setPsw p).written = s.written := rfl
@[simp] theorem State.setPsw_psw (s : State) (p : Byte) : (s.setPsw p).psw = p := rfl
@[simp] theorem State.setPsw_ppc (s : State) (p : Byte) : (s.setPsw p).ppc = s.ppc := rfl
@[simp] theorem State.setPsw_waiting (s : State) (p : Byte) : (s.setPsw p).waiting = s.waiting := rfl
@[simp] theorem State.setPsw_halted (s : State) (p : Byte) : (s.setPsw p).halted = s.halted := rfl
@[simp] theorem State.setPsw_tstart (s : State) (p : Byte) : (s.setPsw p).tstart = s.tstart := rfl
@[simp] theorem State.setPsw_pfail (s : State) (p : Byte) : (s.setPsw p).pfail = s.pfail := rfl
@[simp] theorem State.setPsw_doubleFault (s : State) (p : Byte) : (s.setPsw p).doubleFault = s.doubleFault := rfl
@[simp] theorem State.setPsw_resetFault (s : State) (p : Byte) : (s.setPsw p).resetFault = s.resetFault := rfl
@[simp] theorem State.setPsw_unwrittenRead (s : State) (p : Byte) : (s.setPsw p).unwrittenRead = s.unwrittenRead := rfl
@[simp] theorem State.setPsw_lines (s : State) (p : Byte) : (s.setPsw p).lines = s.lines := rfl
@[simp] theorem State.setPsw_mem (s : State) (p : Byte) : (s.setPsw p).mem = s.mem := rfl
@[simp] theorem State.setPsw_events (s : State) (p : Byte) : (s.setPsw p).events = s.events := rfl
@[simp] theorem State.setPsw_params (s : State) (p : Byte) : (s.setPsw p).params = s.params := rfl

@[simp] theorem State.emit_regs (s : State) (e : BusEvent) : (s.emit e).regs = s.regs := rfl
@[simp] theorem State.emit_written (s : State) (e : BusEvent) : (s.emit e).written = s.written := rfl
@[simp] theorem State.emit_psw (s : State) (e : BusEvent) : (s.emit e).psw = s.psw := rfl
@[simp] theorem State.emit_ppc (s : State) (e : BusEvent) : (s.emit e).ppc = s.ppc := rfl
@[simp] theorem State.emit_waiting (s : State) (e : BusEvent) : (s.emit e).waiting = s.waiting := rfl
@[simp] theorem State.emit_halted (s : State) (e : BusEvent) : (s.emit e).halted = s.halted := rfl
@[simp] theorem State.emit_tstart (s : State) (e : BusEvent) : (s.emit e).tstart = s.tstart := rfl
@[simp] theorem State.emit_pfail (s : State) (e : BusEvent) : (s.emit e).pfail = s.pfail := rfl
@[simp] theorem State.emit_doubleFault (s : State) (e : BusEvent) : (s.emit e).doubleFault = s.doubleFault := rfl
@[simp] theorem State.emit_resetFault (s : State) (e : BusEvent) : (s.emit e).resetFault = s.resetFault := rfl
@[simp] theorem State.emit_unwrittenRead (s : State) (e : BusEvent) : (s.emit e).unwrittenRead = s.unwrittenRead := rfl
@[simp] theorem State.emit_lines (s : State) (e : BusEvent) : (s.emit e).lines = s.lines := rfl
@[simp] theorem State.emit_mem (s : State) (e : BusEvent) : (s.emit e).mem = s.mem := rfl
@[simp] theorem State.emit_events (s : State) (e : BusEvent) : (s.emit e).events = e :: s.events := rfl
@[simp] theorem State.emit_params (s : State) (e : BusEvent) : (s.emit e).params = s.params := rfl

@[simp] theorem State.noteRead_regs (s : State) (r : Reg) : (s.noteRead r).regs = s.regs := rfl
@[simp] theorem State.noteRead_written (s : State) (r : Reg) : (s.noteRead r).written = s.written := rfl
@[simp] theorem State.noteRead_psw (s : State) (r : Reg) : (s.noteRead r).psw = s.psw := rfl
@[simp] theorem State.noteRead_ppc (s : State) (r : Reg) : (s.noteRead r).ppc = s.ppc := rfl
@[simp] theorem State.noteRead_waiting (s : State) (r : Reg) : (s.noteRead r).waiting = s.waiting := rfl
@[simp] theorem State.noteRead_halted (s : State) (r : Reg) : (s.noteRead r).halted = s.halted := rfl
@[simp] theorem State.noteRead_tstart (s : State) (r : Reg) : (s.noteRead r).tstart = s.tstart := rfl
@[simp] theorem State.noteRead_pfail (s : State) (r : Reg) : (s.noteRead r).pfail = s.pfail := rfl
@[simp] theorem State.noteRead_doubleFault (s : State) (r : Reg) : (s.noteRead r).doubleFault = s.doubleFault := rfl
@[simp] theorem State.noteRead_resetFault (s : State) (r : Reg) : (s.noteRead r).resetFault = s.resetFault := rfl
@[simp] theorem State.noteRead_unwrittenRead (s : State) (r : Reg) : (s.noteRead r).unwrittenRead = s.markAfterRead r := rfl
@[simp] theorem State.noteRead_lines (s : State) (r : Reg) : (s.noteRead r).lines = s.lines := rfl
@[simp] theorem State.noteRead_mem (s : State) (r : Reg) : (s.noteRead r).mem = s.mem := rfl
@[simp] theorem State.noteRead_events (s : State) (r : Reg) : (s.noteRead r).events = s.events := rfl
@[simp] theorem State.noteRead_params (s : State) (r : Reg) : (s.noteRead r).params = s.params := rfl

theorem State.reg_setReg (s : State) (r q : Reg) (v : Word) : (s.setReg r v).reg q = if q = r then v else s.reg q := by
  unfold State.reg State.setReg
  by_cases h : q = r
  · subst h; simp
  · have : r.val ≠ q.val := fun e => h (Fin.ext e.symm)
    simp [h, this]

@[simp] theorem State.reg_setReg_self (s : State) (r : Reg) (v : Word) : (s.setReg r v).reg r = v := by
  simp [State.reg_setReg]

theorem State.reg_setReg_ne (s : State) {r q : Reg} (v : Word) (h : q ≠ r) : (s.setReg r v).reg q = s.reg q := by
  simp [State.reg_setReg, h]

theorem State.reg_setRegLow (s : State) (r q : Reg) (b : Byte) :
    (s.setRegLow r b).reg q = if q = r then joinBytes (hi8 (s.reg r)) b else s.reg q := by
  unfold State.reg State.setRegLow
  by_cases h : q = r
  · subst h; simp
  · have : r.val ≠ q.val := fun e => h (Fin.ext e.symm)
    simp [h, this]

theorem State.written_setReg (s : State) (r q : Reg) (v : Word) :
    (s.setReg r v).written[q] = if q = r then true else s.written[q] := by
  unfold State.setReg
  by_cases h : q = r
  · subst h; simp
  · have : r.val ≠ q.val := fun e => h (Fin.ext e.symm)
    simp [h, this]

theorem State.setSp_eq (s : State) (v : Word) : s.setSp v = s.setReg SP v := rfl

theorem State.setPc_eq (s : State) (v : Word) : s.setPc v = s.setReg PC v := rfl

theorem State.sp_eq (s : State) : s.sp = s.reg SP := rfl

theorem State.pc_eq (s : State) : s.pc = s.reg PC := rfl

@[simp] theorem State.sp_setSp (s : State) (v : Word) : (s.setSp v).sp = v := State.reg_setReg_self s SP v

@[simp] theorem State.pc_setPc (s : State) (v : Word) : (s.setPc v).pc = v := State.reg_setReg_self s PC v

@[simp] theorem State.pc_setSp (s : State) (v : Word) : (s.setSp v).pc = s.pc :=
  State.reg_setReg_ne s (r := SP) (q := PC) v (by decide)

@[simp] theorem State.sp_setPc (s : State) (v : Word) : (s.setPc v).sp = s.sp :=
  State.reg_setReg_ne s (r := PC) (q := SP) v (by decide)

@[simp] theorem State.sp_setCc (s : State) (k : Cc) : (s.setCc k).sp = s.sp := rfl
@[simp] theorem State.pc_setCc (s : State) (k : Cc) : (s.setCc k).pc = s.pc := rfl
@[simp] theorem State.reg_setCc (s : State) (k : Cc) (r : Reg) : (s.setCc k).reg r = s.reg r := rfl
@[simp] theorem State.sp_setPsw (s : State) (p : Byte) : (s.setPsw p).sp = s.sp := rfl
@[simp] theorem State.pc_setPsw (s : State) (p : Byte) : (s.setPsw p).pc = s.pc := rfl
@[simp] theorem State.reg_setPsw (s : State) (p : Byte) (r : Reg) : (s.setPsw p).reg r = s.reg r := rfl
@[simp] theorem State.sp_emit (s : State) (e : BusEvent) : (s.emit e).sp = s.sp := rfl
@[simp] theorem State.pc_emit (s : State) (e : BusEvent) : (s.emit e).pc = s.pc := rfl
@[simp] theorem State.reg_emit (s : State) (e : BusEvent) (r : Reg) : (s.emit e).reg r = s.reg r := rfl
@[simp] theorem State.sp_noteRead (s : State) (q : Reg) : (s.noteRead q).sp = s.sp := rfl
@[simp] theorem State.pc_noteRead (s : State) (q : Reg) : (s.noteRead q).pc = s.pc := rfl
@[simp] theorem State.reg_noteRead (s : State) (q : Reg) (r : Reg) : (s.noteRead q).reg r = s.reg r := rfl
@[simp] theorem State.cc_setReg (s : State) (r : Reg) (v : Word) : (s.setReg r v).cc = s.cc := rfl
@[simp] theorem State.cc_setRegLow (s : State) (r : Reg) (b : Byte) : (s.setRegLow r b).cc = s.cc := rfl
@[simp] theorem State.cc_setSp (s : State) (v : Word) : (s.setSp v).cc = s.cc := rfl
@[simp] theorem State.cc_setPc (s : State) (v : Word) : (s.setPc v).cc = s.cc := rfl
@[simp] theorem State.cc_emit (s : State) (e : BusEvent) : (s.emit e).cc = s.cc := rfl
@[simp] theorem State.cc_noteRead (s : State) (r : Reg) : (s.noteRead r).cc = s.cc := rfl

/-- Everything a read can do to the mark: it stays, or none becomes the register read, which is an unwritten one of R0 to
R5. -/
theorem State.markAfterRead_cases (s : State) (r : Reg) :
    s.markAfterRead r = s.unwrittenRead ∨
    (s.unwrittenRead = none ∧ r.val < 6 ∧ s.written[r] = false ∧ s.markAfterRead r = some r) := by
  unfold State.markAfterRead
  split
  · rename_i h
    simp only [Bool.and_eq_true, Option.isNone_iff_eq_none, decide_eq_true_eq, Bool.not_eq_true'] at h
    exact .inr ⟨h.1.1, h.1.2, h.2, rfl⟩
  · exact .inl rfl

/-- A recorded mark stays. -/
theorem State.markAfterRead_some {s : State} {q : Reg} (r : Reg) (h : s.unwrittenRead = some q) :
    s.markAfterRead r = some q := by
  simp [State.markAfterRead, h]

/-- A read of a written register leaves no mark. -/
theorem State.noteRead_of_written {s : State} {r : Reg} (h : s.written[r] = true) : s.noteRead r = s := by
  have e : s.markAfterRead r = s.unwrittenRead := by
    rcases s.markAfterRead_cases r with e | ⟨_, _, w, _⟩
    · exact e
    · rw [h] at w; cases w
  unfold State.noteRead
  rw [e]

/-- A read of SP or PC leaves no mark. -/
theorem State.noteRead_of_special {s : State} {r : Reg} (h : 6 ≤ r.val) : s.noteRead r = s := by
  have e : s.markAfterRead r = s.unwrittenRead := by
    rcases s.markAfterRead_cases r with e | ⟨_, l, _, _⟩
    · exact e
    · omega
  unfold State.noteRead
  rw [e]

end Sys2Proof.Machine
end

