-- ==== Sys2Proof/Laws/Frames.lean ====
section
/-! SUPPORT. Two relations between a state and a later one: `World` holds across everything the core does inside one step,
`Quiet` across bus calls, operand resolution and operand accesses. -/

namespace Sys2Proof.Machine

/-- What nothing inside an instruction or a trap entry changes, and what only grows. -/
structure World (s t : State) : Prop where
  ppc : t.ppc = s.ppc
  tstart : t.tstart = s.tstart
  pfail : t.pfail = s.pfail
  resetFault : t.resetFault = s.resetFault
  lines : t.lines = s.lines
  params : t.params = s.params
  doubleFault : s.doubleFault = true → t.doubleFault = true
  unwrittenRead : ∀ q : Reg, s.unwrittenRead = some q → t.unwrittenRead = some q
  events : s.events <:+ t.events
  written : ∀ r : Reg, s.written[r] = true → t.written[r] = true
  wf : Memory.wf s.mem → Memory.wf t.mem

/-- `World`, and the status, the execution state and the fault mark stay. -/
structure Quiet (s t : State) : Prop extends World s t where
  psw : t.psw = s.psw
  waiting : t.waiting = s.waiting
  halted : t.halted = s.halted
  sameFault : t.doubleFault = s.doubleFault

theorem World.refl (s : State) : World s s :=
  ⟨rfl, rfl, rfl, rfl, rfl, rfl, id, fun _ h => h, List.suffix_refl _, fun _ h => h, id⟩

theorem World.trans {s t u : State} (h : World s t) (k : World t u) : World s u where
  ppc := k.ppc.trans h.ppc
  tstart := k.tstart.trans h.tstart
  pfail := k.pfail.trans h.pfail
  resetFault := k.resetFault.trans h.resetFault
  lines := k.lines.trans h.lines
  params := k.params.trans h.params
  doubleFault := fun d => k.doubleFault (h.doubleFault d)
  unwrittenRead := fun q m => k.unwrittenRead q (h.unwrittenRead q m)
  events := h.events.trans k.events
  written := fun r w => k.written r (h.written r w)
  wf := fun w => k.wf (h.wf w)

theorem Quiet.refl (s : State) : Quiet s s := ⟨World.refl s, rfl, rfl, rfl, rfl⟩

theorem Quiet.trans {s t u : State} (h : Quiet s t) (k : Quiet t u) : Quiet s u :=
  ⟨h.toWorld.trans k.toWorld, k.psw.trans h.psw, k.waiting.trans h.waiting, k.halted.trans h.halted,
    k.sameFault.trans h.sameFault⟩

theorem Quiet.setReg (s : State) (r : Reg) (v : Word) : Quiet s (s.setReg r v) := by
  refine ⟨⟨rfl, rfl, rfl, rfl, rfl, rfl, id, fun _ h => h, List.suffix_refl _, fun q h => ?_, id⟩, rfl, rfl, rfl, rfl⟩
  rw [State.written_setReg]
  split
  · rfl
  · exact h

theorem Quiet.setRegLow (s : State) (r : Reg) (b : Byte) : Quiet s (s.setRegLow r b) :=
  ⟨⟨rfl, rfl, rfl, rfl, rfl, rfl, id, fun _ h => h, List.suffix_refl _, fun _ h => h, id⟩, rfl, rfl, rfl, rfl⟩

theorem Quiet.emit (s : State) (e : BusEvent) : Quiet s (s.emit e) :=
  ⟨⟨rfl, rfl, rfl, rfl, rfl, rfl, id, fun _ h => h, List.suffix_cons _ _, fun _ h => h, id⟩, rfl, rfl, rfl, rfl⟩

theorem Quiet.noteRead (s : State) (r : Reg) : Quiet s (s.noteRead r) :=
  ⟨⟨rfl, rfl, rfl, rfl, rfl, rfl, id, fun _ h => State.markAfterRead_some r h, List.suffix_refl _, fun _ h => h, id⟩,
    rfl, rfl, rfl, rfl⟩

theorem Quiet.mem (s : State) (m : Memory) (h : Memory.wf s.mem → Memory.wf m) : Quiet s { s with mem := m } :=
  ⟨⟨rfl, rfl, rfl, rfl, rfl, rfl, id, fun _ h => h, List.suffix_refl _, fun _ h => h, h⟩, rfl, rfl, rfl, rfl⟩

theorem World.setPsw (s : State) (p : Byte) : World s (s.setPsw p) :=
  ⟨rfl, rfl, rfl, rfl, rfl, rfl, id, fun _ h => h, List.suffix_refl _, fun _ h => h, id⟩

theorem World.setCc (s : State) (k : Cc) : World s (s.setCc k) :=
  ⟨rfl, rfl, rfl, rfl, rfl, rfl, id, fun _ h => h, List.suffix_refl _, fun _ h => h, id⟩

theorem World.waiting (s : State) (b : Bool) : World s { s with waiting := b } :=
  ⟨rfl, rfl, rfl, rfl, rfl, rfl, id, fun _ h => h, List.suffix_refl _, fun _ h => h, id⟩

theorem World.halted (s : State) (b : Bool) : World s { s with halted := b } :=
  ⟨rfl, rfl, rfl, rfl, rfl, rfl, id, fun _ h => h, List.suffix_refl _, fun _ h => h, id⟩

theorem World.faulted (s : State) : World s { s with halted := true, doubleFault := true } :=
  ⟨rfl, rfl, rfl, rfl, rfl, rfl, fun _ => rfl, fun _ h => h, List.suffix_refl _, fun _ h => h, id⟩

/-- The state an answer carries. -/
def Res.state {α : Type} : Res α → State
  | .ok _ s => s
  | .err s => s

@[simp] theorem Res.state_ok {α : Type} (a : α) (s : State) : (Res.ok a s).state = s := rfl

@[simp] theorem Res.state_err {α : Type} (s : State) : (Res.err s : Res α).state = s := rfl

@[simp] theorem Res.bind_ok {α β : Type} (a : α) (s : State) (f : α → State → Res β) :
    (Res.ok a s).bind f = f a s := rfl

@[simp] theorem Res.bind_err {α β : Type} (s : State) (f : α → State → Res β) :
    (Res.err s : Res α).bind f = .err s := rfl

/-- A sequence completes exactly when both of its parts do. -/
theorem Res.bind_eq_ok {α β : Type} {r : Res α} {f : α → State → Res β} {b : β} {t : State} :
    r.bind f = .ok b t ↔ ∃ a s, r = .ok a s ∧ f a s = .ok b t := by
  cases r <;> simp [Res.bind]

/-- A sequence fails where its first part fails, or where its second does. -/
theorem Res.bind_eq_err {α β : Type} {r : Res α} {f : α → State → Res β} {t : State} :
    r.bind f = .err t ↔ r = .err t ∨ ∃ a s, r = .ok a s ∧ f a s = .err t := by
  cases r <;> simp [Res.bind]

theorem World.bind {α β : Type} {s : State} {r : Res α} {f : α → State → Res β} (h : World s r.state)
    (k : ∀ a t, World t (f a t).state) : World s (r.bind f).state := by
  cases r with
  | ok a t => exact h.trans (k a t)
  | err t => exact h

theorem Quiet.bind {α β : Type} {s : State} {r : Res α} {f : α → State → Res β} (h : Quiet s r.state)
    (k : ∀ a t, Quiet t (f a t).state) : Quiet s (r.bind f).state := by
  cases r with
  | ok a t => exact h.trans (k a t)
  | err t => exact h

end Sys2Proof.Machine
end

