-- ==== Sys2Proof/Laws/Ops.lean ====
section
/-! SUPPORT. What each shared operation of Machine/Ops.lean can do: its frame on any platform, and its value on the
reference bus. -/

namespace Sys2Proof.Machine

/-! ### Frames on any platform -/

theorem deviceCall_state (e : BusEvent) (s : State) : (deviceCall e s).state = s.emit e := by
  unfold deviceCall
  split <;> rfl

theorem quiet_deviceCall (e : BusEvent) (s : State) : Quiet s (deviceCall e s).state := by
  rw [deviceCall_state]
  exact Quiet.emit s e

/-- A byte read changes at most the history. -/
theorem readByte_state (a : Word) (s : State) :
    (readByte a s).state = s ∨ (readByte a s).state = s.emit (.readByte a) := by
  unfold readByte
  split
  · exact .inl rfl
  · exact .inl rfl
  · right
    unfold deviceCall
    split <;> rfl

/-- A word read changes at most the history. -/
theorem readWord_state (a : Word) (s : State) :
    (readWord a s).state = s ∨ ∃ b, (readWord a s).state = s.emit (.readWord b) := by
  unfold readWord
  split
  · exact .inl rfl
  · split
    · exact .inl rfl
    · exact .inl rfl
    · exact .inr ⟨_, deviceCall_state _ s⟩

theorem quiet_readByte (a : Word) (s : State) : Quiet s (readByte a s).state := by
  rcases readByte_state a s with h | h <;> rw [h]
  · exact Quiet.refl s
  · exact Quiet.emit s _

theorem quiet_readWord (a : Word) (s : State) : Quiet s (readWord a s).state := by
  rcases readWord_state a s with h | ⟨b, h⟩ <;> rw [h]
  · exact Quiet.refl s
  · exact Quiet.emit s _

theorem quiet_writeByte (a : Word) (v : Byte) (s : State) : Quiet s (writeByte a v s).state := by
  unfold writeByte
  split
  · exact Quiet.mem s _ (Memory.wf_write _ _ _ a.isLt)
  · exact Quiet.refl s
  · exact Quiet.bind (quiet_deviceCall _ s) fun _ t => Quiet.refl t

/-- A word access is performed where the next address is inside the space, or at an even address. -/
theorem wordAddr_lt {p : Params} {a b : Word} (h : wordAddr p a = some b) : b.toNat + 1 < 65536 := by
  unfold wordAddr at h
  split at h
  · cases h
    exact evenAddr_lt a
  · split at h
    · cases h
    · rename_i hodd
      cases h
      have h1 : a.toNat % 2 = 0 := by
        have : a.getLsbD 0 = false := by simpa using hodd
        simp [BitVec.getLsbD, Nat.testBit_zero] at this
        omega
      have := a.isLt
      omega

theorem quiet_writeWord (a v : Word) (s : State) : Quiet s (writeWord a v s).state := by
  unfold writeWord
  split
  · exact Quiet.refl s
  · rename_i b hb
    split
    · exact Quiet.mem s _ (Memory.wf_writeWord _ _ _ (wordAddr_lt hb))
    · exact Quiet.refl s
    · exact Quiet.bind (quiet_deviceCall _ s) fun _ t => Quiet.refl t

theorem quiet_fetch (s : State) : Quiet s (fetch s).state :=
  Quiet.bind (quiet_readWord _ s) fun _ t => Quiet.setReg t PC _

theorem quiet_push (v : Word) (s : State) : Quiet s (push v s).state :=
  (Quiet.setReg s SP _).trans (quiet_writeWord _ _ _)

theorem quiet_pop (s : State) : Quiet s (pop s).state :=
  Quiet.bind (quiet_readWord _ s) fun _ t => Quiet.setReg t SP _

theorem world_trapSequence (v : Word) (s : State) : World s (trapSequence v s).state := by
  refine World.bind (quiet_push _ s).toWorld fun _ s1 => ?_
  refine World.bind (quiet_push _ s1).toWorld fun _ s2 => ?_
  refine World.bind (quiet_readWord _ s2).toWorld fun newpc s3 => ?_
  refine World.bind (quiet_readWord _ s3).toWorld fun newps s4 => ?_
  exact ((Quiet.setReg s4 PC newpc).toWorld.trans (World.setPsw _ (lo8 newps))).trans (World.waiting _ false)

/-- Taking a trap, whatever the platform. -/
theorem world_trapEntry (v : Word) (s : State) : World s (trapEntry v s) := by
  have h := world_trapSequence v s
  unfold trapEntry
  split
  · rename_i t ht
    rw [ht] at h
    exact h
  · rename_i t ht
    rw [ht] at h
    exact h.trans (World.faulted t)

theorem world_traceEnd (s : State) : World s (traceEnd s) := by
  unfold traceEnd
  split
  · exact world_trapEntry _ s
  · exact World.refl s

theorem world_returnFromTrap (s : State) : World s (returnFromTrap s).state := by
  refine World.bind (quiet_pop s).toWorld fun newpc s1 => ?_
  refine World.bind ((Quiet.setReg s1 PC newpc).trans (quiet_pop _)).toWorld fun p s2 => ?_
  exact World.setPsw s2 _

/-- Everything `retire` can answer: a next state, with the trace rule or with BusError. -/
theorem retire_cases {r : Res Unit} {t : State} (h : retire r = .next t) :
    (∃ s, r = .ok () s ∧ t = traceEnd s) ∨ (∃ s, r = .err s ∧ t = busErrorTrap s) := by
  cases r with
  | ok a s => cases h; exact .inl ⟨s, rfl, rfl⟩
  | err s => cases h; exact .inr ⟨s, rfl, rfl⟩

@[simp] theorem retire_ok (a : Unit) (s : State) : retire (.ok a s) = .next (traceEnd s) := rfl

@[simp] theorem retire_err (s : State) : retire (.err s) = .next (busErrorTrap s) := rfl

theorem world_retire {s t : State} {r : Res Unit} (h : World s r.state) (k : retire r = .next t) : World s t := by
  rcases retire_cases k with ⟨u, rfl, rfl⟩ | ⟨u, rfl, rfl⟩
  · exact h.trans (world_traceEnd u)
  · exact h.trans (world_trapEntry _ u)

@[simp] theorem traceEnd_of_false {s : State} (h : s.tstart = false) : traceEnd s = s := by
  simp [traceEnd, h]

@[simp] theorem traceEnd_of_true {s : State} (h : s.tstart = true) : traceEnd s = traceTrap s := by
  simp [traceEnd, h]

/-- A word write leaves every register and its mark. -/
theorem writeWord_regs (a v : Word) (s : State) :
    (writeWord a v s).state.regs = s.regs ∧ (writeWord a v s).state.written = s.written := by
  unfold writeWord
  split
  · exact ⟨rfl, rfl⟩
  · rename_i b _
    split
    · exact ⟨rfl, rfl⟩
    · exact ⟨rfl, rfl⟩
    · have h := deviceCall_state (.writeWord b v) s
      cases e : deviceCall (.writeWord b v) s <;> (rw [e] at h; cases h; exact ⟨rfl, rfl⟩)

/-- A word read leaves every register. -/
theorem readWord_regs (a : Word) (s : State) : (readWord a s).state.regs = s.regs := by
  rcases readWord_state a s with h | ⟨b, h⟩ <;> simp [h]

/-- A word read leaves memory. -/
theorem readWord_mem (a : Word) (s : State) : (readWord a s).state.mem = s.mem := by
  rcases readWord_state a s with h | ⟨b, h⟩ <;> simp [h]

/-- A word read changes nothing but the history. -/
theorem readWord_only_events (a : Word) (s : State) :
    (readWord a s).state = { s with events := (readWord a s).state.events } := by
  rcases readWord_state a s with h | ⟨b, h⟩
  · rw [h]
  · rw [h]; rfl

/-- The answer of a word read depends on the parameters, memory and the history alone. -/
theorem readWord_congr {a : Word} {s c : State} (hp : c.params = s.params) (hm : c.mem = s.mem)
    (he : c.events = s.events) :
    (∀ w u, readWord a s = .ok w u → readWord a c = .ok w { c with events := u.events }) ∧
    (∀ u, readWord a s = .err u → readWord a c = .err { c with events := u.events }) := by
  cases s
  cases c
  simp only at hp hm he
  subst hp hm he
  unfold readWord deviceCall
  dsimp only
  split
  · exact ⟨fun _ _ h => (nomatch h), fun _ h => by cases h; rfl⟩
  · split
    · exact ⟨fun _ _ h => by cases h; rfl, fun _ h => nomatch h⟩
    · exact ⟨fun _ _ h => (nomatch h), fun _ h => by cases h; rfl⟩
    · simp only [State.emit]
      split
      · exact ⟨fun _ _ h => by cases h; rfl, fun _ h => nomatch h⟩
      · exact ⟨fun _ _ h => (nomatch h), fun _ h => by cases h; rfl⟩

/-! ### A bus without devices -/

theorem NoDevice.of_world {s t : State} (h : NoDevice s) (k : World s t) : NoDevice t := by
  unfold NoDevice
  rw [k.params]
  exact h

theorem NoDevice.regionAt {s : State} (h : NoDevice s) (a : Word) : regionAt s.params a ≠ some .device := by
  intro e
  obtain ⟨r, hr, hk⟩ := Option.map_eq_some_iff.mp e
  exact h r (List.mem_of_find?_eq_some hr) hk

theorem NoDevice.readByte {s : State} (h : NoDevice s) (a : Word) : (readByte a s).state = s := by
  unfold Machine.readByte
  split
  · rfl
  · rfl
  · exact absurd (by assumption) (h.regionAt a)

theorem NoDevice.readWord {s : State} (h : NoDevice s) (a : Word) : (readWord a s).state = s := by
  unfold Machine.readWord
  split
  · rfl
  · split
    · rfl
    · rfl
    · exact absurd (by assumption) (h.regionAt _)

theorem NoDevice.writeByte {s : State} (h : NoDevice s) (a : Word) (v : Byte) :
    (writeByte a v s).state.events = s.events := by
  unfold Machine.writeByte
  split
  · rfl
  · rfl
  · exact absurd (by assumption) (h.regionAt a)

theorem NoDevice.writeWord {s : State} (h : NoDevice s) (a v : Word) : (writeWord a v s).state.events = s.events := by
  unfold Machine.writeWord
  split
  · rfl
  · split
    · rfl
    · rfl
    · exact absurd (by assumption) (h.regionAt _)

/-! ### Values on the reference bus -/

theorem regionAt_of_empty {p : Params} (h : p.platform = []) (a : Word) : regionAt p a = none := by
  simp [regionAt, h]

theorem wordAddr_of_align {p : Params} (h : p.oddWord = .align) (a : Word) : wordAddr p a = some (evenAddr a) := by
  simp [wordAddr, h]

theorem readByte_ref {s : State} (h : ReferenceBus s) (a : Word) : readByte a s = .ok (s.mem.read a.toNat) s := by
  simp [readByte, regionAt_of_empty h.1]

theorem readWord_ref {s : State} (h : ReferenceBus s) (a : Word) :
    readWord a s = .ok (s.mem.readWord (evenAddr a)) s := by
  simp [readWord, wordAddr_of_align h.2, regionAt_of_empty h.1]

theorem writeByte_ref {s : State} (h : ReferenceBus s) (a : Word) (v : Byte) :
    writeByte a v s = .ok () { s with mem := s.mem.write a.toNat v } := by
  simp [writeByte, regionAt_of_empty h.1]

theorem writeWord_ref {s : State} (h : ReferenceBus s) (a v : Word) :
    writeWord a v s = .ok () { s with mem := s.mem.writeWord (evenAddr a) v } := by
  simp [writeWord, wordAddr_of_align h.2, regionAt_of_empty h.1]

theorem fetch_ref {s : State} (h : ReferenceBus s) :
    fetch s = .ok (s.mem.readWord (evenAddr s.pc)) (s.setPc (s.pc + 2#16)) := by
  simp [fetch, readWord_ref h]

theorem push_ref {s : State} (h : ReferenceBus s) (v : Word) :
    push v s = .ok () { s.setSp (s.sp - 2#16) with mem := s.mem.writeWord (evenAddr (s.sp - 2#16)) v } := by
  have h' : ReferenceBus (s.setSp (s.sp - 2#16)) := h
  simp [push, writeWord_ref h']

theorem pop_ref {s : State} (h : ReferenceBus s) :
    pop s = .ok (s.mem.readWord (evenAddr s.sp)) (s.setSp (s.sp + 2#16)) := by
  simp [pop, readWord_ref h]

/-- The bus and the parameters a state has after anything inside a step. -/
theorem ReferenceBus.of_world {s t : State} (h : ReferenceBus s) (k : World s t) : ReferenceBus t := by
  unfold ReferenceBus
  rw [k.params]
  exact h

end Sys2Proof.Machine
end

