-- ==== Sys2Proof/Laws/Operands.lean ====
section
/-! SUPPORT. What the resolver and the operand accesses of Machine/Operands.lean can do: frames on any platform, and that
they complete on the reference bus. -/

namespace Sys2Proof.Machine

/-- What a resolution may change: the addressing register, pc, the mark of a read, and the history; not memory. -/
structure Resolved (o : Opnd) (s t : State) : Prop where
  quiet : Quiet s t
  mem : t.mem = s.mem
  regs : ∀ r : Reg, r ∉ steppedBy o → r ≠ PC → t.reg r = s.reg r
  marks : ∀ r : Reg, r ∉ steppedBy o → r ≠ PC → t.written[r] = s.written[r]

theorem Resolved.refl (o : Opnd) (s : State) : Resolved o s s :=
  ⟨Quiet.refl s, rfl, fun _ _ _ => rfl, fun _ _ _ => rfl⟩

theorem Resolved.trans {o : Opnd} {s t u : State} (h : Resolved o s t) (k : Resolved o t u) : Resolved o s u :=
  ⟨h.quiet.trans k.quiet, k.mem.trans h.mem, fun r a b => (k.regs r a b).trans (h.regs r a b),
    fun r a b => (k.marks r a b).trans (h.marks r a b)⟩

theorem Resolved.setBase {o : Opnd} (hb : steppedBy o = [o.reg]) (s : State) (v : Word) :
    Resolved o s (s.setReg o.reg v) :=
  ⟨Quiet.setReg s _ v, rfl, fun r h _ => State.reg_setReg_ne s v (by simpa [hb] using h),
    fun r h _ => by rw [State.written_setReg, if_neg (by simpa [hb] using h)]⟩

theorem Resolved.setPc (o : Opnd) (s : State) (v : Word) : Resolved o s (s.setPc v) :=
  ⟨Quiet.setReg s _ v, rfl, fun r _ h => State.reg_setReg_ne s v h,
    fun r _ h => by rw [State.setPc_eq, State.written_setReg, if_neg h]⟩

theorem Resolved.emit (o : Opnd) (s : State) (e : BusEvent) : Resolved o s (s.emit e) :=
  ⟨Quiet.emit s e, rfl, fun _ _ _ => rfl, fun _ _ _ => rfl⟩

theorem Resolved.noteRead (o : Opnd) (s : State) (r : Reg) : Resolved o s (s.noteRead r) :=
  ⟨Quiet.noteRead s r, rfl, fun _ _ _ => rfl, fun _ _ _ => rfl⟩

/-- A read of the base register and the step of it. -/
theorem Resolved.stepBase {o : Opnd} (hb : steppedBy o = [o.reg]) (s : State) (v : Word) :
    Resolved o s ((s.noteRead o.reg).setReg o.reg v) :=
  (Resolved.noteRead o s o.reg).trans (Resolved.setBase hb _ v)

theorem Resolved.bind {α β : Type} {o : Opnd} {s : State} {r : Res α} {f : α → State → Res β}
    (h : Resolved o s r.state) (k : ∀ a t, Resolved o t (f a t).state) : Resolved o s (r.bind f).state := by
  cases r with
  | ok a t => exact h.trans (k a t)
  | err t => exact h

theorem resolved_readWord (o : Opnd) (a : Word) (s : State) : Resolved o s (readWord a s).state := by
  rcases readWord_state a s with h | ⟨b, h⟩ <;> rw [h]
  · exact Resolved.refl o s
  · exact Resolved.emit o s _

theorem resolved_readByte (o : Opnd) (a : Word) (s : State) : Resolved o s (readByte a s).state := by
  rcases readByte_state a s with h | h <;> rw [h]
  · exact Resolved.refl o s
  · exact Resolved.emit o s _

theorem resolved_fetch (o : Opnd) (s : State) : Resolved o s (fetch s).state :=
  Resolved.bind (resolved_readWord o _ s) fun _ t => Resolved.setPc o t _

/-- The frame of a resolution, whether it completes or a bus call of it fails. -/
theorem resolved_resolve (sz : Size) (o : Opnd) (s : State) : Resolved o s (resolve sz o s).state := by
  obtain ⟨m, r⟩ := o
  cases m
  case register => exact Resolved.refl _ s
  case deferred => exact Resolved.noteRead _ s r
  case autoInc => exact Resolved.stepBase rfl s _
  case autoIncDeferred =>
    unfold resolve
    simp only
    split
    · exact Resolved.bind (resolved_fetch _ s) fun _ t => Resolved.refl _ t
    · exact Resolved.bind ((Resolved.stepBase rfl s _).trans (resolved_readWord _ _ _)) fun _ t => Resolved.refl _ t
  case autoDec => exact Resolved.stepBase rfl s _
  case autoDecDeferred =>
    exact Resolved.bind ((Resolved.stepBase rfl s _).trans (resolved_readWord _ _ _)) fun _ t => Resolved.refl _ t
  case indexed => exact Resolved.bind (resolved_fetch _ s) fun _ t => Resolved.noteRead _ t r
  case indexedDeferred =>
    exact Resolved.bind (resolved_fetch _ s) fun _ t =>
      Resolved.bind ((Resolved.noteRead _ t r).trans (resolved_readWord _ _ _)) fun _ u => Resolved.refl _ u

theorem resolved_readStream (o : Opnd) (a : Word) (s : State) : Resolved o s (readStream a s).state := by
  have h := resolved_readWord o (evenAddr a) s
  unfold readStream
  split
  · rename_i e; rw [e] at h; exact h
  · rename_i e; rw [e] at h; exact h.trans (Resolved.setPc o _ a)

theorem resolved_readOpWord (o : Opnd) (op : Operand) (s : State) : Resolved o s (readOpWord op s).state := by
  cases op
  · exact Resolved.noteRead o s _
  · exact resolved_readWord o _ s
  · exact resolved_readStream o _ s

theorem resolved_readOpByte (o : Opnd) (op : Operand) (s : State) : Resolved o s (readOpByte op s).state := by
  cases op
  · exact Resolved.noteRead o s _
  · exact resolved_readByte o _ s
  · exact Resolved.bind (resolved_readStream o _ s) fun _ t => Resolved.refl o t

theorem quiet_writeOpWord (op : Operand) (v : Word) (s : State) : Quiet s (writeOpWord op v s).state := by
  cases op
  · exact Quiet.setReg s _ v
  · exact quiet_writeWord _ v s
  · exact quiet_writeWord _ v s

theorem quiet_writeOpByte (op : Operand) (v : Byte) (s : State) : Quiet s (writeOpByte op v s).state := by
  cases op
  · exact Quiet.setRegLow s _ v
  · exact quiet_writeByte _ v s
  · exact quiet_writeByte _ v s

theorem quiet_writeOpSigned (op : Operand) (v : Byte) (s : State) : Quiet s (writeOpSigned op v s).state := by
  cases op
  · exact Quiet.setReg s _ _
  · exact quiet_writeByte _ v s
  · exact quiet_writeByte _ v s

/-- What the three kinds of access have in common. -/
structure Access.Lawful {w : Nat} (acc : Access w) : Prop where
  read : ∀ o op s, Resolved o s (acc.read op s).state
  write : ∀ op v s, Quiet s (acc.write op v s).state
  readRef : ∀ op s, ReferenceBus s → ∃ v t, acc.read op s = .ok v t
  writeRef : ∀ op v s, ReferenceBus s → ∃ t, acc.write op v s = .ok () t

theorem readOpWord_ref {s : State} (h : ReferenceBus s) (op : Operand) : ∃ v t, readOpWord op s = .ok v t := by
  cases op
  · exact ⟨_, _, rfl⟩
  · exact ⟨_, _, readWord_ref h _⟩
  · exact ⟨_, _, by simp [readOpWord, readStream, readWord_ref h]; exact ⟨rfl, rfl⟩⟩

theorem readOpByte_ref {s : State} (h : ReferenceBus s) (op : Operand) : ∃ v t, readOpByte op s = .ok v t := by
  cases op
  · exact ⟨_, _, rfl⟩
  · exact ⟨_, _, readByte_ref h _⟩
  · exact ⟨_, _, by simp [readOpByte, readStream, readWord_ref h]; exact ⟨rfl, rfl⟩⟩

theorem lawful_wordAccess : Access.Lawful wordAccess where
  read := resolved_readOpWord
  write := quiet_writeOpWord
  readRef := fun op _ h => readOpWord_ref h op
  writeRef := fun op v s h => by
    cases op
    · exact ⟨_, rfl⟩
    · exact ⟨_, writeWord_ref h _ _⟩
    · exact ⟨_, writeWord_ref h _ _⟩

theorem lawful_byteAccess : Access.Lawful byteAccess where
  read := resolved_readOpByte
  write := quiet_writeOpByte
  readRef := fun op _ h => readOpByte_ref h op
  writeRef := fun op v s h => by
    cases op
    · exact ⟨_, rfl⟩
    · exact ⟨_, writeByte_ref h _ _⟩
    · exact ⟨_, writeByte_ref h _ _⟩

theorem lawful_signedByteAccess : Access.Lawful signedByteAccess where
  read := resolved_readOpByte
  write := quiet_writeOpSigned
  readRef := fun op _ h => readOpByte_ref h op
  writeRef := fun op v s h => by
    cases op
    · exact ⟨_, rfl⟩
    · exact ⟨_, writeByte_ref h _ _⟩
    · exact ⟨_, writeByte_ref h _ _⟩

/-- A resolution completes on the reference bus. -/
theorem resolve_ref {s : State} (h : ReferenceBus s) (sz : Size) (o : Opnd) : ∃ op t, resolve sz o s = .ok op t := by
  have hb : ∀ v, ReferenceBus ((s.noteRead o.reg).setReg o.reg v) := fun _ => h
  have hp : ∀ v, ReferenceBus ((s.setPc v).noteRead o.reg) := fun _ => h
  unfold resolve
  simp only
  split
  · exact ⟨_, _, rfl⟩
  · exact ⟨_, _, rfl⟩
  · exact ⟨_, _, rfl⟩
  · split
    · rw [fetch_ref h]; exact ⟨_, _, rfl⟩
    · rw [readWord_ref (hb _)]; exact ⟨_, _, rfl⟩
  · exact ⟨_, _, rfl⟩
  · rw [readWord_ref (hb _)]; exact ⟨_, _, rfl⟩
  · rw [fetch_ref h]; exact ⟨_, _, rfl⟩
  · rw [fetch_ref h, Res.bind_ok, readWord_ref (hp _)]; exact ⟨_, _, rfl⟩

theorem ReferenceBus.of_resolved {o : Opnd} {s t : State} (h : ReferenceBus s) (k : Resolved o s t) : ReferenceBus t :=
  h.of_world k.quiet.toWorld

theorem quiet_resolve (sz : Size) (o : Opnd) (s : State) : Quiet s (resolve sz o s).state :=
  (resolved_resolve sz o s).quiet

theorem quiet_loadOp {w : Nat} {acc : Access w} (l : acc.Lawful) (o : Opnd) (s : State) :
    Quiet s (loadOp acc o s).state :=
  Quiet.bind (quiet_resolve _ o s) fun op t => (l.read o op t).quiet

theorem world_storeOp {w : Nat} {acc : Access w} (l : acc.Lawful) (v : BitVec w) (k : Cc) (o : Opnd) (s : State) :
    World s (storeOp acc v k o s).state :=
  World.bind (quiet_resolve _ o s).toWorld fun op t =>
    World.bind (l.write op v t).toWorld fun _ u => World.setCc u k

theorem world_modifyOp {w : Nat} {acc : Access w} (l : acc.Lawful) (f : Cc → BitVec w → BitVec w × Cc) (o : Opnd)
    (s : State) : World s (modifyOp acc f o s).state :=
  World.bind (quiet_resolve _ o s).toWorld fun op t =>
    World.bind (l.read o op t).quiet.toWorld fun _ u =>
      World.bind (l.write op _ u).toWorld fun _ x => World.setCc x _

theorem world_probeOp {w : Nat} {acc : Access w} (l : acc.Lawful) (f : Cc → BitVec w → Cc) (o : Opnd) (s : State) :
    World s (probeOp acc f o s).state :=
  World.bind (quiet_resolve _ o s).toWorld fun op t =>
    World.bind (l.read o op t).quiet.toWorld fun _ u => World.setCc u _

end Sys2Proof.Machine
end

