-- ==== Sys2Proof/Laws/Exec.lean ====
section
/-! SUPPORT. What any instruction can do: it answers a next state, and `World` holds between the two states. -/

namespace Sys2Proof.Machine

theorem world_moveOp {w : Nat} {acc : Access w} (l : acc.Lawful) (src dst : Opnd) (s : State) :
    World s (moveOp acc src dst s).state :=
  World.bind (quiet_loadOp l src s).toWorld fun _ t => world_storeOp l _ _ dst t

theorem world_combineOp {w : Nat} {acc : Access w} (l : acc.Lawful) (f : BitVec w → Cc → BitVec w → BitVec w × Cc)
    (src dst : Opnd) (s : State) : World s (combineOp acc f src dst s).state :=
  World.bind (quiet_loadOp l src s).toWorld fun _ t => world_modifyOp l _ dst t

theorem world_compareOp {w : Nat} {acc : Access w} (l : acc.Lawful) (f : BitVec w → Cc → BitVec w → Cc)
    (src dst : Opnd) (s : State) : World s (compareOp acc f src dst s).state :=
  World.bind (quiet_loadOp l src s).toWorld fun _ t => world_probeOp l _ dst t

theorem world_branchIf (cond : Bool) (off : BitVec 8) (s : State) : World s (branchIf cond off s).state := by
  unfold branchIf
  split
  · exact (Quiet.setReg s PC _).toWorld
  · exact World.refl s

theorem retire_next {s : State} {r : Res Unit} (h : World s r.state) : ∃ t, retire r = .next t ∧ World s t := by
  cases r with
  | ok a u => exact ⟨_, rfl, h.trans (world_traceEnd u)⟩
  | err u => exact ⟨_, rfl, h.trans (world_trapEntry _ u)⟩

theorem jmp_next (dst : Opnd) (s : State) : ∃ t, execJmp dst s = .next t ∧ World s t := by
  have h := (quiet_resolve .word dst s).toWorld
  unfold execJmp
  cases hr : resolve .word dst s with
  | err t => rw [hr] at h; exact ⟨_, rfl, h.trans (world_trapEntry _ t)⟩
  | ok op t =>
    rw [hr] at h
    simp only
    cases op.address? with
    | none => exact ⟨_, rfl, world_trapEntry _ s⟩
    | some a => exact retire_next (h.trans (Quiet.setReg t PC a).toWorld)

theorem jsr_next (r : Reg) (dst : Opnd) (s : State) : ∃ t, execJsr r dst s = .next t ∧ World s t := by
  have h := (quiet_resolve .word dst s).toWorld
  unfold execJsr
  cases hr : resolve .word dst s with
  | err t => rw [hr] at h; exact ⟨_, rfl, h.trans (world_trapEntry _ t)⟩
  | ok op t =>
    rw [hr] at h
    simp only
    cases op.address? with
    | none => exact ⟨_, rfl, world_trapEntry _ s⟩
    | some a =>
      exact retire_next (h.trans (World.bind ((Quiet.noteRead t r).trans (quiet_push _ _)).toWorld fun _ u =>
        ((Quiet.setReg u r _).trans (Quiet.setReg _ PC a)).toWorld))

theorem rti_next (s : State) : ∃ t, execRti s = .next t ∧ World s t := by
  have h := world_returnFromTrap s
  unfold execRti
  cases hr : returnFromTrap s with
  | err t => rw [hr] at h; exact ⟨_, rfl, h.trans (world_trapEntry _ t)⟩
  | ok _ t =>
    rw [hr] at h
    refine ⟨_, rfl, ?_⟩
    split
    · exact h.trans (world_trapEntry _ t)
    · exact h

theorem rtt_next (s : State) : ∃ t, execRtt s = .next t ∧ World s t := by
  have h := world_returnFromTrap s
  unfold execRtt
  cases hr : returnFromTrap s with
  | err t => rw [hr] at h; exact ⟨_, rfl, h.trans (world_trapEntry _ t)⟩
  | ok _ t => rw [hr] at h; exact ⟨_, rfl, h⟩

theorem halt_next (s : State) : ∃ t, execHalt s = .next t ∧ World s t := by
  unfold execHalt
  split
  · exact ⟨_, rfl, World.halted s true⟩
  · exact ⟨_, rfl, world_trapEntry _ s⟩

theorem rts_next (r : Reg) (s : State) : ∃ t, execRts r s = .next t ∧ World s t :=
  retire_next (((Quiet.noteRead s r).trans (Quiet.setReg _ PC _)).toWorld.trans
    (World.bind (quiet_pop _).toWorld fun v t => (Quiet.setReg t r v).toWorld))

theorem sob_next (r : Reg) (off : BitVec 6) (s : State) : ∃ t, execSob r off s = .next t ∧ World s t := by
  unfold execSob
  refine retire_next (((Quiet.noteRead s r).trans (Quiet.setReg _ r (s.reg r - 1#16))).toWorld.trans ?_)
  rw [Res.state_ok]
  split
  · exact World.refl _
  · exact (Quiet.setReg _ PC _).toWorld

theorem mtps_next (src : Opnd) (s : State) : ∃ t, execMtps src s = .next t ∧ World s t :=
  retire_next (World.bind (quiet_loadOp lawful_byteAccess src s).toWorld fun _ t => World.setPsw t _)

theorem retire_ok_next {s t : State} (h : World s t) : ∃ u, retire (.ok () t) = .next u ∧ World s u :=
  retire_next (r := .ok () t) h

/-- Every instruction answers a next state, on any platform, and nothing outside `World` can happen to it. -/
theorem exec_next (i : Instr) (s : State) : ∃ t, exec i s = .next t ∧ World s t := by
  cases i with
  | halt => exact halt_next s
  | wait => exact retire_ok_next (World.waiting s true)
  | rti => exact rti_next s
  | rtt => exact rtt_next s
  | bpt | iot | emt | trap | illegal => exact ⟨_, rfl, world_trapEntry _ s⟩
  | reset => exact retire_ok_next (Quiet.emit s _).toWorld
  | jmp dst => exact jmp_next dst s
  | jsr r dst => exact jsr_next r dst s
  | rts r => exact rts_next r s
  | sob r off => exact sob_next r off s
  | clcc m => exact retire_ok_next (World.setPsw s _)
  | secc m => exact retire_ok_next (World.setPsw s _)
  | mtps src => exact mtps_next src s
  | br | bne | beq | bge | blt | bgt | ble | bpl | bmi | bhi | blos | bvc | bvs | bcc | bcs =>
    exact retire_next (world_branchIf _ _ s)
  | mov src dst => exact retire_next (world_moveOp lawful_wordAccess src dst s)
  | movb src dst => exact retire_next (world_moveOp lawful_signedByteAccess src dst s)
  | cmp src dst | bit src dst => exact retire_next (world_compareOp lawful_wordAccess _ src dst s)
  | cmpb src dst | bitb src dst => exact retire_next (world_compareOp lawful_byteAccess _ src dst s)
  | bic src dst | bis src dst | add src dst | sub src dst =>
    exact retire_next (world_combineOp lawful_wordAccess _ src dst s)
  | bicb src dst | bisb src dst => exact retire_next (world_combineOp lawful_byteAccess _ src dst s)
  | clr dst | sxt dst => exact retire_next (world_storeOp lawful_wordAccess _ _ dst s)
  | clrb dst => exact retire_next (world_storeOp lawful_byteAccess _ _ dst s)
  | mfps dst => exact retire_next (world_storeOp lawful_signedByteAccess _ _ dst s)
  | tst dst => exact retire_next (world_probeOp lawful_wordAccess _ dst s)
  | tstb dst => exact retire_next (world_probeOp lawful_byteAccess _ dst s)
  | xor r dst => exact retire_next ((Quiet.noteRead s r).toWorld.trans (world_modifyOp lawful_wordAccess _ dst _))
  | com dst | inc dst | dec dst | neg dst | adc dst | sbc dst | ror dst | rol dst | asr dst | asl dst | swab dst =>
    exact retire_next (world_modifyOp lawful_wordAccess _ dst s)
  | comb dst | incb dst | decb dst | negb dst | adcb dst | sbcb dst | rorb dst | rolb dst | asrb dst | aslb dst =>
    exact retire_next (world_modifyOp lawful_byteAccess _ dst s)

theorem world_exec {i : Instr} {s t : State} (h : exec i s = .next t) : World s t := by
  obtain ⟨u, hu, w⟩ := exec_next i s
  rw [hu] at h
  cases h
  exact w

end Sys2Proof.Machine
end

