-- ==== Sys2Proof/Laws/Marks.lean ====
section
/-! SUPPORT. Which registers the resolver and the operand accesses can leave the mark UnwrittenRegister for: the marks are
part of the frame of an instruction. -/

namespace Sys2Proof.Machine

theorem NotesOnly.refl (regs : List Reg) (s : State) : NotesOnly regs s s := .inl rfl

theorem NotesOnly.of_eq (regs : List Reg) {s t : State} (h : t.unwrittenRead = s.unwrittenRead) : NotesOnly regs s t :=
  .inl h

/-- The reads of a sequence are those of its parts; a register that is unwritten later was unwritten before. -/
theorem NotesOnly.trans {l m : List Reg} {s t u : State} (w : Quiet s t) (h : NotesOnly l s t) (k : NotesOnly m t u) :
    NotesOnly (l ++ m) s u := by
  rcases k with e | ⟨n, q, hq, hl, hw, e⟩
  · rcases h with f | ⟨n, q, hq, hl, hw, f⟩
    · exact .inl (e.trans f)
    · exact .inr ⟨n, q, List.mem_append_left m hq, hl, hw, e.trans f⟩
  · have none' : s.unwrittenRead = none := by
      cases hs : s.unwrittenRead with
      | none => rfl
      | some p => rw [w.unwrittenRead p hs] at n; cases n
    have unwritten : s.written[q] = false := by
      cases hs : s.written[q] with
      | false => rfl
      | true => rw [w.written q hs] at hw; cases hw
    exact .inr ⟨none', q, List.mem_append_right l hq, hl, unwritten, e⟩

theorem NotesOnly.mono {l m : List Reg} {s t : State} (h : NotesOnly l s t) (k : ∀ q ∈ l, q ∈ m) : NotesOnly m s t := by
  rcases h with e | ⟨n, q, hq, r⟩
  · exact .inl e
  · exact .inr ⟨n, q, k q hq, r⟩

/-- A sequence notes what its parts note. -/
theorem NotesOnly.bind {α β : Type} {l m : List Reg} {s : State} {r : Res α} {f : α → State → Res β}
    (q : Quiet s r.state) (h : NotesOnly l s r.state) (k : ∀ a t, r = .ok a t → NotesOnly m t (f a t).state) :
    NotesOnly (l ++ m) s (r.bind f).state := by
  cases r with
  | ok a t => exact NotesOnly.trans q h (k a t rfl)
  | err t => exact h.mono fun _ hq => List.mem_append_left m hq

/-- A read notes the register read. -/
theorem notesOnly_noteRead (s : State) (r : Reg) : NotesOnly [r] s (s.noteRead r) := by
  rcases s.markAfterRead_cases r with e | ⟨n, l, w, e⟩
  · exact .inl e
  · exact .inr ⟨n, r, List.mem_singleton.mpr rfl, l, w, e⟩

theorem notesOnly_readWord (regs : List Reg) (a : Word) (s : State) : NotesOnly regs s (readWord a s).state := by
  rcases readWord_state a s with h | ⟨b, h⟩ <;> exact .inl (by simp [h])

theorem notesOnly_readByte (regs : List Reg) (a : Word) (s : State) : NotesOnly regs s (readByte a s).state := by
  rcases readByte_state a s with h | h <;> exact .inl (by simp [h])

theorem notesOnly_fetch (regs : List Reg) (s : State) : NotesOnly regs s (fetch s).state := by
  have h := notesOnly_readWord regs (evenAddr s.pc) s
  unfold fetch
  cases e : readWord (evenAddr s.pc) s <;> rw [e] at h <;> exact h

/-- A resolution notes the addressing register, and nothing in register mode. -/
theorem notesOnly_resolve (sz : Size) (o : Opnd) (s : State) : NotesOnly (storeReads o) s (resolve sz o s).state := by
  obtain ⟨m, r⟩ := o
  have step : ∀ v, NotesOnly [r] s ((s.noteRead r).setReg r v) := fun _ => notesOnly_noteRead s r
  have walk : ∀ a v, NotesOnly [r] s (readWord a ((s.noteRead r).setReg r v)).state := fun a v => by
    rcases readWord_state a ((s.noteRead r).setReg r v) with h | ⟨b, h⟩ <;> rw [h] <;> exact step v
  have fetched : ∀ {d t}, fetch s = .ok d t → Quiet s t ∧ NotesOnly [] s t := fun {d t} h => by
    have q := quiet_fetch s
    have n := notesOnly_fetch [] s
    rw [h] at q n
    exact ⟨q, n⟩
  cases m
  case register => exact .inl rfl
  case deferred => exact notesOnly_noteRead s r
  case autoInc => exact step _
  case autoIncDeferred =>
    unfold resolve
    simp only
    split
    · have n := notesOnly_fetch [r] s
      cases e : fetch s <;> rw [e] at n <;> exact n
    · have n := walk (s.reg r) (s.reg r + 2#16)
      cases e : readWord (s.reg r) ((s.noteRead r).setReg r (s.reg r + 2#16)) <;> rw [e] at n <;> exact n
  case autoDec => exact step _
  case autoDecDeferred =>
    have n := walk (s.reg r - 2#16) (s.reg r - 2#16)
    unfold resolve
    simp only
    cases e : readWord (s.reg r - 2#16) ((s.noteRead r).setReg r (s.reg r - 2#16)) <;> rw [e] at n <;> exact n
  case indexed =>
    unfold resolve
    simp only
    cases e : fetch s with
    | err t => have n := notesOnly_fetch [r] s; rw [e] at n; exact n
    | ok d t => exact (fetched e).2.trans (fetched e).1 (notesOnly_noteRead t r)
  case indexedDeferred =>
    unfold resolve
    simp only
    cases e : fetch s with
    | err t => have n := notesOnly_fetch [r] s; rw [e] at n; exact n
    | ok d t =>
      have n : NotesOnly [r] t (readWord (t.reg r + d) (t.noteRead r)).state := by
        rcases readWord_state (t.reg r + d) (t.noteRead r) with h | ⟨b, h⟩ <;> rw [h] <;> exact notesOnly_noteRead t r
      rw [Res.bind_ok]
      cases f : readWord (t.reg r + d) (t.noteRead r) <;> rw [f] at n <;> exact (fetched e).2.trans (fetched e).1 n

theorem notesOnly_deviceCall (regs : List Reg) (e : BusEvent) (s : State) :
    NotesOnly regs s (deviceCall e s).state := .inl (by rw [deviceCall_state]; rfl)

theorem notesOnly_writeByte (regs : List Reg) (a : Word) (v : Byte) (s : State) :
    NotesOnly regs s (writeByte a v s).state := by
  unfold writeByte
  split
  · exact .inl rfl
  · exact .inl rfl
  · have n := notesOnly_deviceCall regs (.writeByte a v) s
    cases e : deviceCall (.writeByte a v) s <;> rw [e] at n <;> exact n

theorem notesOnly_writeWord (regs : List Reg) (a v : Word) (s : State) :
    NotesOnly regs s (writeWord a v s).state := by
  unfold writeWord
  split
  · exact .inl rfl
  · rename_i b _
    split
    · exact .inl rfl
    · exact .inl rfl
    · have n := notesOnly_deviceCall regs (.writeWord b v) s
      cases e : deviceCall (.writeWord b v) s <;> rw [e] at n <;> exact n

theorem notesOnly_readStream (regs : List Reg) (a : Word) (s : State) : NotesOnly regs s (readStream a s).state := by
  have n := notesOnly_readWord regs (evenAddr a) s
  unfold readStream
  cases e : readWord (evenAddr a) s <;> rw [e] at n <;> exact n

/-- The registers whose read an access to this operand notes. -/
def Operand.reads : Operand → List Reg
  | .reg r => [r]
  | .mem _ | .stream _ => []

/-- What the three kinds of access note: a read its register operand, a write nothing. -/
structure Access.Notes {w : Nat} (acc : Access w) : Prop where
  read : ∀ op s, NotesOnly op.reads s (acc.read op s).state
  write : ∀ op v s, NotesOnly [] s (acc.write op v s).state

theorem notesOnly_readOpWord (op : Operand) (s : State) : NotesOnly op.reads s (readOpWord op s).state := by
  cases op with
  | reg r => exact notesOnly_noteRead s r
  | mem a => exact notesOnly_readWord _ a s
  | stream a => exact notesOnly_readStream _ a s

theorem notesOnly_readOpByte (op : Operand) (s : State) : NotesOnly op.reads s (readOpByte op s).state := by
  cases op with
  | reg r => exact notesOnly_noteRead s r
  | mem a => exact notesOnly_readByte _ a s
  | stream a =>
    have n := notesOnly_readStream [] a s
    unfold readOpByte
    simp only
    cases e : readStream a s <;> rw [e] at n <;> exact n

theorem notes_wordAccess : Access.Notes wordAccess where
  read := notesOnly_readOpWord
  write := fun op v s => by
    cases op with
    | reg r => exact .inl rfl
    | mem a | stream a => exact notesOnly_writeWord _ a v s

theorem notes_byteAccess : Access.Notes byteAccess where
  read := notesOnly_readOpByte
  write := fun op v s => by
    cases op with
    | reg r => exact .inl rfl
    | mem a | stream a => exact notesOnly_writeByte _ a v s

theorem notes_signedByteAccess : Access.Notes signedByteAccess where
  read := notesOnly_readOpByte
  write := fun op v s => by
    cases op with
    | reg r => exact .inl rfl
    | mem a | stream a => exact notesOnly_writeByte _ a v s

/-- What a resolution and the read of its operand note between them: the operand's register, in every mode. -/
theorem resolve_reads {sz : Size} {o : Opnd} {s t : State} {op : Operand} (h : resolve sz o s = .ok op t) :
    ∀ q ∈ storeReads o ++ op.reads, q ∈ loadReads o := by
  obtain ⟨m, r⟩ := o
  have base : op.reads = [] ∨ op.reads = [r] := by
    cases m
    case register => cases h; exact .inr rfl
    case deferred | autoDec => cases h; exact .inl rfl
    case autoInc =>
      cases h
      simp only
      split <;> exact .inl rfl
    case autoIncDeferred =>
      unfold resolve at h
      simp only at h
      split at h <;> obtain ⟨p, u, _, hu⟩ := Res.bind_eq_ok.mp h <;> cases hu <;> exact .inl rfl
    case autoDecDeferred =>
      obtain ⟨p, u, _, hu⟩ := Res.bind_eq_ok.mp h
      cases hu
      exact .inl rfl
    case indexed =>
      obtain ⟨p, u, _, hu⟩ := Res.bind_eq_ok.mp h
      cases hu
      exact .inl rfl
    case indexedDeferred =>
      obtain ⟨p, u, _, hu⟩ := Res.bind_eq_ok.mp h
      obtain ⟨d, x, _, hx⟩ := Res.bind_eq_ok.mp hu
      cases hx
      exact .inl rfl
  intro q hq
  unfold storeReads loadReads at *
  rcases base with e | e <;> rw [e] at hq <;> split at hq <;> simp_all

theorem storeReads_subset (o : Opnd) : ∀ q ∈ storeReads o, q ∈ loadReads o := by
  intro q hq
  unfold storeReads at hq
  unfold loadReads
  split at hq <;> simp_all

/-- An operand resolved, its read, and what follows that notes nothing. -/
theorem notesOnly_read {w : Nat} {α : Type} {acc : Access w} (n : acc.Notes) (l : acc.Lawful) (o : Opnd) (s : State)
    {f : Operand → BitVec w → State → Res α} (k : ∀ op v t, NotesOnly [] t (f op v t).state) :
    NotesOnly (loadReads o) s ((resolve acc.size o s).bind fun op t => (acc.read op t).bind (f op)).state := by
  have h := notesOnly_resolve acc.size o s
  have q := quiet_resolve acc.size o s
  cases e : resolve acc.size o s with
  | err t =>
    rw [e] at h
    exact h.mono (storeReads_subset o)
  | ok op t =>
    rw [e] at h q
    have r := NotesOnly.bind (l.read o op t).quiet (n.read op t) fun v u _ => k op v u
    rw [List.append_nil] at r
    exact (h.trans q r).mono (resolve_reads e)

/-- A loaded operand notes its register. -/
theorem notesOnly_loadOp {w : Nat} {acc : Access w} (n : acc.Notes) (o : Opnd) (s : State) :
    NotesOnly (loadReads o) s (loadOp acc o s).state := by
  have h := notesOnly_resolve acc.size o s
  have q := quiet_resolve acc.size o s
  unfold loadOp
  cases e : resolve acc.size o s with
  | err t =>
    rw [e] at h
    exact h.mono (storeReads_subset o)
  | ok op t =>
    rw [e] at h q
    exact (h.trans q (n.read op t)).mono (resolve_reads e)

/-- A write and the flags after it note nothing. -/
theorem notesOnly_write {w : Nat} {acc : Access w} (n : acc.Notes) (op : Operand) (v : BitVec w) (k : Cc) (s : State) :
    NotesOnly [] s ((acc.write op v s).bind fun _ u => .ok () (u.setCc k)).state := by
  have h := n.write op v s
  cases e : acc.write op v s <;> rw [e] at h <;> exact h

/-- A destination that is only written notes its addressing register. -/
theorem notesOnly_storeOp {w : Nat} {acc : Access w} (n : acc.Notes) (v : BitVec w) (k : Cc) (o : Opnd) (s : State) :
    NotesOnly (storeReads o) s (storeOp acc v k o s).state := by
  have h := NotesOnly.bind (quiet_resolve acc.size o s) (notesOnly_resolve acc.size o s) fun op t _ =>
    notesOnly_write n op v k t
  rw [List.append_nil] at h
  exact h

/-- A destination that is read and written notes its register. -/
theorem notesOnly_modifyOp {w : Nat} {acc : Access w} (n : acc.Notes) (l : acc.Lawful)
    (f : Cc → BitVec w → BitVec w × Cc) (o : Opnd) (s : State) :
    NotesOnly (loadReads o) s (modifyOp acc f o s).state :=
  notesOnly_read n l o s fun op v t => notesOnly_write n op (f t.cc v).1 (f t.cc v).2 t

/-- A destination that is only read notes its register. -/
theorem notesOnly_probeOp {w : Nat} {acc : Access w} (n : acc.Notes) (l : acc.Lawful) (f : Cc → BitVec w → Cc) (o : Opnd)
    (s : State) : NotesOnly (loadReads o) s (probeOp acc f o s).state :=
  notesOnly_read n l o s fun _ _ _ => .inl rfl

theorem notesOnly_push (regs : List Reg) (v : Word) (s : State) : NotesOnly regs s (push v s).state :=
  NotesOnly.trans (l := []) (Quiet.setReg s SP _) (.inl rfl)
    (notesOnly_writeWord regs (s.setSp (s.sp - 2#16)).sp v (s.setSp (s.sp - 2#16)))

theorem notesOnly_pop (regs : List Reg) (s : State) : NotesOnly regs s (pop s).state := by
  have h := notesOnly_readWord regs s.sp s
  unfold pop
  cases e : readWord s.sp s <;> rw [e] at h <;> exact h

/-- The mark stays where nothing is noted. -/
theorem NotesOnly.eq {s t : State} (h : NotesOnly [] s t) : t.unwrittenRead = s.unwrittenRead := by
  rcases h with e | ⟨_, q, hq, _⟩
  · exact e
  · cases hq

/-- A trap entry leaves the mark. -/
theorem trapEntry_unwrittenRead (v : Word) (s : State) : (trapEntry v s).unwrittenRead = s.unwrittenRead := by
  have h : NotesOnly [] s (trapSequence v s).state :=
    NotesOnly.bind (l := []) (m := []) (quiet_push _ s) (notesOnly_push _ _ s) fun _ s1 _ =>
    NotesOnly.bind (l := []) (m := []) (quiet_push _ s1) (notesOnly_push _ _ s1) fun _ s2 _ =>
    NotesOnly.bind (l := []) (m := []) (quiet_readWord _ s2) (notesOnly_readWord _ _ s2) fun _ s3 _ =>
    NotesOnly.bind (l := []) (m := []) (quiet_readWord _ s3) (notesOnly_readWord _ _ s3) fun _ _ _ => .inl rfl
  unfold trapEntry
  cases e : trapSequence v s <;> rw [e] at h <;> exact h.eq

end Sys2Proof.Machine
end

