-- ==== Sys2Proof/Laws/PerInstr.lean ====
section
/-! SUPPORT. Per-instruction statements: the opcode word of an instruction carries the fixed bits of a row of
spec/opcode_table.json with its mnemonic. -/

namespace Sys2Proof.Laws.EncodesInRow

/-- The rows of spec/opcode_table.json for an instruction's mnemonic: mask and match. -/
def rows : Instr → List (Word × Word)
  | .halt => [(0xFFFF#16, 0x0000#16)]
  | .wait => [(0xFFFF#16, 0x0001#16)]
  | .rti => [(0xFFFF#16, 0x0002#16)]
  | .bpt => [(0xFFFF#16, 0x0003#16)]
  | .iot => [(0xFFFF#16, 0x0004#16)]
  | .reset => [(0xFFFF#16, 0x0005#16)]
  | .rtt => [(0xFFFF#16, 0x0006#16)]
  | .jmp _ => [(0xFFC0#16, 0x0040#16)]
  | .rts _ => [(0xFFF8#16, 0x0080#16)]
  | .clcc _ => [(0xFFF0#16, 0x00A0#16)]
  | .secc _ => [(0xFFF0#16, 0x00B0#16)]
  | .swab _ => [(0xFFC0#16, 0x00C0#16)]
  | .br _ => [(0xFF00#16, 0x0100#16)]
  | .bne _ => [(0xFF00#16, 0x0200#16)]
  | .beq _ => [(0xFF00#16, 0x0300#16)]
  | .bge _ => [(0xFF00#16, 0x0400#16)]
  | .blt _ => [(0xFF00#16, 0x0500#16)]
  | .bgt _ => [(0xFF00#16, 0x0600#16)]
  | .ble _ => [(0xFF00#16, 0x0700#16)]
  | .jsr _ _ => [(0xFE00#16, 0x0800#16)]
  | .clr _ => [(0xFFC0#16, 0x0A00#16)]
  | .com _ => [(0xFFC0#16, 0x0A40#16)]
  | .inc _ => [(0xFFC0#16, 0x0A80#16)]
  | .dec _ => [(0xFFC0#16, 0x0AC0#16)]
  | .neg _ => [(0xFFC0#16, 0x0B00#16)]
  | .adc _ => [(0xFFC0#16, 0x0B40#16)]
  | .sbc _ => [(0xFFC0#16, 0x0B80#16)]
  | .tst _ => [(0xFFC0#16, 0x0BC0#16)]
  | .ror _ => [(0xFFC0#16, 0x0C00#16)]
  | .rol _ => [(0xFFC0#16, 0x0C40#16)]
  | .asr _ => [(0xFFC0#16, 0x0C80#16)]
  | .asl _ => [(0xFFC0#16, 0x0CC0#16)]
  | .sxt _ => [(0xFFC0#16, 0x0DC0#16)]
  | .mov _ _ => [(0xF000#16, 0x1000#16)]
  | .cmp _ _ => [(0xF000#16, 0x2000#16)]
  | .bit _ _ => [(0xF000#16, 0x3000#16)]
  | .bic _ _ => [(0xF000#16, 0x4000#16)]
  | .bis _ _ => [(0xF000#16, 0x5000#16)]
  | .add _ _ => [(0xF000#16, 0x6000#16)]
  | .xor _ _ => [(0xFE00#16, 0x7800#16)]
  | .sob _ _ => [(0xFE00#16, 0x7E00#16)]
  | .bpl _ => [(0xFF00#16, 0x8000#16)]
  | .bmi _ => [(0xFF00#16, 0x8100#16)]
  | .bhi _ => [(0xFF00#16, 0x8200#16)]
  | .blos _ => [(0xFF00#16, 0x8300#16)]
  | .bvc _ => [(0xFF00#16, 0x8400#16)]
  | .bvs _ => [(0xFF00#16, 0x8500#16)]
  | .bcc _ => [(0xFF00#16, 0x8600#16)]
  | .bcs _ => [(0xFF00#16, 0x8700#16)]
  | .emt _ => [(0xFF00#16, 0x8800#16)]
  | .trap _ => [(0xFF00#16, 0x8900#16)]
  | .clrb _ => [(0xFFC0#16, 0x8A00#16)]
  | .comb _ => [(0xFFC0#16, 0x8A40#16)]
  | .incb _ => [(0xFFC0#16, 0x8A80#16)]
  | .decb _ => [(0xFFC0#16, 0x8AC0#16)]
  | .negb _ => [(0xFFC0#16, 0x8B00#16)]
  | .adcb _ => [(0xFFC0#16, 0x8B40#16)]
  | .sbcb _ => [(0xFFC0#16, 0x8B80#16)]
  | .tstb _ => [(0xFFC0#16, 0x8BC0#16)]
  | .rorb _ => [(0xFFC0#16, 0x8C00#16)]
  | .rolb _ => [(0xFFC0#16, 0x8C40#16)]
  | .asrb _ => [(0xFFC0#16, 0x8C80#16)]
  | .aslb _ => [(0xFFC0#16, 0x8CC0#16)]
  | .mtps _ => [(0xFFC0#16, 0x8D00#16)]
  | .mfps _ => [(0xFFC0#16, 0x8DC0#16)]
  | .movb _ _ => [(0xF000#16, 0x9000#16)]
  | .cmpb _ _ => [(0xF000#16, 0xA000#16)]
  | .bitb _ _ => [(0xF000#16, 0xB000#16)]
  | .bicb _ _ => [(0xF000#16, 0xC000#16)]
  | .bisb _ _ => [(0xF000#16, 0xD000#16)]
  | .sub _ _ => [(0xF000#16, 0xE000#16)]
  | .illegal _ =>
    [(0xFFFF#16, 0x0007#16), (0xFFF8#16, 0x0008#16), (0xFFF0#16, 0x0010#16), (0xFFE0#16, 0x0020#16),
     (0xFFF8#16, 0x0088#16), (0xFFF8#16, 0x0090#16), (0xFFF8#16, 0x0098#16), (0xFF80#16, 0x0D00#16),
     (0xFFC0#16, 0x0D80#16), (0xFE00#16, 0x0E00#16), (0xF800#16, 0x7000#16), (0xFE00#16, 0x7A00#16),
     (0xFE00#16, 0x7C00#16), (0xFFC0#16, 0x8D40#16), (0xFFC0#16, 0x8D80#16), (0xFE00#16, 0x8E00#16),
     (0xF000#16, 0xF000#16)]

/-- A well-formed instruction's word has the fixed bits of a row of its mnemonic. -/
def Statement (i : Instr) : Prop := i.wellFormed = true → ∃ r ∈ rows i, encode i &&& r.1 = r.2

theorem keep_high (code low k : Nat) (h : low < 2 ^ k) :
    BitVec.ofNat 16 (code * 2 ^ k + low) &&& (BitVec.allOnes 16 <<< k) = BitVec.ofNat 16 (code * 2 ^ k) := by
  apply BitVec.eq_of_getLsbD_eq
  intro i hi
  rw [BitVec.getLsbD_and, BitVec.getLsbD_shiftLeft, BitVec.getLsbD_allOnes, BitVec.getLsbD_ofNat, BitVec.getLsbD_ofNat,
    Nat.mul_comm code, Nat.testBit_two_pow_mul_add _ h, Nat.testBit_two_pow_mul]
  by_cases hk : i < k
  · simp [hk]
  · have h2 : i - k < 16 := by omega
    simp [hk, hi, h2, Nat.not_lt.1 hk]

theorem field_lt (o : Opnd) : o.field < 64 := by
  obtain ⟨m, r⟩ := o
  have := r.isLt
  cases m <;> simp [Opnd.field, Mode.number] <;> omega

theorem one_row {i : Instr} {mask bits : Word} {code low k : Nat} (hr : rows i = [(mask, bits)])
    (he : encode i = BitVec.ofNat 16 (code * 2 ^ k + low)) (hl : low < 2 ^ k) (hm : mask = BitVec.allOnes 16 <<< k)
    (hb : bits = BitVec.ofNat 16 (code * 2 ^ k)) : Statement i := by
  intro _
  refine ⟨(mask, bits), by simp [hr], ?_⟩
  rw [he, hm, hb]
  exact keep_high code low k hl

theorem sop {i : Instr} {mask bits : Word} {code : Nat} {d : Opnd} (hr : rows i = [(mask, bits)])
    (he : encode i = sopWord code d) (hm : mask = 0xFFC0#16) (hb : bits = BitVec.ofNat 16 (code * 2 ^ 6)) : Statement i :=
  one_row hr (he.trans rfl) (field_lt d) (hm.trans (by decide)) hb

theorem dop {i : Instr} {mask bits : Word} {code : Nat} {s d : Opnd} (hr : rows i = [(mask, bits)])
    (he : encode i = dopWord code s d) (hm : mask = 0xF000#16) (hb : bits = BitVec.ofNat 16 (code * 2 ^ 12)) :
    Statement i := by
  have h1 := field_lt s
  have h2 := field_lt d
  exact one_row (low := s.field * 64 + d.field) (k := 12) hr (he.trans (congrArg (BitVec.ofNat 16) (Nat.add_assoc _ _ _))) (by omega)
    (hm.trans (by decide)) hb

theorem rdd {i : Instr} {mask bits : Word} {code : Nat} {r : Reg} {d : Opnd} (hr : rows i = [(mask, bits)])
    (he : encode i = rddWord code r d) (hm : mask = 0xFE00#16) (hb : bits = BitVec.ofNat 16 (code * 2 ^ 9)) :
    Statement i := by
  have h1 := r.isLt
  have h2 := field_lt d
  exact one_row (low := r.val * 64 + d.field) (k := 9) hr (he.trans (congrArg (BitVec.ofNat 16) (Nat.add_assoc _ _ _))) (by omega)
    (hm.trans (by decide)) hb

theorem low8 {i : Instr} {mask bits : Word} {code : Nat} {b : BitVec 8} (hr : rows i = [(mask, bits)])
    (he : encode i = byteWord code b) (hm : mask = 0xFF00#16) (hb : bits = BitVec.ofNat 16 (code * 2 ^ 8)) : Statement i :=
  one_row hr (he.trans rfl) b.isLt (hm.trans (by decide)) hb

theorem low4 {i : Instr} {mask bits : Word} {code : Nat} {m : BitVec 4} (hr : rows i = [(mask, bits)])
    (he : encode i = ccWord code m) (hm : mask = 0xFFF0#16) (hb : bits = BitVec.ofNat 16 (code * 2 ^ 4)) : Statement i :=
  one_row hr (he.trans rfl) m.isLt (hm.trans (by decide)) hb

theorem whole {i : Instr} {bits : Word} (hr : rows i = [(0xFFFF#16, bits)]) (he : encode i = bits) : Statement i := by
  intro _
  refine ⟨_, by rw [hr]; exact List.mem_singleton_self _, ?_⟩
  rw [he]
  exact BitVec.and_allOnes

theorem block (w : Word) (q k : Nat) (h : w.toNat / 2 ^ k = q) :
    w &&& (BitVec.allOnes 16 <<< k) = BitVec.ofNat 16 (q * 2 ^ k) := by
  have e : w = BitVec.ofNat 16 (q * 2 ^ k + w.toNat % 2 ^ k) := by
    apply BitVec.eq_of_toNat_eq
    have h2 := Nat.div_add_mod' w.toNat (2 ^ k)
    rw [h] at h2
    simp only [BitVec.toNat_ofNat, h2]
    exact (Nat.mod_eq_of_lt w.isLt).symm
  rw [e]
  exact keep_high q _ k (Nat.mod_lt _ (Nat.two_pow_pos k))

theorem halt : Statement (.halt) := whole rfl rfl

theorem wait : Statement (.wait) := whole rfl rfl

theorem rti : Statement (.rti) := whole rfl rfl

theorem bpt : Statement (.bpt) := whole rfl rfl

theorem iot : Statement (.iot) := whole rfl rfl

theorem reset : Statement (.reset) := whole rfl rfl

theorem rtt : Statement (.rtt) := whole rfl rfl

theorem jmp (dst : Opnd) : Statement (.jmp dst) := sop rfl rfl rfl rfl

theorem rts (r : Reg) : Statement (.rts r) := one_row (code := 0x10) (k := 3) rfl rfl r.isLt (by decide) (by decide)

theorem clcc (m : BitVec 4) : Statement (.clcc m) := low4 rfl rfl rfl rfl

theorem secc (m : BitVec 4) : Statement (.secc m) := low4 rfl rfl rfl rfl

theorem swab (dst : Opnd) : Statement (.swab dst) := sop rfl rfl rfl rfl

theorem br (off : BitVec 8) : Statement (.br off) := low8 rfl rfl rfl rfl

theorem bne (off : BitVec 8) : Statement (.bne off) := low8 rfl rfl rfl rfl

theorem beq (off : BitVec 8) : Statement (.beq off) := low8 rfl rfl rfl rfl

theorem bge (off : BitVec 8) : Statement (.bge off) := low8 rfl rfl rfl rfl

theorem blt (off : BitVec 8) : Statement (.blt off) := low8 rfl rfl rfl rfl

theorem bgt (off : BitVec 8) : Statement (.bgt off) := low8 rfl rfl rfl rfl

theorem ble (off : BitVec 8) : Statement (.ble off) := low8 rfl rfl rfl rfl

theorem jsr (r : Reg) (dst : Opnd) : Statement (.jsr r dst) := rdd rfl rfl rfl rfl

theorem clr (dst : Opnd) : Statement (.clr dst) := sop rfl rfl rfl rfl

theorem com (dst : Opnd) : Statement (.com dst) := sop rfl rfl rfl rfl

theorem inc (dst : Opnd) : Statement (.inc dst) := sop rfl rfl rfl rfl

theorem dec (dst : Opnd) : Statement (.dec dst) := sop rfl rfl rfl rfl

theorem neg (dst : Opnd) : Statement (.neg dst) := sop rfl rfl rfl rfl

theorem adc (dst : Opnd) : Statement (.adc dst) := sop rfl rfl rfl rfl

theorem sbc (dst : Opnd) : Statement (.sbc dst) := sop rfl rfl rfl rfl

theorem tst (dst : Opnd) : Statement (.tst dst) := sop rfl rfl rfl rfl

theorem ror (dst : Opnd) : Statement (.ror dst) := sop rfl rfl rfl rfl

theorem rol (dst : Opnd) : Statement (.rol dst) := sop rfl rfl rfl rfl

theorem asr (dst : Opnd) : Statement (.asr dst) := sop rfl rfl rfl rfl

theorem asl (dst : Opnd) : Statement (.asl dst) := sop rfl rfl rfl rfl

theorem sxt (dst : Opnd) : Statement (.sxt dst) := sop rfl rfl rfl rfl

theorem mov (src dst : Opnd) : Statement (.mov src dst) := dop rfl rfl rfl rfl

theorem cmp (src dst : Opnd) : Statement (.cmp src dst) := dop rfl rfl rfl rfl

theorem bit (src dst : Opnd) : Statement (.bit src dst) := dop rfl rfl rfl rfl

theorem bic (src dst : Opnd) : Statement (.bic src dst) := dop rfl rfl rfl rfl

theorem bis (src dst : Opnd) : Statement (.bis src dst) := dop rfl rfl rfl rfl

theorem add (src dst : Opnd) : Statement (.add src dst) := dop rfl rfl rfl rfl

theorem xor (r : Reg) (dst : Opnd) : Statement (.xor r dst) := rdd rfl rfl rfl rfl

theorem sob (r : Reg) (off : BitVec 6) : Statement (.sob r off) := by
  have h1 := r.isLt
  have h2 := off.isLt
  exact one_row (code := 0o077) (low := r.val * 64 + off.toNat) (k := 9) rfl
    (congrArg (BitVec.ofNat 16) (Nat.add_assoc _ _ _)) (by omega) (by decide) (by decide)

theorem bpl (off : BitVec 8) : Statement (.bpl off) := low8 rfl rfl rfl rfl

theorem bmi (off : BitVec 8) : Statement (.bmi off) := low8 rfl rfl rfl rfl

theorem bhi (off : BitVec 8) : Statement (.bhi off) := low8 rfl rfl rfl rfl

theorem blos (off : BitVec 8) : Statement (.blos off) := low8 rfl rfl rfl rfl

theorem bvc (off : BitVec 8) : Statement (.bvc off) := low8 rfl rfl rfl rfl

theorem bvs (off : BitVec 8) : Statement (.bvs off) := low8 rfl rfl rfl rfl

theorem bcc (off : BitVec 8) : Statement (.bcc off) := low8 rfl rfl rfl rfl

theorem bcs (off : BitVec 8) : Statement (.bcs off) := low8 rfl rfl rfl rfl

theorem emt (code : BitVec 8) : Statement (.emt code) := low8 rfl rfl rfl rfl

theorem trap (code : BitVec 8) : Statement (.trap code) := low8 rfl rfl rfl rfl

theorem clrb (dst : Opnd) : Statement (.clrb dst) := sop rfl rfl rfl rfl

theorem comb (dst : Opnd) : Statement (.comb dst) := sop rfl rfl rfl rfl

theorem incb (dst : Opnd) : Statement (.incb dst) := sop rfl rfl rfl rfl

theorem decb (dst : Opnd) : Statement (.decb dst) := sop rfl rfl rfl rfl

theorem negb (dst : Opnd) : Statement (.negb dst) := sop rfl rfl rfl rfl

theorem adcb (dst : Opnd) : Statement (.adcb dst) := sop rfl rfl rfl rfl

theorem sbcb (dst : Opnd) : Statement (.sbcb dst) := sop rfl rfl rfl rfl

theorem tstb (dst : Opnd) : Statement (.tstb dst) := sop rfl rfl rfl rfl

theorem rorb (dst : Opnd) : Statement (.rorb dst) := sop rfl rfl rfl rfl

theorem rolb (dst : Opnd) : Statement (.rolb dst) := sop rfl rfl rfl rfl

theorem asrb (dst : Opnd) : Statement (.asrb dst) := sop rfl rfl rfl rfl

theorem aslb (dst : Opnd) : Statement (.aslb dst) := sop rfl rfl rfl rfl

theorem mtps (src : Opnd) : Statement (.mtps src) := sop rfl rfl rfl rfl

theorem mfps (dst : Opnd) : Statement (.mfps dst) := sop rfl rfl rfl rfl

theorem movb (src dst : Opnd) : Statement (.movb src dst) := dop rfl rfl rfl rfl

theorem cmpb (src dst : Opnd) : Statement (.cmpb src dst) := dop rfl rfl rfl rfl

theorem bitb (src dst : Opnd) : Statement (.bitb src dst) := dop rfl rfl rfl rfl

theorem bicb (src dst : Opnd) : Statement (.bicb src dst) := dop rfl rfl rfl rfl

theorem bisb (src dst : Opnd) : Statement (.bisb src dst) := dop rfl rfl rfl rfl

theorem sub (src dst : Opnd) : Statement (.sub src dst) := dop rfl rfl rfl rfl

theorem illegal (w : Word) : Statement (.illegal w) := by
  intro h
  have hw := w.isLt
  simp only [Instr.wellFormed, isIllegalWord, illegalRanges, List.any_cons, List.any_nil, Bool.or_false,
    Bool.or_eq_true, Bool.and_eq_true, decide_eq_true_eq] at h
  have cover :
    w.toNat / 2 ^ 0 = 0x7 ∨ w.toNat / 2 ^ 3 = 0x1 ∨ w.toNat / 2 ^ 4 = 0x1 ∨ w.toNat / 2 ^ 5 = 0x1 ∨
    w.toNat / 2 ^ 3 = 0x11 ∨ w.toNat / 2 ^ 3 = 0x12 ∨ w.toNat / 2 ^ 3 = 0x13 ∨ w.toNat / 2 ^ 7 = 0x1a ∨
    w.toNat / 2 ^ 6 = 0x36 ∨ w.toNat / 2 ^ 9 = 0x7 ∨ w.toNat / 2 ^ 11 = 0xe ∨ w.toNat / 2 ^ 9 = 0x3d ∨
    w.toNat / 2 ^ 9 = 0x3e ∨ w.toNat / 2 ^ 6 = 0x235 ∨ w.toNat / 2 ^ 6 = 0x236 ∨ w.toNat / 2 ^ 9 = 0x47 ∨
    w.toNat / 2 ^ 12 = 0xf := by
    rcases h with h | h | h | h | h | h | h | h | h | h <;> omega
  rcases cover with h | h | h | h | h | h | h | h | h | h | h | h | h | h | h | h | h
  · exact ⟨(0xFFFF#16, 0x0007#16), by simp [rows], block w _ 0 h⟩
  · exact ⟨(0xFFF8#16, 0x0008#16), by simp [rows], block w _ 3 h⟩
  · exact ⟨(0xFFF0#16, 0x0010#16), by simp [rows], block w _ 4 h⟩
  · exact ⟨(0xFFE0#16, 0x0020#16), by simp [rows], block w _ 5 h⟩
  · exact ⟨(0xFFF8#16, 0x0088#16), by simp [rows], block w _ 3 h⟩
  · exact ⟨(0xFFF8#16, 0x0090#16), by simp [rows], block w _ 3 h⟩
  · exact ⟨(0xFFF8#16, 0x0098#16), by simp [rows], block w _ 3 h⟩
  · exact ⟨(0xFF80#16, 0x0D00#16), by simp [rows], block w _ 7 h⟩
  · exact ⟨(0xFFC0#16, 0x0D80#16), by simp [rows], block w _ 6 h⟩
  · exact ⟨(0xFE00#16, 0x0E00#16), by simp [rows], block w _ 9 h⟩
  · exact ⟨(0xF800#16, 0x7000#16), by simp [rows], block w _ 11 h⟩
  · exact ⟨(0xFE00#16, 0x7A00#16), by simp [rows], block w _ 9 h⟩
  · exact ⟨(0xFE00#16, 0x7C00#16), by simp [rows], block w _ 9 h⟩
  · exact ⟨(0xFFC0#16, 0x8D40#16), by simp [rows], block w _ 6 h⟩
  · exact ⟨(0xFFC0#16, 0x8D80#16), by simp [rows], block w _ 6 h⟩
  · exact ⟨(0xFE00#16, 0x8E00#16), by simp [rows], block w _ 9 h⟩
  · exact ⟨(0xF000#16, 0xF000#16), by simp [rows], block w _ 12 h⟩

end Sys2Proof.Laws.EncodesInRow
end

