-- ==== Sys2Proof/Laws/Silence.lean ====
section
/-! SUPPORT. On a bus without devices nothing inside a step but RESET's own output joins the history. -/

namespace Sys2Proof.Machine

/-- `World`, and where no region is a device the history stays. -/
structure Silent (s t : State) : Prop extends World s t where
  silent : NoDevice s → t.events = s.events

theorem Silent.of_eq {s t : State} (w : World s t) (h : t.events = s.events) : Silent s t := ⟨w, fun _ => h⟩

theorem Silent.refl (s : State) : Silent s s := .of_eq (World.refl s) rfl

theorem Silent.trans {s t u : State} (h : Silent s t) (k : Silent t u) : Silent s u :=
  ⟨h.toWorld.trans k.toWorld, fun n => (k.silent (n.of_world h.toWorld)).trans (h.silent n)⟩

theorem Silent.bind {α β : Type} {s : State} {r : Res α} {f : α → State → Res β} (h : Silent s r.state)
    (k : ∀ a t, Silent t (f a t).state) : Silent s (r.bind f).state := by
  cases r with
  | ok a t => exact h.trans (k a t)
  | err t => exact h

theorem Silent.setReg (s : State) (r : Reg) (v : Word) : Silent s (s.setReg r v) :=
  .of_eq (Quiet.setReg s r v).toWorld rfl

theorem Silent.noteRead (s : State) (r : Reg) : Silent s (s.noteRead r) := .of_eq (Quiet.noteRead s r).toWorld rfl

theorem Silent.setPsw (s : State) (p : Byte) : Silent s (s.setPsw p) := .of_eq (World.setPsw s p) rfl

theorem Silent.setCc (s : State) (k : Cc) : Silent s (s.setCc k) := .of_eq (World.setCc s k) rfl

theorem silent_readByte (a : Word) (s : State) : Silent s (readByte a s).state :=
  ⟨(quiet_readByte a s).toWorld, fun n => by rw [n.readByte]⟩

theorem silent_readWord (a : Word) (s : State) : Silent s (readWord a s).state :=
  ⟨(quiet_readWord a s).toWorld, fun n => by rw [n.readWord]⟩

theorem silent_writeByte (a : Word) (v : Byte) (s : State) : Silent s (writeByte a v s).state :=
  ⟨(quiet_writeByte a v s).toWorld, fun n => n.writeByte a v⟩

theorem silent_writeWord (a v : Word) (s : State) : Silent s (writeWord a v s).state :=
  ⟨(quiet_writeWord a v s).toWorld, fun n => n.writeWord a v⟩

theorem silent_fetch (s : State) : Silent s (fetch s).state :=
  Silent.bind (silent_readWord _ s) fun _ t => Silent.setReg t PC _

theorem silent_push (v : Word) (s : State) : Silent s (push v s).state :=
  (Silent.setReg s SP _).trans (silent_writeWord _ _ _)

theorem silent_pop (s : State) : Silent s (pop s).state :=
  Silent.bind (silent_readWord _ s) fun _ t => Silent.setReg t SP _

theorem silent_trapEntry (v : Word) (s : State) : Silent s (trapEntry v s) := by
  have h : Silent s (trapSequence v s).state :=
    Silent.bind (silent_push _ s) fun _ s1 => Silent.bind (silent_push _ s1) fun _ s2 =>
    Silent.bind (silent_readWord _ s2) fun newpc s3 => Silent.bind (silent_readWord _ s3) fun newps s4 =>
    ((Silent.setReg s4 PC newpc).trans (Silent.setPsw _ (lo8 newps))).trans (.of_eq (World.waiting _ false) rfl)
  unfold trapEntry
  cases e : trapSequence v s <;> rw [e] at h
  · exact h
  · exact h.trans (.of_eq (World.faulted _) rfl)

theorem silent_returnFromTrap (s : State) : Silent s (returnFromTrap s).state :=
  Silent.bind (silent_pop s) fun newpc s1 => Silent.bind ((Silent.setReg s1 PC newpc).trans (silent_pop _)) fun _ s2 =>
    Silent.setPsw s2 _

/-- The end of an instruction adds nothing. -/
theorem silent_retire {s t : State} {r : Res Unit} (h : Silent s r.state) (k : retire r = .next t) : Silent s t := by
  rcases retire_cases k with ⟨u, rfl, rfl⟩ | ⟨u, rfl, rfl⟩
  · refine h.trans ?_
    rw [Res.state_ok]
    unfold traceEnd
    split
    · exact silent_trapEntry _ u
    · exact Silent.refl u
  · exact h.trans (silent_trapEntry _ u)

theorem silent_resolve (sz : Size) (o : Opnd) (s : State) : Silent s (resolve sz o s).state := by
  have step : ∀ v, Silent s ((s.noteRead o.reg).setReg o.reg v) := fun v =>
    (Silent.noteRead s o.reg).trans (Silent.setReg _ o.reg v)
  unfold resolve
  simp only
  split
  · exact Silent.refl s
  · exact Silent.noteRead s o.reg
  · exact step _
  · split
    · exact Silent.bind (silent_fetch s) fun _ t => Silent.refl t
    · exact Silent.bind ((step _).trans (silent_readWord _ _)) fun _ t => Silent.refl t
  · exact step _
  · exact Silent.bind ((step _).trans (silent_readWord _ _)) fun _ t => Silent.refl t
  · exact Silent.bind (silent_fetch s) fun _ t => Silent.noteRead t o.reg
  · exact Silent.bind (silent_fetch s) fun _ t =>
      Silent.bind ((Silent.noteRead t o.reg).trans (silent_readWord _ _)) fun _ u => Silent.refl u

theorem silent_readStream (a : Word) (s : State) : Silent s (readStream a s).state := by
  have h := silent_readWord (evenAddr a) s
  unfold readStream
  cases e : readWord (evenAddr a) s <;> rw [e] at h
  · exact h
  · exact h.trans (Silent.setReg _ PC a)

/-- What the three kinds of access have in common here. -/
structure Access.Still {w : Nat} (acc : Access w) : Prop where
  read : ∀ op s, Silent s (acc.read op s).state
  write : ∀ op v s, Silent s (acc.write op v s).state

theorem silent_readOpByte (op : Operand) (s : State) : Silent s (readOpByte op s).state := by
  cases op with
  | reg r => exact Silent.noteRead s r
  | mem a => exact silent_readByte a s
  | stream a => exact Silent.bind (silent_readStream a s) fun _ t => Silent.refl t

theorem still_wordAccess : Access.Still wordAccess where
  read := fun op s => by
    cases op with
    | reg r => exact Silent.noteRead s r
    | mem a => exact silent_readWord a s
    | stream a => exact silent_readStream a s
  write := fun op v s => by
    cases op with
    | reg r => exact Silent.setReg s r v
    | mem a | stream a => exact silent_writeWord a v s

theorem still_byteAccess : Access.Still byteAccess where
  read := silent_readOpByte
  write := fun op v s => by
    cases op with
    | reg r => exact .of_eq (Quiet.setRegLow s r v).toWorld rfl
    | mem a | stream a => exact silent_writeByte a v s

theorem still_signedByteAccess : Access.Still signedByteAccess where
  read := silent_readOpByte
  write := fun op v s => by
    cases op with
    | reg r => exact Silent.setReg s r _
    | mem a | stream a => exact silent_writeByte a v s

theorem silent_loadOp {w : Nat} {acc : Access w} (k : acc.Still) (o : Opnd) (s : State) :
    Silent s (loadOp acc o s).state :=
  Silent.bind (silent_resolve _ o s) fun op t => k.read op t

theorem silent_storeOp {w : Nat} {acc : Access w} (k : acc.Still) (v : BitVec w) (c : Cc) (o : Opnd) (s : State) :
    Silent s (storeOp acc v c o s).state :=
  Silent.bind (silent_resolve _ o s) fun op t => Silent.bind (k.write op v t) fun _ u => Silent.setCc u c

theorem silent_modifyOp {w : Nat} {acc : Access w} (k : acc.Still) (f : Cc → BitVec w → BitVec w × Cc) (o : Opnd)
    (s : State) : Silent s (modifyOp acc f o s).state :=
  Silent.bind (silent_resolve _ o s) fun op t => Silent.bind (k.read op t) fun _ u =>
    Silent.bind (k.write op _ u) fun _ x => Silent.setCc x _

theorem silent_probeOp {w : Nat} {acc : Access w} (k : acc.Still) (f : Cc → BitVec w → Cc) (o : Opnd) (s : State) :
    Silent s (probeOp acc f o s).state :=
  Silent.bind (silent_resolve _ o s) fun op t => Silent.bind (k.read op t) fun _ u => Silent.setCc u _

end Sys2Proof.Machine
end

