-- ==== Sys2Proof/Machine/Slice.lean ====
section
/-! DEFINITION. The host's execution slice (spec/70_reset_and_hazards.md R403, R404, R410). -/

namespace Sys2Proof.Machine

/-- The cost of the n-th step of a slice: unspecified, at least 1 (spec/70_reset_and_hazards.md R410; log 12). -/
def stepCost (n : Nat) : Int := 1 + Config.extraCost n

/-- `RunSlice(budget)`: steps until the budget is spent, a halt request is honoured, or no step is enabled
(spec/70_reset_and_hazards.md R403, R404, R410). `request` is the number of boundaries after which a pending halt request
is honoured, `n` the number of steps the slice has taken. -/
def runSlice : (request : Nat) → (n : Nat) → (budget : Int) → State → State
  | 0, _, _, s => s
  | k + 1, n, budget, s =>
    if budget ≤ 0 then s
    else
      match step s with
      | .next t => runSlice k (n + 1) (budget - stepCost n) t
      | .fault _ => s
      | .refused _ => s

end Sys2Proof.Machine
end

