-- ==== Sys2Proof/Tests/Slice0.lean ====
section
/-! SUPPORT. Tests: the WellFormed smoke test, words of every constructor written out from spec/30_encoding.md, single steps
from spec/95_test_vectors.md (its ids stand in the comments), and for each statement with hypotheses a state and
operands that meet them. -/

namespace Sys2Proof.Tests

open Sys2Proof Sys2Proof.Machine Sys2Proof.Claims

/-! ### Well-formedness -/

/-- A word of a legal row is refused as illegal, and so are the neighbours of the ranges. -/
theorem test_wf_refuses_legal_words :
    (Instr.illegal 0x1001).wellFormed = false ∧ (Instr.illegal 0x0006).wellFormed = false ∧
    (Instr.illegal 0x0040).wellFormed = false ∧ (Instr.illegal 0x00A0).wellFormed = false ∧
    (Instr.illegal 0x0DC0).wellFormed = false ∧ (Instr.illegal 0x7800).wellFormed = false ∧
    (Instr.illegal 0x8DC0).wellFormed = false ∧ (Instr.illegal 0xEFFF).wellFormed = false := by decide

/-- The ends of the ranges are accepted (spec/30_encoding.md R118). -/
theorem test_wf_accepts_illegal_words :
    (Instr.illegal 0x0007).wellFormed = true ∧ (Instr.illegal 0x003F).wellFormed = true ∧
    (Instr.illegal 0x0088).wellFormed = true ∧ (Instr.illegal 0x009F).wellFormed = true ∧
    (Instr.illegal 0x0D00).wellFormed = true ∧ (Instr.illegal 0x8DBF).wellFormed = true ∧
    (Instr.illegal 0xF000).wellFormed = true ∧ (Instr.illegal 0xFFFF).wellFormed = true := by decide

/-! ### Decoding: words written out bit by bit from the formats (R101 to R110) and the opcode map (R114) -/

/-- Format Z (R109) and the condition-code masks (R107). -/
theorem test_decode_no_operand :
    decode 0b0000000000000000#16 = .halt ∧
    decode 0b0000000000000001#16 = .wait ∧
    decode 0b0000000000000010#16 = .rti ∧
    decode 0b0000000000000011#16 = .bpt ∧
    decode 0b0000000000000100#16 = .iot ∧
    decode 0b0000000000000101#16 = .reset ∧
    decode 0b0000000000000110#16 = .rtt ∧
    decode 0b0000000010101001#16 = .clcc 0b1001 ∧
    decode 0b0000000010110110#16 = .secc 0b0110 := by decide

/-- Format DOP (R101): code, source mode and register, destination mode and register. -/
theorem test_decode_double :
    decode 0b0001010000000001#16 = .mov ⟨.autoInc, 0⟩ ⟨.register, 1⟩ ∧
    decode 0b0010001010110011#16 = .cmp ⟨.deferred, 2⟩ ⟨.indexed, 3⟩ ∧
    decode 0b0011100110010111#16 = .bit ⟨.autoDec, 6⟩ ⟨.autoInc, 7⟩ ∧
    decode 0b0100111101000100#16 = .bic ⟨.indexedDeferred, 5⟩ ⟨.register, 4⟩ ∧
    decode 0b0101000001101010#16 = .bis ⟨.register, 1⟩ ⟨.autoDecDeferred, 2⟩ ∧
    decode 0b0110011111000000#16 = .add ⟨.autoIncDeferred, 7⟩ ⟨.register, 0⟩ ∧
    decode 0b1001010110000011#16 = .movb ⟨.autoInc, 6⟩ ⟨.register, 3⟩ ∧
    decode 0b1010000100001101#16 = .cmpb ⟨.register, 4⟩ ⟨.deferred, 5⟩ ∧
    decode 0b1011110000110001#16 = .bitb ⟨.indexed, 0⟩ ⟨.indexed, 1⟩ ∧
    decode 0b1100000111100010#16 = .bicb ⟨.register, 7⟩ ⟨.autoDec, 2⟩ ∧
    decode 0b1101001001010010#16 = .bisb ⟨.deferred, 1⟩ ⟨.autoInc, 2⟩ ∧
    decode 0b1110101011011100#16 = .sub ⟨.autoDecDeferred, 3⟩ ⟨.autoIncDeferred, 4⟩ := by decide

/-- Format SOP (R103), bit 15 clear: a 10-bit code, mode, register. -/
theorem test_decode_single_word :
    decode 0b0000000001001010#16 = .jmp ⟨.deferred, 2⟩ ∧
    decode 0b0000000011000101#16 = .swab ⟨.register, 5⟩ ∧
    decode 0b0000101000000011#16 = .clr ⟨.register, 3⟩ ∧
    decode 0b0000101001001011#16 = .com ⟨.deferred, 3⟩ ∧
    decode 0b0000101010010011#16 = .inc ⟨.autoInc, 3⟩ ∧
    decode 0b0000101011011011#16 = .dec ⟨.autoIncDeferred, 3⟩ ∧
    decode 0b0000101100100011#16 = .neg ⟨.autoDec, 3⟩ ∧
    decode 0b0000101101101011#16 = .adc ⟨.autoDecDeferred, 3⟩ ∧
    decode 0b0000101110110011#16 = .sbc ⟨.indexed, 3⟩ ∧
    decode 0b0000101111111011#16 = .tst ⟨.indexedDeferred, 3⟩ ∧
    decode 0b0000110000000111#16 = .ror ⟨.register, 7⟩ ∧
    decode 0b0000110001001111#16 = .rol ⟨.deferred, 7⟩ ∧
    decode 0b0000110010010111#16 = .asr ⟨.autoInc, 7⟩ ∧
    decode 0b0000110011011111#16 = .asl ⟨.autoIncDeferred, 7⟩ ∧
    decode 0b0000110111100111#16 = .sxt ⟨.autoDec, 7⟩ := by decide

/-- Format SOP (R103), bit 15 set. -/
theorem test_decode_single_byte :
    decode 0b1000101000101111#16 = .clrb ⟨.autoDecDeferred, 7⟩ ∧
    decode 0b1000101001110111#16 = .comb ⟨.indexed, 7⟩ ∧
    decode 0b1000101010111111#16 = .incb ⟨.indexedDeferred, 7⟩ ∧
    decode 0b1000101011000000#16 = .decb ⟨.register, 0⟩ ∧
    decode 0b1000101100001000#16 = .negb ⟨.deferred, 0⟩ ∧
    decode 0b1000101101010000#16 = .adcb ⟨.autoInc, 0⟩ ∧
    decode 0b1000101110011000#16 = .sbcb ⟨.autoIncDeferred, 0⟩ ∧
    decode 0b1000101111100000#16 = .tstb ⟨.autoDec, 0⟩ ∧
    decode 0b1000110000101000#16 = .rorb ⟨.autoDecDeferred, 0⟩ ∧
    decode 0b1000110001110000#16 = .rolb ⟨.indexed, 0⟩ ∧
    decode 0b1000110010111000#16 = .asrb ⟨.indexedDeferred, 0⟩ ∧
    decode 0b1000110011000110#16 = .aslb ⟨.register, 6⟩ ∧
    decode 0b1000110100001110#16 = .mtps ⟨.deferred, 6⟩ ∧
    decode 0b1000110111010110#16 = .mfps ⟨.autoInc, 6⟩ := by decide

/-- Formats BR (R104) and TRP (R108): an 8-bit code and a byte. -/
theorem test_decode_branch_and_trap :
    decode 0b0000000110000000#16 = .br 0x80 ∧
    decode 0b0000001011111111#16 = .bne 0xFF ∧
    decode 0b0000001100000001#16 = .beq 0x01 ∧
    decode 0b0000010001111111#16 = .bge 0x7F ∧
    decode 0b0000010110000000#16 = .blt 0x80 ∧
    decode 0b0000011011111111#16 = .bgt 0xFF ∧
    decode 0b0000011100000001#16 = .ble 0x01 ∧
    decode 0b1000000001111111#16 = .bpl 0x7F ∧
    decode 0b1000000110000000#16 = .bmi 0x80 ∧
    decode 0b1000001011111111#16 = .bhi 0xFF ∧
    decode 0b1000001100000001#16 = .blos 0x01 ∧
    decode 0b1000010001111111#16 = .bvc 0x7F ∧
    decode 0b1000010110000000#16 = .bvs 0x80 ∧
    decode 0b1000011011111111#16 = .bcc 0xFF ∧
    decode 0b1000011100000001#16 = .bcs 0x01 ∧
    decode 0b1000100010101011#16 = .emt 0xAB ∧
    decode 0b1000100111000001#16 = .trap 0xC1 := by decide

/-- Formats RDD (R102), SOB (R105) and RTS (R106). -/
theorem test_decode_register_forms :
    decode 0b0000100101011111#16 = .jsr 5 ⟨.autoIncDeferred, 7⟩ ∧
    decode 0b0111100010001110#16 = .xor 2 ⟨.deferred, 6⟩ ∧
    decode 0b0111111011100001#16 = .sob 3 0b100001 ∧
    decode 0b0000000010000101#16 = .rts 5 := by decide

/-- Words of each illegal range (R118) keep their bits. -/
theorem test_decode_illegal :
    decode 0b0000000000000111#16 = .illegal 0x0007 ∧
    decode 0b0000000010001000#16 = .illegal 0x0088 ∧
    decode 0b0000000010011111#16 = .illegal 0x009F ∧
    decode 0b0000110100000000#16 = .illegal 0x0D00 ∧
    decode 0b0000111000000000#16 = .illegal 0x0E00 ∧
    decode 0b0111001111111111#16 = .illegal 0x73FF ∧
    decode 0b0111101000000000#16 = .illegal 0x7A00 ∧
    decode 0b1000110101000000#16 = .illegal 0x8D40 ∧
    decode 0b1000111111111111#16 = .illegal 0x8FFF ∧
    decode 0b1111000000000000#16 = .illegal 0xF000 := by decide

/-- A stream of an opcode word and its extension words, and the bytes that follow it (R100, R112, R115). -/
theorem test_decode_bytes :
    decodeBytes [0x31, 0x1C, 0x02, 0x00, 0x04, 0x00, 0x99] = .ok (.mov ⟨.indexed, 0⟩ ⟨.indexed, 1⟩, [0x99]) ∧
    decodeBytes [0x40, 0x00] = .ok (.jmp ⟨.register, 0⟩, []) := by decide

/-- A stream that ends too early is rejected by name. -/
theorem test_decode_bytes_rejects :
    decodeBytes [] = .error .noOpcodeWord ∧ decodeBytes [0x40] = .error .noOpcodeWord ∧
    decodeBytes [0x31, 0x1C, 0x02, 0x00] = .error .noExtensionWord := by decide

/-- The host's two questions, on MOV #5,R0 with its immediate word zero (R113). -/
theorem test_fetch_word :
    decodeTableWord 16 0x15C0 = some (.mov ⟨.autoInc, 7⟩ ⟨.register, 0⟩) ∧
    (match step (State.reset.withFetchWord 16 0x15C0) with
      | .next t => t.pc == 4#16 && t.ppc == 0#16 && t.reg 0 == 0#16
      | _ => false) = true := by decide

/-! ### One step each -/

/-- Words laid out from an even address on, low byte first (spec/20_memory.md R73). -/
def putWords (a : Nat) : List Word → Memory → Memory
  | [], m => m
  | w :: ws, m => putWords (a + 2) ws (m.writeWord (BitVec.ofNat 16 a) w)

/-- The start state of spec/95_test_vectors.md section 0: pc = 0x1000, SP = 0x0400, the vector table, the instruction's
words at 0x1000, and the registers, PSW and memory words a vector names. -/
def harness (words : List Word) (regs : List (Reg × Word)) (psw : Byte) (mem : List (Word × Word)) : State :=
  let table := putWords 0x0004 [0x4000, 0x00E0, 0x4100, 0x00E0, 0x4200, 0x00E0, 0x4300, 0x00E0, 0x4400, 0x00E0,
    0x4500, 0x00E0, 0x4600, 0x00E0] []
  let m := mem.foldl (fun m p => m.writeWord p.1 p.2) (putWords 0x1000 words table)
  regs.foldl (fun s p => s.setReg p.1 p.2)
    (((State.reset.setPc 0x1000#16).setSp 0x0400#16).setPsw psw |> fun s => { s with mem := m })

/-- The same with ODD_WORD_POLICY = BUS_ERROR. -/
def withOdd (s : State) : State := { s with params := { s.params with oddWord := .busError } }

/-- The same with SBC_V_QUIRK = true. -/
def withQuirk (s : State) : State := { s with params := { s.params with sbcVQuirk := true } }

/-- The same with MTPS_WRITES_PRIORITY = true. -/
def withMtps (s : State) : State := { s with params := { s.params with mtpsWritesPriority := true } }

/-- The same with HALT_ACTION = TRAP4. -/
def withTrap4 (s : State) : State := { s with params := { s.params with haltAction := .trap4 } }

/-- One step that answers a next state of which `p` holds. -/
def after (s : State) (p : State → Bool) : Bool :=
  match step s with
  | .next t => p t
  | _ => false

-- S1a
theorem test_clr_odd_align :
    after (harness [0x0A11] [(1, 0x0005)] 0x0F#8 [(0x0004, 0x00FF)]) (fun t => t.reg 1 == 0x0007#16 &&
      t.mem.readWord 0x0004#16 == 0x0000#16 && t.psw == 0x04#8 && t.pc == 0x1002#16) = true := by decide

-- S1b
theorem test_clr_odd_bus_error :
    after (withOdd (harness [0x0A11] [(1, 0x0005)] 0x0F#8 [])) (fun t => t.reg 1 == 0x0007#16 &&
      t.mem.readWord 0x03FE#16 == 0x000F#16 && t.mem.readWord 0x03FC#16 == 0x1002#16 && t.sp == 0x03FC#16 &&
      t.pc == 0x4000#16 && t.psw == 0xE0#8) = true := by decide

-- U2
theorem test_clrb_keeps_high_byte :
    after (harness [0x8A00] [(0, 0x1234)] 0x0F#8 []) (fun t => t.reg 0 == 0x1200#16 &&
      t.psw == 0x04#8) = true := by decide

-- A6
theorem test_clrb_autodec :
    after (harness [0x8A20] [(0, 0x2001)] 0x00#8 [(0x2000, 0xFFFF)]) (fun t => t.reg 0 == 0x2000#16 &&
      t.mem.readWord 0x2000#16 == 0xFF00#16 && t.psw == 0x04#8) = true := by decide

-- U3
theorem test_com_sets_carry :
    after (harness [0x0A40] [(0, 0x00FF)] 0x00#8 []) (fun t => t.reg 0 == 0xFF00#16 &&
      t.psw == 0x09#8) = true := by decide

-- U4
theorem test_comb :
    after (harness [0x8A40] [(0, 0x12FF)] 0x00#8 []) (fun t => t.reg 0 == 0x1200#16 &&
      t.psw == 0x05#8) = true := by decide

-- U5
theorem test_inc_overflow :
    after (harness [0x0A80] [(0, 0x7FFF)] 0x01#8 []) (fun t => t.reg 0 == 0x8000#16 &&
      t.psw == 0x0B#8) = true := by decide

-- U6
theorem test_inc_wraps :
    after (harness [0x0A80] [(0, 0xFFFF)] 0x01#8 []) (fun t => t.reg 0 == 0x0000#16 &&
      t.psw == 0x05#8) = true := by decide

-- U7
theorem test_incb :
    after (harness [0x8A80] [(0, 0x127F)] 0x00#8 []) (fun t => t.reg 0 == 0x1280#16 &&
      t.psw == 0x0A#8) = true := by decide

-- U8
theorem test_dec_overflow :
    after (harness [0x0AC0] [(0, 0x8000)] 0x00#8 []) (fun t => t.reg 0 == 0x7FFF#16 &&
      t.psw == 0x02#8) = true := by decide

-- U9
theorem test_dec_wraps :
    after (harness [0x0AC0] [(0, 0x0000)] 0x00#8 []) (fun t => t.reg 0 == 0xFFFF#16 &&
      t.psw == 0x08#8) = true := by decide

-- U10
theorem test_decb :
    after (harness [0x8AC0] [(0, 0x1200)] 0x00#8 []) (fun t => t.reg 0 == 0x12FF#16 &&
      t.psw == 0x08#8) = true := by decide

-- U12
theorem test_neg_one :
    after (harness [0x0B00] [(0, 0x0001)] 0x00#8 []) (fun t => t.reg 0 == 0xFFFF#16 &&
      t.psw == 0x09#8) = true := by decide

-- U13
theorem test_neg_most_negative :
    after (harness [0x0B00] [(0, 0x8000)] 0x00#8 []) (fun t => t.reg 0 == 0x8000#16 &&
      t.psw == 0x0B#8) = true := by decide

-- U14
theorem test_negb :
    after (harness [0x8B00] [(0, 0x0080)] 0x00#8 []) (fun t => t.reg 0 == 0x0080#16 &&
      t.psw == 0x0B#8) = true := by decide

-- U15
theorem test_adc_carry_out :
    after (harness [0x0B40] [(0, 0xFFFF)] 0x01#8 []) (fun t => t.reg 0 == 0x0000#16 &&
      t.psw == 0x05#8) = true := by decide

-- U16
theorem test_adc_overflow :
    after (harness [0x0B40] [(0, 0x7FFF)] 0x01#8 []) (fun t => t.reg 0 == 0x8000#16 &&
      t.psw == 0x0A#8) = true := by decide

-- by hand from 42_single_operand.md R226
theorem test_adcb :
    after (harness [0x8B40] [(0, 0x12FF)] 0x01#8 []) (fun t => t.reg 0 == 0x1200#16 &&
      t.psw == 0x05#8) = true := by decide

-- U18
theorem test_sbc_borrow :
    after (harness [0x0B80] [(0, 0x0000)] 0x01#8 []) (fun t => t.reg 0 == 0xFFFF#16 &&
      t.psw == 0x09#8) = true := by decide

-- U21
theorem test_sbc_quirk :
    after (withQuirk (harness [0x0B80] [(0, 0x8000)] 0x00#8 [])) (fun t => t.reg 0 == 0x8000#16 &&
      t.psw == 0x0A#8) = true := by decide

-- by hand from 42_single_operand.md R227
theorem test_sbcb :
    after (harness [0x8B80] [(0, 0x1200)] 0x01#8 []) (fun t => t.reg 0 == 0x12FF#16 &&
      t.psw == 0x09#8) = true := by decide

-- S7
theorem test_tst_writes_nothing :
    after (harness [0x0BC8] [(0, 0x2000)] 0x0F#8 [(0x2000, 0x8000)]) (fun t =>
      t.mem.readWord 0x2000#16 == 0x8000#16 && t.psw == 0x08#8) = true := by decide

-- U22
theorem test_tst_register :
    after (harness [0x0BC0] [(0, 0x8000)] 0x0F#8 []) (fun t => t.reg 0 == 0x8000#16 &&
      t.psw == 0x08#8) = true := by decide

-- U23
theorem test_tstb_low_byte_only :
    after (harness [0x8BC0] [(0, 0x0100)] 0x00#8 []) (fun t => t.reg 0 == 0x0100#16 &&
      t.psw == 0x04#8) = true := by decide

-- A5
theorem test_tstb_deferred_steps_by_two :
    after (harness [0x8BD8] [(0, 0x2000)] 0x00#8 [(0x2000, 0x3001), (0x3000, 0x8000)]) (fun t =>
      t.reg 0 == 0x2002#16 && t.psw == 0x08#8) = true := by decide

-- H1
theorem test_ror_carry_in :
    after (harness [0x0C00] [(0, 0x0001)] 0x01#8 []) (fun t => t.reg 0 == 0x8000#16 &&
      t.psw == 0x09#8) = true := by decide

-- H2
theorem test_ror_carry_out :
    after (harness [0x0C00] [(0, 0x0001)] 0x00#8 []) (fun t => t.reg 0 == 0x0000#16 &&
      t.psw == 0x07#8) = true := by decide

-- H3
theorem test_rorb :
    after (harness [0x8C00] [(0, 0x1201)] 0x01#8 []) (fun t => t.reg 0 == 0x1280#16 &&
      t.psw == 0x09#8) = true := by decide

-- H4
theorem test_rol_overflow :
    after (harness [0x0C40] [(0, 0x4000)] 0x00#8 []) (fun t => t.reg 0 == 0x8000#16 &&
      t.psw == 0x0A#8) = true := by decide

-- H5
theorem test_rol_carry_out :
    after (harness [0x0C40] [(0, 0x8000)] 0x00#8 []) (fun t => t.reg 0 == 0x0000#16 &&
      t.psw == 0x07#8) = true := by decide

-- H6
theorem test_rolb :
    after (harness [0x8C40] [(0, 0x1280)] 0x01#8 []) (fun t => t.reg 0 == 0x1201#16 &&
      t.psw == 0x03#8) = true := by decide

-- H7
theorem test_asr_keeps_sign :
    after (harness [0x0C80] [(0, 0x8002)] 0x00#8 []) (fun t => t.reg 0 == 0xC001#16 &&
      t.psw == 0x0A#8) = true := by decide

-- H8
theorem test_asr_minus_one :
    after (harness [0x0C80] [(0, 0xFFFF)] 0x00#8 []) (fun t => t.reg 0 == 0xFFFF#16 &&
      t.psw == 0x09#8) = true := by decide

-- H10
theorem test_asrb :
    after (harness [0x8C80] [(0, 0x1281)] 0x00#8 []) (fun t => t.reg 0 == 0x12C0#16 &&
      t.psw == 0x09#8) = true := by decide

-- H12
theorem test_asl_carry_out :
    after (harness [0x0CC0] [(0, 0x8000)] 0x00#8 []) (fun t => t.reg 0 == 0x0000#16 &&
      t.psw == 0x07#8) = true := by decide

-- H13
theorem test_asl_overflow :
    after (harness [0x0CC0] [(0, 0x4000)] 0x00#8 []) (fun t => t.reg 0 == 0x8000#16 &&
      t.psw == 0x0A#8) = true := by decide

-- H14
theorem test_aslb :
    after (harness [0x8CC0] [(0, 0x1240)] 0x00#8 []) (fun t => t.reg 0 == 0x1280#16 &&
      t.psw == 0x0A#8) = true := by decide

-- U24
theorem test_swab :
    after (harness [0x00C0] [(0, 0x1280)] 0x0F#8 []) (fun t => t.reg 0 == 0x8012#16 &&
      t.psw == 0x00#8) = true := by decide

-- U25
theorem test_swab_flags_of_low_byte :
    after (harness [0x00C0] [(0, 0x00FF)] 0x00#8 []) (fun t => t.reg 0 == 0xFF00#16 &&
      t.psw == 0x04#8) = true := by decide

-- U26
theorem test_sxt_negative :
    after (harness [0x0DC1] [(1, 0x0000)] 0x09#8 []) (fun t => t.reg 1 == 0xFFFF#16 &&
      t.psw == 0x09#8) = true := by decide

-- U27
theorem test_sxt_positive :
    after (harness [0x0DC1] [(1, 0x1234)] 0x01#8 []) (fun t => t.reg 1 == 0x0000#16 &&
      t.psw == 0x05#8) = true := by decide

-- U29
theorem test_mtps_priority_parameter :
    after (withMtps (harness [0x8D00] [(0, 0x00FF)] 0xE0#8 [])) (fun t => t.reg 0 == 0x00FF#16 &&
      t.psw == 0xEF#8) = true := by decide

-- U30
theorem test_mtps_leaves_trace :
    after (harness [0x8D00] [(0, 0x0010)] 0x00#8 []) (fun t => t.reg 0 == 0x0010#16 &&
      t.psw == 0x00#8) = true := by decide

-- U31
theorem test_mfps_sign_extends :
    after (harness [0x8DC2] [(2, 0x1234)] 0xE4#8 []) (fun t => t.reg 2 == 0xFFE4#16 &&
      t.psw == 0xE8#8) = true := by decide

-- U32
theorem test_mfps_memory_byte :
    after (harness [0x8DCA] [(2, 0x2001)] 0x24#8 [(0x2000, 0xAAAA)]) (fun t =>
      t.mem.readWord 0x2000#16 == 0x24AA#16 && t.psw == 0x20#8) = true := by decide

-- S8
theorem test_mov_one_register_twice :
    after (harness [0x1820] [(0, 0x2000)] 0x00#8 [(0x1FFE, 0x7777)]) (fun t =>
      t.mem.readWord 0x1FFC#16 == 0x7777#16 && t.reg 0 == 0x1FFC#16 && t.psw == 0x00#8) = true := by decide

-- A17
theorem test_mov_two_index_words :
    after (harness [0x1C31, 0x0002, 0x0004] [(0, 0x2000), (1, 0x3000)] 0x00#8 [(0x2002, 0xBEEF)]) (fun t =>
      t.mem.readWord 0x3004#16 == 0xBEEF#16 && t.pc == 0x1006#16 && t.psw == 0x08#8) = true := by decide

-- A3
theorem test_movb_sign_extends :
    after (harness [0x9401] [(0, 0x2000)] 0x00#8 [(0x2000, 0x80FF)]) (fun t => t.reg 0 == 0x2001#16 &&
      t.reg 1 == 0xFFFF#16 && t.psw == 0x08#8) = true := by decide

-- D4
theorem test_movb_memory_keeps_other_byte :
    after (harness [0x9009] [(0, 0x1280), (1, 0x2000)] 0x00#8 [(0x2000, 0x5555)]) (fun t =>
      t.mem.readWord 0x2000#16 == 0x5580#16 && t.psw == 0x08#8) = true := by decide

-- D5
theorem test_cmp_borrow :
    after (harness [0x2001] [(0, 0x0005), (1, 0x0007)] 0x00#8 []) (fun t => t.reg 0 == 0x0005#16 &&
      t.reg 1 == 0x0007#16 && t.psw == 0x09#8) = true := by decide

-- D6
theorem test_cmp_overflow :
    after (harness [0x2001] [(0, 0x8000), (1, 0x0001)] 0x00#8 []) (fun t => t.reg 0 == 0x8000#16 &&
      t.reg 1 == 0x0001#16 && t.psw == 0x02#8) = true := by decide

-- D8
theorem test_cmpb :
    after (harness [0xA001] [(0, 0x0180), (1, 0x0201)] 0x00#8 []) (fun t => t.reg 0 == 0x0180#16 &&
      t.reg 1 == 0x0201#16 && t.psw == 0x02#8) = true := by decide

-- D9
theorem test_bit :
    after (harness [0x3001] [(0, 0x8001), (1, 0x8000)] 0x00#8 []) (fun t => t.reg 0 == 0x8001#16 &&
      t.reg 1 == 0x8000#16 && t.psw == 0x08#8) = true := by decide

-- by hand from 41_double_operand.md R183
theorem test_bitb :
    after (harness [0xB001] [(0, 0x7F81), (1, 0x0180)] 0x0F#8 []) (fun t => t.reg 0 == 0x7F81#16 &&
      t.reg 1 == 0x0180#16 && t.psw == 0x09#8) = true := by decide

-- D10
theorem test_bic :
    after (harness [0x4001] [(0, 0x00FF), (1, 0x1234)] 0x00#8 []) (fun t => t.reg 0 == 0x00FF#16 &&
      t.reg 1 == 0x1200#16 && t.psw == 0x00#8) = true := by decide

-- D11
theorem test_bicb :
    after (harness [0xC001] [(0, 0x000F), (1, 0x12FF)] 0x00#8 []) (fun t => t.reg 0 == 0x000F#16 &&
      t.reg 1 == 0x12F0#16 && t.psw == 0x08#8) = true := by decide

-- D12
theorem test_bis :
    after (harness [0x5001] [(0, 0x8000), (1, 0x0001)] 0x00#8 []) (fun t => t.reg 0 == 0x8000#16 &&
      t.reg 1 == 0x8001#16 && t.psw == 0x08#8) = true := by decide

-- D13
theorem test_bisb :
    after (harness [0xD001] [(0, 0x0080), (1, 0x1200)] 0x00#8 []) (fun t => t.reg 0 == 0x0080#16 &&
      t.reg 1 == 0x1280#16 && t.psw == 0x08#8) = true := by decide

-- D16
theorem test_add_carry_and_overflow :
    after (harness [0x6001] [(0, 0x8000), (1, 0x8000)] 0x00#8 []) (fun t => t.reg 0 == 0x8000#16 &&
      t.reg 1 == 0x0000#16 && t.psw == 0x07#8) = true := by decide

-- S8
theorem test_add_one_register_twice :
    after (harness [0x6400] [(0, 0x2000)] 0x00#8 [(0x2000, 0x0003)]) (fun t => t.reg 0 == 0x2005#16 &&
      t.psw == 0x00#8) = true := by decide

-- D17
theorem test_sub_borrow :
    after (harness [0xE001] [(0, 0x0003), (1, 0x0001)] 0x00#8 []) (fun t => t.reg 0 == 0x0003#16 &&
      t.reg 1 == 0xFFFE#16 && t.psw == 0x09#8) = true := by decide

-- D18
theorem test_sub_overflow :
    after (harness [0xE001] [(0, 0x0001), (1, 0x8000)] 0x00#8 []) (fun t => t.reg 0 == 0x0001#16 &&
      t.reg 1 == 0x7FFF#16 && t.psw == 0x02#8) = true := by decide

-- D20
theorem test_xor :
    after (harness [0x7801] [(0, 0xFF00), (1, 0x0FF0)] 0x00#8 []) (fun t => t.reg 0 == 0xFF00#16 &&
      t.reg 1 == 0xF0F0#16 && t.psw == 0x08#8) = true := by decide

-- B1
theorem test_br_back_one :
    after (harness [0x01FF] [] 0x00#8 []) (fun t => t.pc == 0x1000#16) = true := by decide

-- B2
theorem test_br_most_negative :
    after (harness [0x0180] [] 0x00#8 []) (fun t => t.pc == 0x0F02#16) = true := by decide

-- branch table, 43_control.md
theorem test_bne_taken :
    after (harness [0x0205] [] 0x03#8 []) (fun t => t.pc == 0x100C#16 && t.psw == 0x03#8) = true := by decide

-- branch table, 43_control.md
theorem test_bne_not_taken :
    after (harness [0x0205] [] 0x04#8 []) (fun t => t.pc == 0x1002#16 && t.psw == 0x04#8) = true := by decide

-- branch table, 43_control.md
theorem test_beq_taken :
    after (harness [0x0305] [] 0x04#8 []) (fun t => t.pc == 0x100C#16 && t.psw == 0x04#8) = true := by decide

-- branch table, 43_control.md
theorem test_beq_not_taken :
    after (harness [0x0305] [] 0x03#8 []) (fun t => t.pc == 0x1002#16 && t.psw == 0x03#8) = true := by decide

-- branch table, 43_control.md
theorem test_bge_taken :
    after (harness [0x0405] [] 0x0A#8 []) (fun t => t.pc == 0x100C#16 && t.psw == 0x0A#8) = true := by decide

-- branch table, 43_control.md
theorem test_bge_not_taken :
    after (harness [0x0405] [] 0x02#8 []) (fun t => t.pc == 0x1002#16 && t.psw == 0x02#8) = true := by decide

-- branch table, 43_control.md
theorem test_blt_taken :
    after (harness [0x0505] [] 0x02#8 []) (fun t => t.pc == 0x100C#16 && t.psw == 0x02#8) = true := by decide

-- branch table, 43_control.md
theorem test_blt_not_taken :
    after (harness [0x0505] [] 0x0A#8 []) (fun t => t.pc == 0x1002#16 && t.psw == 0x0A#8) = true := by decide

-- branch table, 43_control.md
theorem test_bgt_taken :
    after (harness [0x0605] [] 0x00#8 []) (fun t => t.pc == 0x100C#16 && t.psw == 0x00#8) = true := by decide

-- branch table, 43_control.md
theorem test_bgt_not_taken :
    after (harness [0x0605] [] 0x06#8 []) (fun t => t.pc == 0x1002#16 && t.psw == 0x06#8) = true := by decide

-- branch table, 43_control.md
theorem test_ble_taken :
    after (harness [0x0705] [] 0x06#8 []) (fun t => t.pc == 0x100C#16 && t.psw == 0x06#8) = true := by decide

-- branch table, 43_control.md
theorem test_ble_not_taken :
    after (harness [0x0705] [] 0x00#8 []) (fun t => t.pc == 0x1002#16 && t.psw == 0x00#8) = true := by decide

-- branch table, 43_control.md
theorem test_bpl_taken :
    after (harness [0x8005] [] 0x07#8 []) (fun t => t.pc == 0x100C#16 && t.psw == 0x07#8) = true := by decide

-- branch table, 43_control.md
theorem test_bpl_not_taken :
    after (harness [0x8005] [] 0x08#8 []) (fun t => t.pc == 0x1002#16 && t.psw == 0x08#8) = true := by decide

-- branch table, 43_control.md
theorem test_bmi_taken :
    after (harness [0x8105] [] 0x08#8 []) (fun t => t.pc == 0x100C#16 && t.psw == 0x08#8) = true := by decide

-- branch table, 43_control.md
theorem test_bmi_not_taken :
    after (harness [0x8105] [] 0x07#8 []) (fun t => t.pc == 0x1002#16 && t.psw == 0x07#8) = true := by decide

-- branch table, 43_control.md
theorem test_bhi_taken :
    after (harness [0x8205] [] 0x0A#8 []) (fun t => t.pc == 0x100C#16 && t.psw == 0x0A#8) = true := by decide

-- branch table, 43_control.md
theorem test_bhi_not_taken :
    after (harness [0x8205] [] 0x05#8 []) (fun t => t.pc == 0x1002#16 && t.psw == 0x05#8) = true := by decide

-- branch table, 43_control.md
theorem test_blos_taken :
    after (harness [0x8305] [] 0x01#8 []) (fun t => t.pc == 0x100C#16 && t.psw == 0x01#8) = true := by decide

-- branch table, 43_control.md
theorem test_blos_not_taken :
    after (harness [0x8305] [] 0x0A#8 []) (fun t => t.pc == 0x1002#16 && t.psw == 0x0A#8) = true := by decide

-- branch table, 43_control.md
theorem test_bvc_taken :
    after (harness [0x8405] [] 0x0D#8 []) (fun t => t.pc == 0x100C#16 && t.psw == 0x0D#8) = true := by decide

-- branch table, 43_control.md
theorem test_bvc_not_taken :
    after (harness [0x8405] [] 0x02#8 []) (fun t => t.pc == 0x1002#16 && t.psw == 0x02#8) = true := by decide

-- branch table, 43_control.md
theorem test_bvs_taken :
    after (harness [0x8505] [] 0x02#8 []) (fun t => t.pc == 0x100C#16 && t.psw == 0x02#8) = true := by decide

-- branch table, 43_control.md
theorem test_bvs_not_taken :
    after (harness [0x8505] [] 0x0D#8 []) (fun t => t.pc == 0x1002#16 && t.psw == 0x0D#8) = true := by decide

-- branch table, 43_control.md
theorem test_bcc_taken :
    after (harness [0x8605] [] 0x0E#8 []) (fun t => t.pc == 0x100C#16 && t.psw == 0x0E#8) = true := by decide

-- branch table, 43_control.md
theorem test_bcc_not_taken :
    after (harness [0x8605] [] 0x01#8 []) (fun t => t.pc == 0x1002#16 && t.psw == 0x01#8) = true := by decide

-- branch table, 43_control.md
theorem test_bcs_taken :
    after (harness [0x8705] [] 0x01#8 []) (fun t => t.pc == 0x100C#16 && t.psw == 0x01#8) = true := by decide

-- branch table, 43_control.md
theorem test_bcs_not_taken :
    after (harness [0x8705] [] 0x0E#8 []) (fun t => t.pc == 0x1002#16 && t.psw == 0x0E#8) = true := by decide

-- J2
theorem test_jmp_absolute :
    after (harness [0x005F, 0x2000] [] 0x00#8 []) (fun t => t.pc == 0x2000#16) = true := by decide

-- J4
theorem test_jmp_register_is_illegal :
    after (harness [0x0040] [(0, 0x0001)] 0x00#8 []) (fun t => t.reg 0 == 0x0001#16 &&
      t.mem.readWord 0x03FE#16 == 0x0000#16 && t.mem.readWord 0x03FC#16 == 0x1002#16 && t.sp == 0x03FC#16 &&
      t.pc == 0x4100#16 && t.psw == 0xE0#8) = true := by decide

-- J5
theorem test_jsr_pc_pushes_return :
    after (harness [0x09DF, 0x2000] [] 0x00#8 []) (fun t => t.mem.readWord 0x03FE#16 == 0x1004#16 &&
      t.sp == 0x03FE#16 && t.pc == 0x2000#16) = true := by decide

-- J6
theorem test_jsr_linkage_register :
    after (harness [0x0948] [(0, 0x2000), (5, 0x1234)] 0x00#8 []) (fun t => t.mem.readWord 0x03FE#16 == 0x1234#16 &&
      t.reg 5 == 0x1002#16 && t.sp == 0x03FE#16 && t.pc == 0x2000#16) = true := by decide

-- J7
theorem test_rts_linkage_register :
    after (harness [0x0085] [(5, 0x3000), (6, 0x03FE)] 0x00#8 [(0x03FE, 0x1234)]) (fun t => t.pc == 0x3000#16 &&
      t.reg 5 == 0x1234#16 && t.sp == 0x0400#16) = true := by decide

-- J8
theorem test_rts_pc :
    after (harness [0x0087] [] 0x00#8 [(0x0400, 0x2000)]) (fun t => t.pc == 0x2000#16 &&
      t.sp == 0x0402#16) = true := by decide

-- J9
theorem test_sob_ends :
    after (harness [0x7E01] [(0, 0x0001)] 0x00#8 []) (fun t => t.reg 0 == 0x0000#16 &&
      t.pc == 0x1002#16) = true := by decide

-- J12
theorem test_sob_largest_offset :
    after (harness [0x7E3F] [(0, 0x0005)] 0x00#8 []) (fun t => t.reg 0 == 0x0004#16 &&
      t.pc == 0x0F84#16) = true := by decide

-- Y1
theorem test_halt_stops :
    after (harness [0x0000] [] 0x00#8 []) (fun t => t.halted && t.pc == 0x1002#16 &&
      t.ppc == 0x1000#16) = true := by decide

-- Y2
theorem test_halt_traps :
    after (withTrap4 (harness [0x0000] [] 0x00#8 [])) (fun t => !t.halted && t.mem.readWord 0x03FE#16 == 0x0000#16 &&
      t.mem.readWord 0x03FC#16 == 0x1002#16 && t.sp == 0x03FC#16 && t.pc == 0x4000#16 &&
      t.psw == 0xE0#8) = true := by decide

-- Y3
theorem test_wait :
    after (harness [0x0001] [] 0x00#8 []) (fun t => t.waiting && t.pc == 0x1002#16) = true := by decide

-- Y5
theorem test_reset_output :
    after (harness [0x0005] [] 0x00#8 []) (fun t => t.events == [BusEvent.resetOut] && t.pc == 0x1002#16 &&
      t.psw == 0x00#8) = true := by decide

-- Y6
theorem test_rti_whole_psw :
    after (harness [0x0002] [] 0x00#8 [(0x0400, 0x2000), (0x0402, 0xFF2F)]) (fun t => t.pc == 0x2000#16 &&
      t.psw == 0x2F#8 && t.sp == 0x0404#16) = true := by decide

-- Y7
theorem test_rti_restores_trace_and_traps :
    after (harness [0x0002] [] 0x00#8 [(0x0400, 0x2000), (0x0402, 0x0010)]) (fun t =>
      t.mem.readWord 0x0402#16 == 0x0010#16 && t.mem.readWord 0x0400#16 == 0x2000#16 && t.sp == 0x0400#16 &&
      t.pc == 0x4200#16 && t.psw == 0xE0#8) = true := by decide

-- Y8
theorem test_rtt_restores_trace_without_trap :
    after (harness [0x0006] [] 0x00#8 [(0x0400, 0x2000), (0x0402, 0x0010)]) (fun t => t.pc == 0x2000#16 &&
      t.psw == 0x10#8 && t.sp == 0x0404#16) = true := by decide

-- Y9
theorem test_bpt :
    after (harness [0x0003] [] 0x0F#8 []) (fun t => t.mem.readWord 0x03FE#16 == 0x000F#16 &&
      t.mem.readWord 0x03FC#16 == 0x1002#16 && t.sp == 0x03FC#16 && t.pc == 0x4200#16 &&
      t.psw == 0xE0#8) = true := by decide

-- Y10
theorem test_iot :
    after (harness [0x0004] [] 0x00#8 []) (fun t => t.mem.readWord 0x03FE#16 == 0x0000#16 &&
      t.mem.readWord 0x03FC#16 == 0x1002#16 && t.sp == 0x03FC#16 && t.pc == 0x4300#16 &&
      t.psw == 0xE0#8) = true := by decide

-- Y11
theorem test_emt :
    after (harness [0x88AB] [] 0x00#8 []) (fun t => t.mem.readWord 0x03FE#16 == 0x0000#16 &&
      t.mem.readWord 0x03FC#16 == 0x1002#16 && t.sp == 0x03FC#16 && t.pc == 0x4500#16 &&
      t.psw == 0xE0#8) = true := by decide

-- Y12
theorem test_trap :
    after (harness [0x8900] [] 0x00#8 []) (fun t => t.mem.readWord 0x03FE#16 == 0x0000#16 &&
      t.mem.readWord 0x03FC#16 == 0x1002#16 && t.sp == 0x03FC#16 && t.pc == 0x4600#16 &&
      t.psw == 0xE0#8) = true := by decide

-- Y13
theorem test_clear_group :
    after (harness [0x00AF] [] 0xEF#8 []) (fun t => t.psw == 0xE0#8) = true := by decide

-- Y16
theorem test_clear_group_mask_zero :
    after (harness [0x00A0] [] 0x05#8 []) (fun t => t.psw == 0x05#8) = true := by decide

-- Y14
theorem test_set_group_one :
    after (harness [0x00B1] [] 0x00#8 []) (fun t => t.psw == 0x01#8) = true := by decide

-- Y15
theorem test_set_group_all :
    after (harness [0x00BF] [] 0x00#8 []) (fun t => t.psw == 0x0F#8) = true := by decide

-- X1
theorem test_illegal_last_word :
    after (harness [0xFFFF] [] 0x00#8 []) (fun t => t.mem.readWord 0x03FE#16 == 0x0000#16 &&
      t.mem.readWord 0x03FC#16 == 0x1002#16 && t.sp == 0x03FC#16 && t.pc == 0x4100#16 &&
      t.psw == 0xE0#8) = true := by decide

-- S4
theorem test_illegal_keeps_registers :
    after (harness [0x0007] [(0, 0x0001), (1, 0x0002), (2, 0x0003), (3, 0x0004), (4, 0x0005)] 0x0F#8 []) (fun t =>
      t.reg 0 == 0x0001#16 && t.reg 1 == 0x0002#16 && t.reg 2 == 0x0003#16 && t.reg 3 == 0x0004#16 &&
      t.reg 4 == 0x0005#16 && t.mem.readWord 0x03FE#16 == 0x000F#16 && t.mem.readWord 0x03FC#16 == 0x1002#16 &&
      t.sp == 0x03FC#16 && t.pc == 0x4100#16 && t.psw == 0xE0#8 && t.ppc == 0x1000#16) = true := by decide

-- X5
theorem test_trace_trap :
    after (harness [0x0A80] [(0, 0x0000)] 0x10#8 []) (fun t => t.reg 0 == 0x0001#16 &&
      t.mem.readWord 0x03FE#16 == 0x0010#16 && t.mem.readWord 0x03FC#16 == 0x1002#16 && t.sp == 0x03FC#16 &&
      t.pc == 0x4200#16 && t.psw == 0xE0#8) = true := by decide

-- X8
theorem test_power_fail_at_priority_seven :
    after (setPowerFail (harness [0x00A0] [] 0xE0#8 [])) (fun t => t.mem.readWord 0x03FE#16 == 0x00E0#16 &&
      t.mem.readWord 0x03FC#16 == 0x1000#16 && t.sp == 0x03FC#16 && t.pc == 0x4400#16 && t.psw == 0xE0#8 &&
      !t.pfail && t.ppc == 0#16) = true := by decide

-- X10
theorem test_two_lines_greatest_first :
    after (setLine 0 true 0x60#16 <| setLine 3 true 0x70#16 <|
      (harness [0x00A0] [] 0x00#8
        [(0x0060, 0x5000), (0x0062, 0x00E0), (0x0070, 0x6000), (0x0072, 0x00E0)]))
      (fun t => t.pc == 0x6000#16 && t.psw == 0xE0#8) = true := by decide

-- S6
theorem test_equal_priority_is_not_taken :
    after (setLine 1 true 0x60#16 (harness [0x00A0] [] 0xA0#8 [(0x0060, 0x5000), (0x0062, 0x00E0)])) (fun t =>
      t.pc == 0x1002#16 && t.sp == 0x0400#16 && t.psw == 0xA0#8) = true := by decide

-- S6
theorem test_greater_priority_is_taken :
    after (setLine 1 true 0x60#16 (harness [0x00A0] [] 0x80#8 [(0x0060, 0x5000), (0x0062, 0x00E0)])) (fun t =>
      t.mem.readWord 0x03FE#16 == 0x0080#16 && t.mem.readWord 0x03FC#16 == 0x1000#16 && t.sp == 0x03FC#16 &&
      t.pc == 0x5000#16 && t.psw == 0xE0#8 && t.ppc == 0x1000#16) = true := by decide

-- X11
theorem test_double_fault :
    after (withOdd (harness [0x0007] [(6, 0x0401)] 0x00#8 [])) (fun t => t.halted && t.doubleFault &&
      t.sp == 0x03FF#16 && t.pc == 0x1002#16) = true := by decide

-- X12
theorem test_odd_pc_fetches_even :
    after (harness [0x0A80] [(0, 0x0000), (7, 0x1001)] 0x00#8 []) (fun t => t.pc == 0x1003#16 && t.ppc == 0x1001#16 &&
      t.reg 0 == 0x0001#16) = true := by decide

-- by hand from 10_state.md R51: INC R3 reads R3, which nothing has written, and TST (R2)+ R2
theorem test_unwritten_register_is_marked :
    after (harness [0x0A83] [] 0x00#8 []) (fun t => t.unwrittenRead == some 3 && t.reg 3 == 0x0001#16) = true ∧
    after (harness [0x0BD2] [] 0x00#8 []) (fun t => t.unwrittenRead == some 2 && t.written[(2 : Reg)]) = true := by decide

-- by hand from 10_state.md R51: CLR R3 writes R3 without reading it, CLRB R3 leaves it unwritten, and neither is a read
theorem test_write_is_no_read :
    after (harness [0x0A03] [] 0x00#8 []) (fun t => t.unwrittenRead == none && t.written[(3 : Reg)]) = true ∧
    after (harness [0x8A03] [] 0x00#8 []) (fun t => t.unwrittenRead == none && !t.written[(3 : Reg)]) = true := by decide

-- by hand from 70_reset_and_hazards.md R406: HALT after a read of an unwritten register is no good end
theorem test_halt_after_unwritten_read :
    after { harness [0x0000] [] 0x00#8 [] with unwrittenRead := some 3 } (fun t =>
      t.halted && !endedWell t && haltReason t == .unwrittenRegister 3) = true := by decide

/-! ### Inputs that meet the hypotheses of the statements -/

theorem after_next {s : State} {p : State → Bool} (h : after s p = true) : ∃ t, step s = .next t ∧ p t = true := by
  unfold after at h
  split at h
  · exact ⟨_, by assumption, h⟩
  · cases h

/-- On the reference bus: R0 = 0x2000, R1 = 0x2010, R5 = 0x3000, and pc = 0x1002 as after an opcode fetch. -/
def plain : State := (harness [0x0A80] [(0, 0x2000), (1, 0x2010), (5, 0x3000)] 0x0B#8 [(0x2000, 0x2020)]).setPc 0x1002#16

/-- Nothing answers from 0x3000 to 0x3FFF. -/
def gap : Region := { base := 0x3000, size := 0x1000, kind := .absent }

/-- `plain` with R0 = 0x3000 inside a gap of the bus. -/
def torn : State := { plain.setReg 0 0x3000#16 with params := { Config.defaults with platform := [gap] } }

/-- An odd pc under BUS_ERROR, with no byte at 0x1003: an immediate can be read there and not written. -/
def oddStream : State :=
  { plain.setPc 0x1003#16 with
    params := { Config.defaults with
      oddWord := .busError
      platform := [{ base := 0x1003, size := 1, kind := .absent }] } }

/-- SP inside a gap. -/
def tornStack : State := torn.setSp 0x3400#16

/-- The inputs of a destination that is read and written: on the reference bus the calls complete, and each of them can
fail. -/
abbrev ModifyInputs {w : Nat} (acc : Access w) : Prop :=
  ReferenceBus plain ∧
  (∃ o t dv u, resolve acc.size ⟨.autoInc, 0⟩ plain = .ok o t ∧ acc.read o t = .ok dv u ∧
    ∀ v, ∃ x, acc.write o v u = .ok () x) ∧
  (∃ u, resolve acc.size ⟨.autoIncDeferred, 0⟩ torn = .err u) ∧
  (∃ o t u, resolve acc.size ⟨.deferred, 0⟩ torn = .ok o t ∧ acc.read o t = .err u) ∧
  ∃ o t dv u, resolve acc.size ⟨.autoInc, 7⟩ oddStream = .ok o t ∧ acc.read o t = .ok dv u ∧
    ∀ v, ∃ x, acc.write o v u = .err x

theorem word_modify_inputs : ModifyInputs wordAccess :=
  ⟨by decide, ⟨_, _, _, _, rfl, rfl, fun _ => ⟨_, rfl⟩⟩, ⟨_, rfl⟩, ⟨_, _, _, rfl, rfl⟩,
    ⟨_, _, _, _, rfl, rfl, fun _ => ⟨_, rfl⟩⟩⟩

theorem byte_modify_inputs : ModifyInputs byteAccess :=
  ⟨by decide, ⟨_, _, _, _, rfl, rfl, fun _ => ⟨_, rfl⟩⟩, ⟨_, rfl⟩, ⟨_, _, _, rfl, rfl⟩,
    ⟨_, _, _, _, rfl, rfl, fun _ => ⟨_, rfl⟩⟩⟩

/-- The inputs of a destination that is only written. -/
abbrev StoreInputs {w : Nat} (acc : Access w) : Prop :=
  ReferenceBus plain ∧
  (∃ o t, resolve acc.size ⟨.autoInc, 0⟩ plain = .ok o t ∧ ∀ v, ∃ x, acc.write o v t = .ok () x) ∧
  (∃ u, resolve acc.size ⟨.autoIncDeferred, 0⟩ torn = .err u) ∧
  ∃ o t, resolve acc.size ⟨.deferred, 0⟩ torn = .ok o t ∧ ∀ v, ∃ x, acc.write o v t = .err x

theorem word_store_inputs : StoreInputs wordAccess :=
  ⟨by decide, ⟨_, _, rfl, fun _ => ⟨_, rfl⟩⟩, ⟨_, rfl⟩, ⟨_, _, rfl, fun _ => ⟨_, rfl⟩⟩⟩

theorem byte_store_inputs : StoreInputs byteAccess :=
  ⟨by decide, ⟨_, _, rfl, fun _ => ⟨_, rfl⟩⟩, ⟨_, rfl⟩, ⟨_, _, rfl, fun _ => ⟨_, rfl⟩⟩⟩

theorem signed_store_inputs : StoreInputs signedByteAccess :=
  ⟨by decide, ⟨_, _, rfl, fun _ => ⟨_, rfl⟩⟩, ⟨_, rfl⟩, ⟨_, _, rfl, fun _ => ⟨_, rfl⟩⟩⟩

/-- A source operand that loads in each of the states above, and one that does not. -/
abbrev SourceInputs {w : Nat} (acc : Access w) : Prop :=
  (∀ s ∈ [plain, torn, oddStream], ∃ sv, loadOp acc ⟨.register, 1⟩ s = .ok sv s) ∧
  (∃ u, loadOp acc ⟨.deferred, 0⟩ torn = .err u) ∧ ∃ u, loadOp acc ⟨.autoIncDeferred, 0⟩ torn = .err u

theorem written_one : ∀ s ∈ [plain, torn, oddStream], s.written[(1 : Reg)] = true := by decide

theorem word_source_inputs : SourceInputs wordAccess :=
  ⟨fun s h => ⟨_, congrArg (Res.ok _) (State.noteRead_of_written (written_one s h))⟩, ⟨_, rfl⟩, ⟨_, rfl⟩⟩

theorem byte_source_inputs : SourceInputs byteAccess :=
  ⟨fun s h => ⟨_, congrArg (Res.ok _) (State.noteRead_of_written (written_one s h))⟩, ⟨_, rfl⟩, ⟨_, rfl⟩⟩

theorem signed_source_inputs : SourceInputs signedByteAccess :=
  ⟨fun s h => ⟨_, congrArg (Res.ok _) (State.noteRead_of_written (written_one s h))⟩, ⟨_, rfl⟩, ⟨_, rfl⟩⟩

/-! One witness for each statement that has hypotheses, under its name. -/

theorem witness_DecodeOfEncode :
    (Instr.mov ⟨.autoInc, 7⟩ ⟨.indexedDeferred, 0⟩).wellFormed = true ∧ (Instr.illegal 0x0007).wellFormed = true ∧
    (Instr.illegal 0xFFFF).wellFormed = true := by decide

theorem witness_StepRunsDecodedInstruction :
    let s := (harness [0x0A30, 0x0004] [] 0#8 []).setPc 0x1001#16
    s.halted = false ∧ s.pfail = false ∧ bestLine s = none ∧ s.waiting = false ∧
    regionAt s.params (evenAddr s.pc) = none ∧
    decodeBytes (s.mem.read (evenAddr s.pc).toNat :: s.mem.read ((evenAddr s.pc).toNat + 1) :: [0x04, 0x00, 0x99]) =
      .ok (.clr ⟨.indexed, 0⟩, [0x99]) := by decide

/-- Registers beside the one written, at both ends; an unwritten one of each end of R0 to R5, and SP, which is none. -/
theorem witness_OperandAccess :
    (0 : Reg) ≠ 7 ∧ (7 : Reg) ≠ 0 ∧
    (State.reset.unwrittenRead = none ∧ (0 : Reg).val < 6 ∧ State.reset.written[(0 : Reg)] = false) ∧
    ((5 : Reg).val < 6 ∧ State.reset.written[(5 : Reg)] = false) ∧ ¬ (SP.val < 6) ∧
    plain.written[(0 : Reg)] = true := by decide

/-- The highest even address, and the lowest. -/
theorem witness_LittleEndianWords :
    (0xFFFE#16).toNat % 2 = 0 ∧ regionAt plain.params 0xFFFE#16 = none ∧
    (0x0000#16).toNat % 2 = 0 ∧ regionAt torn.params 0x0000#16 = none := by decide

theorem witness_OddWordPolicy :
    (plain.params.platform = [] ∧ plain.params.oddWord = .align) ∧ (withOdd plain).params.platform = [] ∧
    (withOdd plain).params.oddWord = .busError ∧ (0xFFFF#16).getLsbD 0 = true := by decide

/-- A word write at the odd top address, and bytes at both ends of the space. -/
theorem witness_ReadAfterWrite :
    ReferenceBus plain ∧ 0x0000#16 &&& 0xFFFE#16 ≠ 0xFFFF#16 &&& 0xFFFE#16 ∧ 0x0000#16 ≠ 0xFFFF#16 := by decide

theorem witness_FetchReadsCurrentMemory :
    (∃ w t, readWord (plain.pc &&& 0xFFFE#16) plain = .ok w t) ∧
    (∃ t, readWord ((torn.setPc 0x3FFF#16).pc &&& 0xFFFE#16) (torn.setPc 0x3FFF#16) = .err t) ∧
    ReferenceBus (plain.setPc 0xFFFF#16) ∧
    (plain.setPc 0xFFFF#16).pc &&& 0xFFFE#16 = 0xFFFE#16 &&& 0xFFFE#16 :=
  ⟨⟨_, _, rfl⟩, ⟨_, rfl⟩, by decide, by decide⟩

/-- The first and last address of a gap and of a device. -/
theorem witness_PlatformAccess :
    let p := { Config.defaults with platform := [gap, { base := 0xFF00, size := 0x100, kind := .device }] }
    regionAt p 0x3000#16 = some .absent ∧ regionAt p (0x3FFF#16 &&& 0xFFFE#16) = some .absent ∧
    regionAt p 0x2FFF#16 = none ∧ regionAt p 0x4000#16 = none ∧
    regionAt p 0xFFFF#16 = some .device ∧ regionAt p (0xFF00#16 &&& 0xFFFE#16) = some .device := by decide

theorem witness_AutoStep :
    (∃ o t, resolve .byte ⟨.autoIncDeferred, 0⟩ plain = .ok o t) ∧
    (∃ o t, resolve .byte ⟨.autoIncDeferred, 7⟩ plain = .ok o t) ∧
    ∃ o t, resolve .byte ⟨.autoDecDeferred, 7⟩ plain = .ok o t :=
  ⟨⟨_, _, rfl⟩, ⟨_, _, rfl⟩, ⟨_, _, rfl⟩⟩

theorem witness_ResolverModes : (6 : Reg) ≠ 7 ∧ (7 : Reg) = 7 := by decide

/-- An opcode word at 0x1000, and one at the top of the space. -/
theorem witness_PcOperandForms :
    (ReferenceBus plain ∧ plain.pc = 0x1000#16 + 2#16) ∧
    ReferenceBus (plain.setPc 0#16) ∧ (plain.setPc 0#16).pc = 0xFFFE#16 + 2#16 := by decide

theorem witness_ImmediateOperand :
    (∃ x t, readWord (0x1003#16 &&& 0xFFFE#16) plain = .ok x t) ∧
    ∃ t, readWord (0x3FFF#16 &&& 0xFFFE#16) torn = .err t := ⟨⟨_, _, rfl⟩, ⟨_, rfl⟩⟩

theorem witness_SameRegisterTwice : ReferenceBus plain ∧ plain.tstart = false := by decide

/-- `plain` beside a device. -/
def besideDevice : State :=
  { plain with params := { Config.defaults with platform := [{ base := 0xFF00, size := 0x100, kind := .device }] } }

/-- The four bus calls of a trap entry answer. -/
abbrev EntryAnswers (v : Word) (s : State) : Prop :=
  ∃ s1 s2 newpc s3 newps s4,
    writeWord (s.sp - 2#16) (s.psw.setWidth 16) (s.setSp (s.sp - 2#16)) = .ok () s1 ∧
    writeWord (s.sp - 4#16) s.pc (s1.setSp (s.sp - 4#16)) = .ok () s2 ∧
    readWord v s2 = .ok newpc s3 ∧ readWord (v + 2#16) s3 = .ok newps s4

/-- An even SP under BUS_ERROR, beside a gap, and beside a device; and SP 0, so that both stack words wrap. -/
theorem witness_TrapEntryEffect :
    EntryAnswers 0x0004#16 (withOdd plain) ∧ EntryAnswers 0x0004#16 torn ∧ EntryAnswers 0x0004#16 besideDevice ∧
    ReferenceBus (plain.setSp 0#16) :=
  ⟨⟨_, _, _, _, _, _, rfl, rfl, rfl, rfl⟩, ⟨_, _, _, _, _, _, rfl, rfl, rfl, rfl⟩,
    ⟨_, _, _, _, _, _, rfl, rfl, rfl, rfl⟩, by decide⟩

theorem witness_TrapEntryFrame :
    0x0400 ∉ storedBytes plain.params .word (.mem (plain.sp - 2#16)) ∧
    0x0400 ∉ storedBytes plain.params .word (.mem (plain.sp - 4#16)) ∧
    0x03FB ∉ storedBytes plain.params .word (.mem (plain.sp - 2#16)) ∧
    0x03FB ∉ storedBytes plain.params .word (.mem (plain.sp - 4#16)) ∧ NoDevice torn := by decide

/-- Each of the four bus calls of a trap entry fails in turn. -/
theorem witness_DoubleFaultHalts :
    (∃ u, push (tornStack.psw.setWidth 16) tornStack = .err u) ∧
    (∃ s1 u, push ((torn.setSp 0x4002#16).psw.setWidth 16) (torn.setSp 0x4002#16) = .ok () s1 ∧
      push (torn.setSp 0x4002#16).pc s1 = .err u) ∧
    (∃ s1 s2 u, push (torn.psw.setWidth 16) torn = .ok () s1 ∧ push torn.pc s1 = .ok () s2 ∧
      readWord 0x3000#16 s2 = .err u) ∧
    ∃ s1 s2 w s3 u, push (torn.psw.setWidth 16) torn = .ok () s1 ∧ push torn.pc s1 = .ok () s2 ∧
      readWord 0x2FFE#16 s2 = .ok w s3 ∧ readWord (0x2FFE#16 + 2#16) s3 = .err u :=
  ⟨⟨_, rfl⟩, ⟨_, _, rfl, rfl⟩, ⟨_, _, _, rfl, rfl, rfl⟩, ⟨_, _, _, _, _, rfl, rfl, rfl, rfl⟩⟩

theorem witness_IllegalInstructionTraps :
    let s := harness [0x0007] [] 0#8 []
    boundary s = .instruction ∧ (∃ t, fetch (beginInstr s) = .ok 0x0007#16 t) ∧ isIllegalWord 0x0007#16 = true :=
  ⟨by decide, ⟨_, rfl⟩, by decide⟩

/-- SP in the gap, SP 2 below it, and the reference bus. -/
theorem witness_ReturnInstructions :
    (∃ u, pop tornStack = .err u) ∧
    (∃ a s1 u, pop (torn.setSp 0x2FFE#16) = .ok a s1 ∧ pop (s1.setPc a) = .err u) ∧
    (∃ a s1 p s2, pop plain = .ok a s1 ∧ pop (s1.setPc a) = .ok p s2) ∧ ReferenceBus plain :=
  ⟨⟨_, rfl⟩, ⟨_, _, _, rfl, rfl⟩, ⟨_, _, _, _, rfl, rfl⟩, by decide⟩

/-- The state right after the entry itself. -/
theorem witness_ReturnRestoresExactly :
    let h := trapEntry 0x0004#16 plain
    ReferenceBus plain ∧ ReferenceBus h ∧ h.sp = (trapEntry 0x0004#16 plain).sp ∧
    readWord h.sp h = .ok plain.pc h ∧ readWord (h.sp + 2#16) h = .ok (plain.psw.setWidth 16) h := by decide

/-- One state for each step of the order. -/
theorem witness_StepOrder :
    { plain with halted := true }.halted = true ∧
    (plain.halted = false ∧ (setPowerFail plain).halted = false ∧ (setPowerFail plain).pfail = true) ∧
    bestLine (setLine 3 true 0x60#16 plain) = some 3 ∧
    (bestLine { plain with waiting := true } = none ∧ { plain with waiting := true }.waiting = true) ∧
    (plain.pfail = false ∧ bestLine plain = none ∧ plain.waiting = false) := by decide

theorem witness_StepOrder_fetch :
    (∃ w t, fetch { plain with ppc := plain.pc, tstart := plain.psw.getLsbD 4 } = .ok w t) ∧
    let s := torn.setPc 0x3FFF#16
    (s.halted = false ∧ s.pfail = false ∧ bestLine s = none ∧ s.waiting = false) ∧
    ∃ t, fetch { s with ppc := s.pc, tstart := s.psw.getLsbD 4 } = .err t :=
  ⟨⟨_, _, rfl⟩, by decide, ⟨_, rfl⟩⟩

/-- Equal levels go to the higher line, a level equal to PRI asks for nothing, and PRI 7 shuts all lines out. -/
theorem witness_LineSelection :
    let two (pri : Byte) := setLine 1 true 0x60#16 (setLine 2 true 0x70#16
      { State.reset with psw := pri, params := { Config.defaults with linePriority := #v[4, 5, 5, 7] } })
    bestLine (two 0x80#8) = some 2 ∧ bestLine (two 0xA0#8) = none ∧ (0xE5#8).toNat / 32 = 7 ∧
    bestLine (two 0xE5#8) = none := by decide

theorem witness_AsynchronousAcceptance :
    ((setPowerFail plain).halted = false ∧ (setPowerFail plain).pfail = true) ∧
    (setLine 0 true 0x60#16 plain).halted = false ∧ (setLine 0 true 0x60#16 plain).pfail = false ∧
    bestLine (setLine 0 true 0x60#16 plain) = some 0 := by decide

/-- Both reset words answer. -/
abbrev ResetAnswers (s : State) : Prop :=
  ∃ w u x v, readWord 0x0000#16 s = .ok w u ∧ readWord 0x0002#16 u = .ok x v

theorem witness_HostResetEffect :
    ResetAnswers (withOdd plain) ∧ ResetAnswers torn ∧ ResetAnswers besideDevice ∧
    (plain.params.platform = [] ∧ (withOdd plain).params.platform = []) ∧ (5 : Reg) ≠ SP ∧ (5 : Reg) ≠ PC :=
  ⟨⟨_, _, _, _, rfl, rfl⟩, ⟨_, _, _, _, rfl, rfl⟩, ⟨_, _, _, _, rfl, rfl⟩, by decide, by decide, by decide⟩

/-- `plain` with nothing answering in the two bytes from `base` on. -/
def missing (base : Nat) : State :=
  { plain with params := { Config.defaults with platform := [{ base := base, size := 2, kind := .absent }] } }

/-- The read of the first reset word fails, and that of the second alone. -/
theorem witness_ResetFaultHalts :
    (∃ u, readWord 0x0000#16 (missing 0) = .err u) ∧
    ∃ w u v, readWord 0x0000#16 (missing 2) = .ok w u ∧ readWord 0x0002#16 u = .err v :=
  ⟨⟨_, rfl⟩, ⟨_, _, _, rfl, rfl⟩⟩

theorem witness_MoveInstructions :
    StoreInputs wordAccess ∧ SourceInputs wordAccess ∧ StoreInputs signedByteAccess ∧ SourceInputs signedByteAccess :=
  ⟨word_store_inputs, word_source_inputs, signed_store_inputs, signed_source_inputs⟩

theorem witness_CompareAndBitTest :
    ModifyInputs wordAccess ∧ SourceInputs wordAccess ∧ ModifyInputs byteAccess ∧ SourceInputs byteAccess :=
  ⟨word_modify_inputs, word_source_inputs, byte_modify_inputs, byte_source_inputs⟩

theorem witness_BitClearSetXor :
    ModifyInputs wordAccess ∧ SourceInputs wordAccess ∧ ModifyInputs byteAccess ∧ SourceInputs byteAccess :=
  ⟨word_modify_inputs, word_source_inputs, byte_modify_inputs, byte_source_inputs⟩

theorem witness_AddSubtract : ModifyInputs wordAccess ∧ SourceInputs wordAccess :=
  ⟨word_modify_inputs, word_source_inputs⟩

theorem witness_ClearExtendStatus : StoreInputs wordAccess ∧ StoreInputs byteAccess ∧ StoreInputs signedByteAccess :=
  ⟨word_store_inputs, byte_store_inputs, signed_store_inputs⟩

theorem witness_ComplementIncrementDecrement : ModifyInputs wordAccess ∧ ModifyInputs byteAccess :=
  ⟨word_modify_inputs, byte_modify_inputs⟩

theorem witness_NegateAndCarry : ModifyInputs wordAccess ∧ ModifyInputs byteAccess :=
  ⟨word_modify_inputs, byte_modify_inputs⟩

theorem witness_TestInstructions : ModifyInputs wordAccess ∧ ModifyInputs byteAccess :=
  ⟨word_modify_inputs, byte_modify_inputs⟩

theorem witness_RotatesShiftsSwap : ModifyInputs wordAccess ∧ ModifyInputs byteAccess :=
  ⟨word_modify_inputs, byte_modify_inputs⟩

theorem witness_MoveToStatus : ReferenceBus plain ∧ SourceInputs byteAccess := ⟨by decide, byte_source_inputs⟩

/-- Register mode, a failed resolution, a completed call, and a push that fails. -/
theorem witness_JumpAndCall :
    ((⟨.register, 3⟩ : Opnd).mode = .register ∧ (⟨.deferred, 0⟩ : Opnd).mode ≠ .register ∧ ReferenceBus plain) ∧
    (∃ u, resolve .word ⟨.autoIncDeferred, 0⟩ torn = .err u) ∧
    (∃ o a t u, resolve .word ⟨.deferred, 0⟩ plain = .ok o t ∧ o.address? = some a ∧
      writeWord (t.sp - 2#16) (t.reg 5) ((t.noteRead 5).setSp (t.sp - 2#16)) = .ok () u) ∧
    ∃ o a t u, resolve .word ⟨.deferred, 1⟩ tornStack = .ok o t ∧ o.address? = some a ∧
      writeWord (t.sp - 2#16) (t.reg 5) ((t.noteRead 5).setSp (t.sp - 2#16)) = .err u :=
  ⟨by decide, ⟨_, rfl⟩, ⟨_, _, _, _, rfl, rfl, rfl⟩, ⟨_, _, _, _, rfl, rfl, rfl⟩⟩

theorem witness_ReturnAndLoop :
    (∃ u, readWord tornStack.sp ((tornStack.noteRead 5).setPc (tornStack.reg 5)) = .err u) ∧
    (∃ v t, readWord plain.sp ((plain.noteRead 7).setPc (plain.reg 7)) = .ok v t) ∧ ReferenceBus plain :=
  ⟨⟨_, rfl⟩, ⟨_, _, rfl⟩, by decide⟩

theorem witness_HaltWaitReset :
    plain.params.haltAction = .stop ∧ (withTrap4 plain).params.haltAction = .trap4 ∧
    exec .halt plain = .next { plain with halted := true } := ⟨rfl, rfl, rfl⟩

/-- A byte beside the two that CLR (R0)+ stores to, and any byte for a register destination. -/
theorem witness_SingleOperandFrame :
    (∀ o t, resolve .word ⟨.autoInc, 0⟩ plain = .ok o t → 0x2002 ∉ storedBytes plain.params .word o) ∧
    (∀ o t, resolve .byte ⟨.autoInc, 0⟩ plain = .ok o t → 0x2001 ∉ storedBytes plain.params .byte o) ∧
    ∀ o t, resolve .word ⟨.register, 0⟩ plain = .ok o t → 0x2000 ∉ storedBytes plain.params .word o := by
  refine ⟨?_, ?_, ?_⟩ <;> intro o t h <;> cases h <;> decide

theorem witness_DoubleOperandFrame :
    ∀ sv s1 o t, loadOp wordAccess ⟨.register, 1⟩ plain = .ok sv s1 → resolve .word ⟨.autoInc, 0⟩ s1 = .ok o t →
      0x1FFF ∉ storedBytes plain.params .word o := by
  intro sv s1 o t h k
  cases h
  cases k
  decide

theorem witness_ControlFrame :
    (⟨.deferred, 0⟩ : Opnd).mode ≠ .register ∧
    ∀ o t, resolve .word ⟨.deferred, 0⟩ plain = .ok o t →
      0x0400 ∉ storedBytes plain.params .word (.mem (t.sp - 2#16)) := by
  refine ⟨by decide, ?_⟩
  intro o t h
  cases h
  decide

theorem witness_StepKeepsInvariant : plain.Inv ∧ ∃ t, step plain = .next t :=
  ⟨by decide, (after_next (p := fun _ => true) (by decide)).imp fun _ h => h.1⟩

theorem witness_ResetAndMovesMeetInvariant : plain.Inv := by decide

/-- `plain` after a double fault and a read of R3 while it was unwritten, running again. -/
def marked : State := { plain with doubleFault := true, unwrittenRead := some 3 }

theorem witness_StepLeavesEnvironment :
    marked.doubleFault = true ∧ marked.unwrittenRead = some 3 ∧ marked.written[(0 : Reg)] = true ∧
    ∃ t, step marked = .next t :=
  ⟨rfl, rfl, by decide, (after_next (p := fun _ => true) (by decide)).imp fun _ h => h.1⟩

theorem witness_PpcWriters :
    (∃ t, exec .wait plain = .next t) ∧ (boundary plain = .instruction ∧ ∃ t, step plain = .next t) ∧
    (∃ t, step (setLine 0 true 0x60#16 plain) = .next t) ∧ (∃ t, step (setPowerFail plain) = .next t) ∧
    bestLine (setLine 0 true 0x60#16 plain) = some 0 ∧ (setPowerFail plain).pfail = true ∧
    ResetAnswers (withOdd plain) :=
  ⟨⟨_, rfl⟩, ⟨by decide, (after_next (p := fun _ => true) (by decide)).imp fun _ h => h.1⟩,
    (after_next (p := fun _ => true) (by decide)).imp fun _ h => h.1,
    (after_next (p := fun _ => true) (by decide)).imp fun _ h => h.1, by decide, by decide, ⟨_, _, _, _, rfl, rfl⟩⟩

/-- The word after the one at 0x1000 is 0, HALT; with a mark recorded, the state it leaves has not ended well. -/
theorem witness_EndedWellOnlyByHalt :
    (∃ t, step plain = .next t ∧ endedWell t = true) ∧
    ∃ t, step { plain with unwrittenRead := some 3 } = .next t ∧ (t.halted && !endedWell t) = true :=
  ⟨after_next (by decide), after_next (by decide)⟩

/-- A step of each kind: an instruction that keeps T and PRI, RTI, MTPS under its parameter, an interrupt and power-fail. -/
theorem witness_TraceAndPriorityWriters :
    (∃ t, step plain = .next t) ∧ (∃ t, step (harness [0x0002] [] 0#8 []) = .next t) ∧
    (∃ t, step (withMtps (harness [0x8D00] [(0, 0x00FF)] 0#8 [])) = .next t) ∧
    (∃ t, step (setLine 0 true 0x60#16 plain) = .next t) ∧ ∃ t, step (setPowerFail plain) = .next t :=
  ⟨(after_next (p := fun _ => true) (by decide)).imp fun _ h => h.1,
    (after_next (p := fun _ => true) (by decide)).imp fun _ h => h.1,
    (after_next (p := fun _ => true) (by decide)).imp fun _ h => h.1,
    (after_next (p := fun _ => true) (by decide)).imp fun _ h => h.1,
    (after_next (p := fun _ => true) (by decide)).imp fun _ h => h.1⟩

/-- No region and absent regions alone; a step that fetches RESET, one that fetches something else, and one that fetches
nothing. -/
theorem witness_OnlyResetSpeaks :
    (NoDevice plain ∧ NoDevice torn ∧ ¬ NoDevice besideDevice) ∧ boundary (harness [0x0005] [] 0#8 []) = .instruction ∧
    (∃ u, fetchInstr (harness [0x0005] [] 0#8 []) = .ok .reset u) ∧
    (∃ t, step (harness [0x0005] [] 0#8 []) = .next t) ∧
    (∀ u, fetchInstr plain ≠ .ok .reset u) ∧ (∃ t, step plain = .next t) ∧
    boundary (setPowerFail plain) ≠ .instruction ∧ ∃ t, step (setPowerFail plain) = .next t := by
  refine ⟨by decide, by decide, ⟨_, rfl⟩, (after_next (p := fun _ => true) (by decide)).imp fun _ h => h.1, ?_,
    (after_next (p := fun _ => true) (by decide)).imp fun _ h => h.1, by decide,
    (after_next (p := fun _ => true) (by decide)).imp fun _ h => h.1⟩
  intro u h
  cases h

end Sys2Proof.Tests
end

section
/-! # What one step can be

The inversion of `step` along the order of spec/60_exceptions.md R370, and the frame every step has. -/

namespace Sys2Proof.Machine

/-- The five ways in which a step leads from `s` to `t`, each with the guards under which it is the one taken
(spec/60_exceptions.md R370). -/
inductive Stepped (s t : State) : Prop where
  | powerFail (running : s.halted = false) (request : s.pfail = true) (next : t = acceptPowerFail s)
  | interrupt (n : Fin 4) (running : s.halted = false) (noRequest : s.pfail = false) (line : bestLine s = some n)
      (next : t = acceptLine n s)
  | idle (running : s.halted = false) (noRequest : s.pfail = false) (noLine : bestLine s = none)
      (waiting : s.waiting = true) (next : t = s)
  | fetchFault (instruction : boundary s = .instruction) (u : State) (fetched : fetchInstr s = .err u)
      (next : t = busErrorTrap u)
  | executed (instruction : boundary s = .instruction) (i : Instr) (u : State) (fetched : fetchInstr s = .ok i u)
      (next : exec i u = .next t)

theorem boundary_of_pfail {s : State} (running : s.halted = false) (request : s.pfail = true) :
    boundary s = .taken (acceptPowerFail s) := by
  simp [boundary, running, request]

theorem boundary_of_bestLine {s : State} {n : Fin 4} (running : s.halted = false) (noRequest : s.pfail = false)
    (line : bestLine s = some n) : boundary s = .taken (acceptLine n s) := by
  simp [boundary, running, noRequest, line]

theorem step_of_taken {s t : State} (h : boundary s = .taken t) : step s = .next t := by
  simp [step, h]

theorem stepped_of_taken {s t : State} (h : boundary s = .taken t) : Stepped s t := by
  unfold boundary at h
  split at h
  · cases h
  · rename_i running
    split at h
    · rename_i request
      cases h
      exact .powerFail (by simpa using running) request rfl
    · rename_i noRequest
      split at h
      · rename_i n line
        cases h
        exact .interrupt n (by simpa using running) (by simpa using noRequest) line rfl
      · rename_i noLine
        split at h
        · rename_i waiting
          cases h
          exact .idle (by simpa using running) (by simpa using noRequest) noLine waiting rfl
        · cases h

theorem step_cases {s t : State} (h : step s = .next t) : Stepped s t := by
  unfold step at h
  split at h
  · cases h
  · rename_i u taken
    cases h
    exact stepped_of_taken taken
  · rename_i instruction
    split at h
    · rename_i i u fetched
      exact .executed instruction i u fetched h
    · rename_i u fetched
      cases h
      exact .fetchFault instruction u fetched rfl

theorem quiet_fetchInstr (s : State) : Quiet (beginInstr s) (fetchInstr s).state :=
  Quiet.bind (quiet_fetch (beginInstr s)) fun _ t => Quiet.refl t

theorem quiet_of_fetchInstr_ok {s u : State} {i : Instr} (h : fetchInstr s = .ok i u) : Quiet (beginInstr s) u := by
  simpa [h] using quiet_fetchInstr s

theorem quiet_of_fetchInstr_err {s u : State} (h : fetchInstr s = .err u) : Quiet (beginInstr s) u := by
  simpa [h] using quiet_fetchInstr s

/-- The step of an instruction is a `World` step from the state in which the instruction began. -/
theorem world_instruction {s t : State} (instruction : boundary s = .instruction) (h : step s = .next t) :
    World (beginInstr s) t := by
  unfold step at h
  simp only [instruction] at h
  split at h
  · rename_i fetched
    exact (quiet_of_fetchInstr_ok fetched).toWorld.trans (world_exec h)
  · rename_i fetched
    cases h
    exact (quiet_of_fetchInstr_err fetched).toWorld.trans (world_trapEntry _ _)

theorem world_acceptPowerFail (s : State) : World { s with pfail := false } (acceptPowerFail s) :=
  world_trapEntry _ _

theorem world_acceptLine (n : Fin 4) (s : State) : World { s with ppc := s.pc } (acceptLine n s) :=
  world_trapEntry _ _

/-- Every step is a `World` step once PPC, the trace latch and the power-fail request have been written. -/
theorem world_step {s t : State} (h : step s = .next t) :
    ∃ ppc tstart pfail, World { s with ppc := ppc, tstart := tstart, pfail := pfail } t := by
  cases step_cases h with
  | powerFail _ _ next => exact ⟨s.ppc, s.tstart, false, by rw [next]; exact world_acceptPowerFail s⟩
  | interrupt n _ _ _ next => exact ⟨s.pc, s.tstart, s.pfail, by rw [next]; exact world_acceptLine n s⟩
  | idle _ _ _ _ next => exact ⟨s.ppc, s.tstart, s.pfail, by rw [next]; exact World.refl s⟩
  | fetchFault instruction => exact ⟨s.pc, traceBit s.psw, s.pfail, world_instruction instruction h⟩
  | executed instruction => exact ⟨s.pc, traceBit s.psw, s.pfail, world_instruction instruction h⟩

end Sys2Proof.Machine
end

section
/-! # State, status and PPC: the statements about spec/10_state.md -/

namespace Sys2Proof.Claims

open Sys2Proof Sys2Proof.Machine

/-! ## What every step leaves alone -/

/-- Settles O56: a step is a `World` step up to PPC, the trace latch and the power-fail request, none of which the
statement speaks of. -/
theorem stepLeavesEnvironment : Obligations.StepLeavesEnvironment := by
  intro s t h
  obtain ⟨_, _, _, w⟩ := world_step h
  exact ⟨w.lines, w.params, w.resetFault, w.doubleFault, w.unwrittenRead, w.events, w.written⟩

end Sys2Proof.Claims
end

section
/-! # The core reset where its two reads answer -/

namespace Sys2Proof.Machine

/-- The state from which a core reset reads the reset words (spec/70_reset_and_hazards.md R390). -/
def resetStart (initPsw : Word) (s : State) : State :=
  clearRegisters { s with waiting := false, halted := false, tstart := false, pfail := false, psw := lo8 initPsw }

theorem readWord_state_of_ok {a w : Word} {s u : State} (h : readWord a s = .ok w u) :
    u = { s with events := u.events } := by
  simpa [h] using readWord_only_events a s

/-- The reset words a state reads are those of any state with its parameters, memory and history. -/
theorem resetWords_of_reads {s c u v : State} {w x : Word} (params : c.params = s.params) (mem : c.mem = s.mem)
    (events : c.events = s.events) (first : readWord 0x0000#16 s = .ok w u)
    (second : readWord 0x0002#16 u = .ok x v) : resetWords c = .ok (w, x) { c with events := v.events } := by
  have unchanged := readWord_state_of_ok first
  have paramsU : u.params = s.params := by rw [unchanged]
  have memU : u.mem = s.mem := by rw [unchanged]
  have first' := (readWord_congr params mem events).1 w u first
  have second' := (readWord_congr (c := { c with events := u.events }) (params.trans paramsU.symm)
    (mem.trans memU.symm) rfl).1 x v second
  simp only [resetWords, first', second', Res.bind_ok]

theorem hostReset_of_reads (initPsw : Word) {s u v : State} {w x : Word} (first : readWord 0x0000#16 s = .ok w u)
    (second : readWord 0x0002#16 u = .ok x v) :
    hostReset initPsw s =
      { (({ resetStart initPsw s with events := v.events } : State).setPc w).setSp x with ppc := w } := by
  have words : resetWords (resetStart initPsw s) = .ok (w, x) { resetStart initPsw s with events := v.events } :=
    resetWords_of_reads (s := s) rfl rfl rfl first second
  unfold resetStart at words
  simp only [hostReset, words]
  rfl

end Sys2Proof.Machine
end

section
/-! # PPC and the trace latch -/

namespace Sys2Proof.Claims

open Sys2Proof Sys2Proof.Machine

/-- Settles O57: `World` keeps PPC and the trace latch, and every step is a `World` step from the state in which it has
written them. -/
theorem ppcWriters : Obligations.PpcWriters := by
  refine ⟨?exec, ?trap, ?instruction, ?line, ?powerFail, ?moves, ?reset⟩
  case exec =>
    intro i s t h
    exact ⟨(world_exec h).ppc, (world_exec h).tstart⟩
  case trap =>
    intro v s
    exact (world_trapEntry v s).ppc
  case instruction =>
    intro s t instruction h
    have w := world_instruction instruction h
    exact ⟨w.ppc, w.tstart⟩
  case line =>
    intro s t n running noRequest line h
    rw [step_of_taken (boundary_of_bestLine running noRequest line)] at h
    cases h
    exact ⟨(world_acceptLine n s).ppc, (world_acceptLine n s).tstart⟩
  case powerFail =>
    intro s t running request h
    rw [step_of_taken (boundary_of_pfail running request)] at h
    cases h
    exact ⟨(world_acceptPowerFail s).ppc, (world_acceptPowerFail s).tstart⟩
  case moves =>
    intro n b v s
    exact ⟨rfl, rfl⟩
  case reset =>
    intro p w x s u v first second
    rw [hostReset_of_reads p first second]
    exact ⟨rfl, (State.pc_setSp _ x).trans (State.pc_setPc _ w)⟩

end Sys2Proof.Claims
end

section
/-! # Masks of a word and of the PSW

A mask acts on the bytes of a word and on the fields of the PSW one by one. -/

namespace Sys2Proof.Machine

/-! ## Words -/

theorem joinBytes_and (h l h' l' : Byte) : joinBytes h l &&& joinBytes h' l' = joinBytes (h &&& h') (l &&& l') :=
  BitVec.and_append

theorem joinBytes_or (h l h' l' : Byte) : joinBytes h l ||| joinBytes h' l' = joinBytes (h ||| h') (l ||| l') :=
  BitVec.or_append

theorem setWidth_eq_joinBytes (b : Byte) : b.setWidth 16 = joinBytes 0#8 b :=
  BitVec.setWidth_eq_append (by decide)

theorem and_highMask (w : Word) : w &&& 0xFF00#16 = joinBytes (hi8 w) 0#8 := by
  calc w &&& 0xFF00#16
      = joinBytes (hi8 w) (lo8 w) &&& joinBytes (BitVec.allOnes 8) 0#8 := by rw [joinBytes_hi8_lo8]; rfl
    _ = joinBytes (hi8 w) 0#8 := by rw [joinBytes_and, BitVec.and_allOnes, BitVec.and_zero]

theorem and_lowMask (w : Word) : w &&& 0x00FF#16 = joinBytes 0#8 (lo8 w) := by
  calc w &&& 0x00FF#16
      = joinBytes (hi8 w) (lo8 w) &&& joinBytes 0#8 (BitVec.allOnes 8) := by rw [joinBytes_hi8_lo8]; rfl
    _ = joinBytes 0#8 (lo8 w) := by rw [joinBytes_and, BitVec.and_allOnes, BitVec.and_zero]

/-- A word with its low byte replaced, as a mask and an or. -/
theorem joinBytes_hi8_eq (w : Word) (b : Byte) : joinBytes (hi8 w) b = (w &&& 0xFF00#16) ||| b.setWidth 16 := by
  rw [and_highMask, setWidth_eq_joinBytes, joinBytes_or, BitVec.or_zero, BitVec.zero_or]

theorem zext16_lo8_eq (w : Word) : zext16 (lo8 w) = w &&& 0x00FF#16 := by
  rw [and_lowMask]
  exact setWidth_eq_joinBytes _

/-! ## The PSW -/

/-- The PSW of its three fields: PRI, T and the condition codes (spec/10_state.md R36). -/
def pswOf (pri : BitVec 3) (t : BitVec 1) (cc : BitVec 4) : Byte := pri ++ t ++ cc

/-- The PSW with its low nibble replaced is the PSW with other condition codes. -/
theorem append_eq_pswOf (p : Byte) (cc : BitVec 4) :
    (p.extractLsb' 4 4 ++ cc : Byte) = pswOf (p.extractLsb' 5 3) (p.extractLsb' 4 1) cc := by
  have high : (p.extractLsb' 5 3 ++ p.extractLsb' 4 1 : BitVec 4) = p.extractLsb' 4 4 :=
    BitVec.extractLsb'_append_extractLsb'_eq_extractLsb' rfl
  unfold pswOf
  rw [high]

theorem pswOf_fields (p : Byte) : pswOf (p.extractLsb' 5 3) (p.extractLsb' 4 1) (p.extractLsb' 0 4) = p := by
  have whole : (p.extractLsb' 4 4 ++ p.extractLsb' 0 4 : Byte) = p.extractLsb' 0 8 :=
    BitVec.extractLsb'_append_extractLsb'_eq_extractLsb' rfl
  rw [← append_eq_pswOf, whole, BitVec.extractLsb'_eq_self]

theorem pswOf_and (pri pri' : BitVec 3) (t t' : BitVec 1) (cc cc' : BitVec 4) :
    pswOf pri t cc &&& pswOf pri' t' cc' = pswOf (pri &&& pri') (t &&& t') (cc &&& cc') := by
  unfold pswOf
  rw [BitVec.and_append, BitVec.and_append]

theorem pswOf_and_0xF0 (pri : BitVec 3) (t : BitVec 1) (cc : BitVec 4) :
    pswOf pri t cc &&& 0xF0#8 = pswOf pri t 0#4 := by
  have mask : (0xF0#8) = pswOf (BitVec.allOnes 3) (BitVec.allOnes 1) 0#4 := rfl
  rw [mask, pswOf_and, BitVec.and_allOnes, BitVec.and_allOnes, BitVec.and_zero]

theorem pswOf_and_0x10 (pri : BitVec 3) (t : BitVec 1) (cc : BitVec 4) :
    pswOf pri t cc &&& 0x10#8 = pswOf 0#3 t 0#4 := by
  have mask : (0x10#8) = pswOf 0#3 (BitVec.allOnes 1) 0#4 := rfl
  rw [mask, pswOf_and, BitVec.and_allOnes, BitVec.and_zero, BitVec.and_zero]

theorem and_0xF0_eq (p : Byte) : p &&& 0xF0#8 = pswOf (p.extractLsb' 5 3) (p.extractLsb' 4 1) 0#4 := by
  rw [← pswOf_and_0xF0 _ _ (p.extractLsb' 0 4), pswOf_fields]

theorem and_0x10_eq (p : Byte) : p &&& 0x10#8 = pswOf 0#3 (p.extractLsb' 4 1) 0#4 := by
  rw [← pswOf_and_0x10 (p.extractLsb' 5 3) _ (p.extractLsb' 0 4), pswOf_fields]

/-- A write of the low nibble keeps T and PRI (spec/10_state.md R36). -/
theorem append_and_0xF0 (p : Byte) (cc : BitVec 4) : (p.extractLsb' 4 4 ++ cc : Byte) &&& 0xF0#8 = p &&& 0xF0#8 := by
  rw [append_eq_pswOf, pswOf_and_0xF0, and_0xF0_eq]

theorem withCc_and_0xF0 (p : Byte) (k : Cc) : withCc p k &&& 0xF0#8 = p &&& 0xF0#8 := append_and_0xF0 p _

theorem clearCcBits_and_0xF0 (p : Byte) (m : BitVec 4) : clearCcBits p m &&& 0xF0#8 = p &&& 0xF0#8 :=
  append_and_0xF0 p _

theorem setCcBits_and_0xF0 (p : Byte) (m : BitVec 4) : setCcBits p m &&& 0xF0#8 = p &&& 0xF0#8 := append_and_0xF0 p _

/-- MTPS without the parameter keeps T and PRI (spec/42_single_operand.md R260). -/
theorem mtpsPsw_false_and_0xF0 (p sv : Byte) : mtpsPsw false p sv &&& 0xF0#8 = p &&& 0xF0#8 := by
  rw [and_0xF0_eq p]
  exact pswOf_and_0xF0 _ _ _

/-- MTPS keeps T, with the parameter or without it (spec/10_state.md R41). -/
theorem mtpsPsw_and_0x10 (writesPriority : Bool) (p sv : Byte) :
    mtpsPsw writesPriority p sv &&& 0x10#8 = p &&& 0x10#8 := by
  rw [and_0x10_eq p]
  exact pswOf_and_0x10 _ _ _

theorem priOf_toNat (p : Byte) : (priOf p).toNat = p.toNat / 32 := by
  have := p.isLt
  simp [priOf, BitVec.extractLsb'_toNat, Nat.shiftRight_eq_div_pow]
  omega

end Sys2Proof.Machine
end

section
/-! # Who writes T and PRI

The PSW bits of a mask along the operations of an instruction, up to the trap or interrupt in which it ends. -/

namespace Sys2Proof.Machine

/-- What JMP and JSR share: a destination in register mode is illegal, and `body` goes on with the address of any other
(spec/43_control.md R287, R288). -/
def jumpWith (dst : Opnd) (body : Word → State → Res Unit) (s : State) : Host.Outcome State Fault Refusal :=
  match resolve .word dst s with
  | .err t => .next (busErrorTrap t)
  | .ok op t =>
    match op.address? with
    | none => .next (illegalTrap s)
    | some a => retire (body a t)

theorem execJmp_eq (dst : Opnd) (s : State) : execJmp dst s = jumpWith dst (fun a t => .ok () (t.setPc a)) s := rfl

theorem execJsr_eq (r : Reg) (dst : Opnd) (s : State) :
    execJsr r dst s = jumpWith dst (fun a t =>
      (push (t.reg r) (t.noteRead r)).bind fun _ u => .ok () ((u.setReg r u.pc).setPc a)) s := rfl

end Sys2Proof.Machine

namespace Sys2Proof.Claims

open Sys2Proof Sys2Proof.Machine

/-! ## Operations that keep the bits of a mask -/

section
variable {m : Byte} {s t u : State}

theorem KeepsPsw.refl (s : State) (m : Byte) : KeepsPsw s s m := rfl

theorem KeepsPsw.trans (h : KeepsPsw s t m) (k : KeepsPsw t u m) : KeepsPsw s u m := Eq.trans k h

theorem KeepsPsw.of_psw (h : t.psw = s.psw) : KeepsPsw s t m := congrArg (· &&& m) h

theorem KeepsPsw.of_quiet (h : Quiet s t) : KeepsPsw s t m := .of_psw h.psw

theorem KeepsPsw.bind {α β : Type} {r : Res α} {f : α → State → Res β} (h : KeepsPsw s r.state m)
    (k : ∀ a t, KeepsPsw t (f a t).state m) : KeepsPsw s (r.bind f).state m := by
  cases r with
  | ok a t => exact h.trans (k a t)
  | err t => exact h

end

theorem KeepsPsw.setCc (s : State) (k : Cc) : KeepsPsw s (s.setCc k) 0xF0#8 := withCc_and_0xF0 s.psw k

section
variable {w : Nat} {acc : Access w} (l : acc.Lawful) (s : State)
include l

theorem keepsPsw_storeOp (v : BitVec w) (k : Cc) (o : Opnd) : KeepsPsw s (storeOp acc v k o s).state 0xF0#8 :=
  KeepsPsw.bind (.of_quiet (quiet_resolve _ o s)) fun op t =>
    KeepsPsw.bind (.of_quiet (l.write op v t)) fun _ u => .setCc u k

theorem keepsPsw_modifyOp (f : Cc → BitVec w → BitVec w × Cc) (o : Opnd) :
    KeepsPsw s (modifyOp acc f o s).state 0xF0#8 :=
  KeepsPsw.bind (.of_quiet (quiet_resolve _ o s)) fun op t =>
    KeepsPsw.bind (.of_quiet (l.read o op t).quiet) fun _ u =>
      KeepsPsw.bind (.of_quiet (l.write op _ u)) fun _ x => .setCc x _

theorem keepsPsw_probeOp (f : Cc → BitVec w → Cc) (o : Opnd) : KeepsPsw s (probeOp acc f o s).state 0xF0#8 :=
  KeepsPsw.bind (.of_quiet (quiet_resolve _ o s)) fun op t =>
    KeepsPsw.bind (.of_quiet (l.read o op t).quiet) fun _ u => .setCc u _

theorem keepsPsw_moveOp (src dst : Opnd) : KeepsPsw s (moveOp acc src dst s).state 0xF0#8 :=
  KeepsPsw.bind (.of_quiet (quiet_loadOp l src s)) fun _ t => keepsPsw_storeOp l t _ _ dst

theorem keepsPsw_combineOp (f : BitVec w → Cc → BitVec w → BitVec w × Cc) (src dst : Opnd) :
    KeepsPsw s (combineOp acc f src dst s).state 0xF0#8 :=
  KeepsPsw.bind (.of_quiet (quiet_loadOp l src s)) fun _ t => keepsPsw_modifyOp l t _ dst

theorem keepsPsw_compareOp (f : BitVec w → Cc → BitVec w → Cc) (src dst : Opnd) :
    KeepsPsw s (compareOp acc f src dst s).state 0xF0#8 :=
  KeepsPsw.bind (.of_quiet (quiet_loadOp l src s)) fun _ t => keepsPsw_probeOp l t _ dst

end

theorem branchIf_psw (cond : Bool) (off : BitVec 8) (s : State) : (branchIf cond off s).state.psw = s.psw := by
  unfold branchIf
  split <;> rfl

/-! ## Entries through a vector -/

/-- The vectors of the traps (spec/60_exceptions.md R343, R344, R347, R372; spec/44_system.md R305 to R308). -/
def trapVectors : List Word := [0x0004#16, 0x0008#16, 0x000C#16, 0x0010#16, 0x0014#16, 0x0018#16, 0x001C#16]

/-- The vectors a step that begins in `s` may enter through: a trap's, or that of the line taken
(spec/60_exceptions.md R359, R361). -/
def StepVector (s : State) (v : Word) : Prop :=
  v ∈ trapVectors ∨ ∃ n : Fin 4, bestLine s = some n ∧ v = s.lines[n].vector

/-- From `s` to `t` the bits of the mask stay, or `t` is an entry, through a vector of this kind, from a state in which
they had stayed. -/
def KeptOrEntered (vector : Word → Prop) (m : Byte) (s t : State) : Prop :=
  KeepsPsw s t m ∨ ∃ (v : Word) (u : State), KeepsPsw s u m ∧ t = trapEntry v u ∧ vector v

section
variable {m : Byte} {s t u : State}

theorem KeptOrEntered.after {vector : Word → Prop} (h : KeepsPsw s t m) (k : KeptOrEntered vector m t u) :
    KeptOrEntered vector m s u := by
  rcases k with kept | ⟨v, x, kept, entered, hv⟩
  · exact .inl (h.trans kept)
  · exact .inr ⟨v, x, h.trans kept, entered, hv⟩

theorem KeptOrEntered.mono {vector vector' : Word → Prop} (h : KeptOrEntered vector m s t)
    (k : ∀ v, vector v → vector' v) : KeptOrEntered vector' m s t := by
  rcases h with kept | ⟨v, x, kept, entered, hv⟩
  · exact .inl kept
  · exact .inr ⟨v, x, kept, entered, k v hv⟩

/-- An entry right from `s`. -/
theorem KeptOrEntered.entry {vector : Word → Prop} {v : Word} (h : KeepsPsw s u m) (hv : vector v) :
    KeptOrEntered vector m s (trapEntry v u) := .inr ⟨v, u, h, rfl, hv⟩

/-- The end of an instruction: as it stands, the trace trap, or BusError. -/
theorem KeptOrEntered.retire {r : Res Unit} (h : KeepsPsw s r.state m) (k : Machine.retire r = .next t) :
    KeptOrEntered (· ∈ trapVectors) m s t := by
  rcases retire_cases k with ⟨u, rfl, rfl⟩ | ⟨u, rfl, rfl⟩
  · unfold traceEnd
    split
    · exact .entry h (by decide)
    · exact .inl h
  · exact .entry h (by decide)

theorem KeptOrEntered.retire_ok (h : KeepsPsw s u m) (k : Machine.retire (.ok () u) = .next t) :
    KeptOrEntered (· ∈ trapVectors) m s t := .retire (r := .ok () u) h k

end

/-! ## Instructions -/

section
variable {s t : State}

theorem jumpWith_keptOrEntered {dst : Opnd} {body : Word → State → Res Unit}
    (quiet : ∀ a u, Quiet u (body a u).state) (h : jumpWith dst body s = .next t) :
    KeptOrEntered (· ∈ trapVectors) 0xF0#8 s t := by
  have q := quiet_resolve .word dst s
  unfold jumpWith at h
  cases hr : resolve .word dst s with
  | err u =>
    rw [hr] at h q
    cases h
    exact .entry (.of_quiet q) (by decide)
  | ok op u =>
    rw [hr] at h q
    simp only at h
    split at h
    · cases h
      exact .entry (.refl s _) (by decide)
    · exact .retire (.of_quiet (q.trans (quiet _ u))) h

theorem jmp_keptOrEntered {dst : Opnd} (h : execJmp dst s = .next t) :
    KeptOrEntered (· ∈ trapVectors) 0xF0#8 s t := by
  rw [execJmp_eq] at h
  refine jumpWith_keptOrEntered (fun a u => ?_) h
  exact Quiet.setReg u PC a

theorem jsr_keptOrEntered {r : Reg} {dst : Opnd} (h : execJsr r dst s = .next t) :
    KeptOrEntered (· ∈ trapVectors) 0xF0#8 s t := by
  rw [execJsr_eq] at h
  refine jumpWith_keptOrEntered (fun a u => ?_) h
  exact Quiet.bind ((Quiet.noteRead u r).trans (quiet_push _ _)) fun _ x =>
    (Quiet.setReg x r _).trans (Quiet.setReg _ PC a)

theorem halt_keptOrEntered (h : execHalt s = .next t) : KeptOrEntered (· ∈ trapVectors) 0xF0#8 s t := by
  unfold execHalt at h
  split at h <;> cases h
  · exact .inl rfl
  · exact .entry (.refl s _) (by decide)

theorem rts_keptOrEntered {r : Reg} (h : execRts r s = .next t) : KeptOrEntered (· ∈ trapVectors) 0xF0#8 s t :=
  .retire (r := (pop ((s.noteRead r).setPc (s.reg r))).bind fun v u => .ok () (u.setReg r v))
    (.of_quiet (((Quiet.noteRead s r).trans (Quiet.setReg _ PC _)).trans
      (Quiet.bind (quiet_pop _) fun v u => Quiet.setReg u r v))) h

theorem sob_keptOrEntered {r : Reg} {off : BitVec 6} (h : execSob r off s = .next t) :
    KeptOrEntered (· ∈ trapVectors) 0xF0#8 s t := by
  unfold execSob at h
  refine .retire_ok (.of_psw ?_) h
  split <;> rfl

/-- MTPS keeps the bits that its parameter keeps (spec/42_single_operand.md R260). -/
theorem mtps_keptOrEntered {m : Byte} {src : Opnd}
    (kept : ∀ p sv, mtpsPsw s.params.mtpsWritesPriority p sv &&& m = p &&& m) (h : execMtps src s = .next t) :
    KeptOrEntered (· ∈ trapVectors) m s t := by
  refine .retire ?_ h
  have q := quiet_loadOp lawful_byteAccess src s
  cases hl : loadOp byteAccess src s with
  | err u =>
    rw [hl] at q
    exact .of_quiet q
  | ok sv u =>
    rw [hl] at q
    refine KeepsPsw.trans (.of_quiet q) ?_
    rw [← show u.params = s.params from q.params] at kept
    exact kept u.psw sv

/-- Every instruction but RTI, RTT and MTPS under its parameter keeps T and PRI up to its trap. -/
theorem exec_keptOrEntered {i : Instr} (notRti : i ≠ .rti) (notRtt : i ≠ .rtt)
    (notMtps : isMtps i = true → s.params.mtpsWritesPriority = false) (h : exec i s = .next t) :
    KeptOrEntered (· ∈ trapVectors) 0xF0#8 s t := by
  cases i with
  | rti => exact absurd rfl notRti
  | rtt => exact absurd rfl notRtt
  | mtps src => exact mtps_keptOrEntered (fun p sv => by rw [notMtps rfl]; exact mtpsPsw_false_and_0xF0 p sv) h
  | halt => exact halt_keptOrEntered h
  | wait => exact .retire_ok (u := { s with waiting := true }) (.of_psw rfl) h
  | reset => exact .retire_ok (u := s.emit .resetOut) (.of_psw rfl) h
  | bpt | iot | emt | trap | illegal => cases h; exact .entry (.refl s _) (by decide)
  | jmp dst => exact jmp_keptOrEntered h
  | jsr r dst => exact jsr_keptOrEntered h
  | rts r => exact rts_keptOrEntered h
  | sob r off => exact sob_keptOrEntered h
  | clcc m => exact .retire_ok (u := s.setPsw (clearCcBits s.psw m)) (clearCcBits_and_0xF0 s.psw m) h
  | secc m => exact .retire_ok (u := s.setPsw (setCcBits s.psw m)) (setCcBits_and_0xF0 s.psw m) h
  | br | bne | beq | bge | blt | bgt | ble | bpl | bmi | bhi | blos | bvc | bvs | bcc | bcs =>
    exact .retire (.of_psw (branchIf_psw _ _ s)) h
  | mov src dst => exact .retire (keepsPsw_moveOp lawful_wordAccess s src dst) h
  | movb src dst => exact .retire (keepsPsw_moveOp lawful_signedByteAccess s src dst) h
  | cmp src dst | bit src dst => exact .retire (keepsPsw_compareOp lawful_wordAccess s _ src dst) h
  | cmpb src dst | bitb src dst => exact .retire (keepsPsw_compareOp lawful_byteAccess s _ src dst) h
  | bic src dst | bis src dst | add src dst | sub src dst =>
    exact .retire (keepsPsw_combineOp lawful_wordAccess s _ src dst) h
  | bicb src dst | bisb src dst => exact .retire (keepsPsw_combineOp lawful_byteAccess s _ src dst) h
  | clr dst | sxt dst => exact .retire (keepsPsw_storeOp lawful_wordAccess s _ _ dst) h
  | clrb dst => exact .retire (keepsPsw_storeOp lawful_byteAccess s _ _ dst) h
  | mfps dst => exact .retire (keepsPsw_storeOp lawful_signedByteAccess s _ _ dst) h
  | tst dst => exact .retire (keepsPsw_probeOp lawful_wordAccess s _ dst) h
  | tstb dst => exact .retire (keepsPsw_probeOp lawful_byteAccess s _ dst) h
  | xor r dst => exact .retire (keepsPsw_modifyOp lawful_wordAccess (s.noteRead r) _ dst) h
  | com dst | inc dst | dec dst | neg dst | adc dst | sbc dst | ror dst | rol dst | asr dst | asl dst | swab dst =>
    exact .retire (keepsPsw_modifyOp lawful_wordAccess s _ dst) h
  | comb dst | incb dst | decb dst | negb dst | adcb dst | sbcb dst | rorb dst | rolb dst | asrb dst | aslb dst =>
    exact .retire (keepsPsw_modifyOp lawful_byteAccess s _ dst) h

end

/-! ## Steps -/

/-- An instruction fetched and executed without writing T or PRI, in a state with the PSW and the parameters of `s`. -/
theorem executed_keptOrEntered {m : Byte} {i : Instr} {s u t : State} (fetched : fetchInstr s = .ok i u)
    (h : KeptOrEntered (· ∈ trapVectors) m u t) : KeptOrEntered (StepVector s) m s t :=
  (KeptOrEntered.after (.of_psw (quiet_of_fetchInstr_ok fetched).psw) h).mono fun _ hv => .inl hv

/-- Settles O59: of the steps only the execution of RTI, RTT and MTPS under its parameter is outside
`exec_keptOrEntered`, and MTPS keeps T. -/
theorem traceAndPriorityWriters : Obligations.TraceAndPriorityWriters := by
  intro s t h
  show KeptOrEntered (StepVector s) 0xF0#8 s t ∨
    (boundary s = .instruction ∧ ∃ i u, fetchInstr s = .ok i u ∧ (i = .rti ∨ i = .rtt ∨
      (isMtps i = true ∧ s.params.mtpsWritesPriority = true ∧ KeptOrEntered (StepVector s) 0x10#8 s t)))
  cases step_cases h with
  | powerFail _ _ next =>
    subst next
    exact .inl (.entry (KeepsPsw.refl s _) (.inl (by decide)))
  | interrupt n _ _ line next =>
    subst next
    exact .inl (.entry (KeepsPsw.refl s _) (.inr ⟨n, line, rfl⟩))
  | idle _ _ _ _ next =>
    subst next
    exact .inl (.inl (.refl _ _))
  | fetchFault _ u fetched next =>
    subst next
    exact .inl (.entry (KeepsPsw.of_psw (quiet_of_fetchInstr_err fetched).psw) (.inl (by decide)))
  | executed instruction i u fetched next =>
    have params : u.params = s.params := (quiet_of_fetchInstr_ok fetched).params
    by_cases rti : i = .rti
    · exact .inr ⟨instruction, i, u, fetched, .inl rti⟩
    by_cases rtt : i = .rtt
    · exact .inr ⟨instruction, i, u, fetched, .inr (.inl rtt)⟩
    by_cases mtps : isMtps i = true ∧ s.params.mtpsWritesPriority = true
    · obtain ⟨isOne, writes⟩ := mtps
      refine .inr ⟨instruction, i, u, fetched, .inr (.inr ⟨isOne, writes, executed_keptOrEntered fetched ?_⟩)⟩
      cases i with
      | mtps src => exact mtps_keptOrEntered (mtpsPsw_and_0x10 _) next
      | _ => cases isOne
    · refine .inl (executed_keptOrEntered fetched (exec_keptOrEntered rti rtt (fun isOne => ?_) next))
      rw [params]
      simpa [isOne] using mtps

end Sys2Proof.Claims
end

section
/-! # Operand access, the layout of the PSW, and the state after reset -/

namespace Sys2Proof.Machine

/-- The mark of a read with its condition written out (spec/10_state.md R51). -/
theorem State.noteRead_eq (s : State) (r : Reg) :
    s.noteRead r = { s with
      unwrittenRead := if s.unwrittenRead = none ∧ r.val < 6 ∧ s.written[r] = false then some r
        else s.unwrittenRead } := by
  simp [State.noteRead, State.markAfterRead, and_assoc]

/-- A whole-register write: the value, the written bit, and every other register. -/
theorem State.setReg_spec (s : State) (r : Reg) (v : Word) :
    (s.setReg r v).reg r = v ∧ (s.setReg r v).written[r] = true ∧
    ∀ q : Reg, q ≠ r → (s.setReg r v).reg q = s.reg q ∧ (s.setReg r v).written[q] = s.written[q] :=
  ⟨s.reg_setReg_self r v, by rw [State.written_setReg, if_pos rfl],
    fun q hq => ⟨s.reg_setReg_ne v hq, by rw [State.written_setReg, if_neg hq]⟩⟩

theorem State.reg_setRegLow_self (s : State) (r : Reg) (b : Byte) :
    (s.setRegLow r b).reg r = (s.reg r &&& 0xFF00#16) ||| b.setWidth 16 := by
  rw [State.reg_setRegLow, if_pos rfl, joinBytes_hi8_eq]

theorem State.reg_setRegLow_ne (s : State) {r q : Reg} (b : Byte) (h : q ≠ r) :
    (s.setRegLow r b).reg q = s.reg q := by
  rw [State.reg_setRegLow, if_neg h]

end Sys2Proof.Machine

namespace Sys2Proof.Claims

open Sys2Proof Sys2Proof.Machine

/-- Settles O7: an access to a register is a `setReg`, a `setRegLow` or a `noteRead` of it, and one to memory is its bus
call, by definition. -/
theorem operandAccess : Obligations.OperandAccess := by
  intro r a v b s
  have byteWrite : ∀ q : Reg, q ≠ r → (s.setRegLow r b).reg q = s.reg q := fun _ hq => s.reg_setRegLow_ne b hq
  exact ⟨rfl, rfl, s.noteRead_eq r, ⟨_, rfl, s.setReg_spec r v⟩,
    ⟨_, rfl, s.reg_setRegLow_self r b, byteWrite, rfl⟩, ⟨_, rfl, s.setReg_spec r (sext16 b)⟩,
    fun _ => rfl, rfl, rfl, rfl, rfl, rfl⟩

/-- Settles O8, from the field lemmas of the PSW and the low-byte mask of a word. -/
theorem pswLayout : Obligations.PswLayout :=
  ⟨fun p k => ⟨ccOf_withCc p k, withCc_and_0xF0 p k, rfl, rfl, priOf_toNat p⟩, fun v _ => zext16_lo8_eq v⟩

/-- Settles O31: a statement about one closed state, which evaluates. -/
theorem resetState : Obligations.ResetState := by
  unfold Obligations.ResetState
  decide

end Sys2Proof.Claims
end

section
/-! # The invariant of a step -/

namespace Sys2Proof.Claims

open Sys2Proof Sys2Proof.Machine

/-- Settles O54: the frame `World` of a step keeps the canonical form and the written marks, and the fields in which a
step departs from it are none that the invariant reads. -/
theorem stepKeepsInvariant : Obligations.StepKeepsInvariant := by
  intro s t inv h
  obtain ⟨canonical, spWritten, pcWritten⟩ := inv
  obtain ⟨_, _, _, w⟩ := world_step h
  exact ⟨w.wf canonical, w.written SP spWritten, w.written PC pcWritten⟩

end Sys2Proof.Claims
end

section
/-! # Even and odd addresses

The two bytes of a word, by the parity of the address (spec/20_memory.md R73, R76). -/

namespace Sys2Proof.Machine

theorem getLsbD_zero_eq (a : Word) : a.getLsbD 0 = decide (a.toNat % 2 = 1) := Nat.testBit_zero _

theorem evenAddr_of_even {a : Word} (even : a.toNat % 2 = 0) : evenAddr a = a := by
  apply BitVec.eq_of_toNat_eq
  rw [evenAddr_toNat]
  omega

/-- The odd address of a word is the one after its even address. -/
theorem or_one_toNat (a : Word) : (a ||| 1#16).toNat = (evenAddr a).toNat + 1 := by
  have half : (a.toNat ||| 1) / 2 = a.toNat / 2 := by rw [Nat.or_div_two]; exact Nat.or_zero _
  have odd : (a.toNat ||| 1) % 2 = 1 := Nat.or_mod_two_eq_one.2 (.inr rfl)
  rw [evenAddr_toNat, BitVec.toNat_or]
  show a.toNat ||| 1 = _
  omega

/-- An address outside an aligned word is neither of its two bytes. -/
theorem toNat_ne_of_evenAddr_ne {a b : Word} (h : evenAddr b ≠ evenAddr a) :
    b.toNat ≠ (evenAddr a).toNat ∧ b.toNat ≠ (evenAddr a).toNat + 1 := by
  have ne : (evenAddr b).toNat ≠ (evenAddr a).toNat := fun e => h (BitVec.eq_of_toNat_eq e)
  have := evenAddr_toNat a
  have := evenAddr_toNat b
  omega

/-- A byte of memory is the half of its aligned word that the parity of its address names. -/
theorem Memory.half_readWord (m : Memory) (a : Word) :
    (if a.getLsbD 0 then hi8 (m.readWord (evenAddr a)) else lo8 (m.readWord (evenAddr a))) = m.read a.toNat := by
  have even := evenAddr_toNat a
  rw [getLsbD_zero_eq, Memory.readWord, hi8_joinBytes, lo8_joinBytes]
  by_cases odd : a.toNat % 2 = 1
  · rw [if_pos (decide_eq_true odd)]
    congr 1
    omega
  · rw [if_neg (by simpa using odd)]
    congr 1
    omega

end Sys2Proof.Machine
end

section
/-! # The answer of each bus call

One equation for each kind of place: the reference bus's memory, an absent region, a device (spec/20_memory.md R70, R76,
R88; log 5, log 6). -/

namespace Sys2Proof.Machine

theorem wordAddr_of_even (p : Params) {a : Word} (even : a.toNat % 2 = 0) : wordAddr p a = some a := by
  unfold wordAddr
  split
  · rw [evenAddr_of_even even]
  · rw [if_neg (by rw [getLsbD_zero_eq]; simp [even])]

theorem wordAddr_of_odd {p : Params} (policy : p.oddWord = .busError) {a : Word} (odd : a.getLsbD 0 = true) :
    wordAddr p a = none := by
  simp [wordAddr, policy, odd]

/-- A device's answer to a call: the free value of the history that the call has joined, or a bus error (log 6). -/
theorem deviceCall_bind {β : Type} (e : BusEvent) (s : State) (f : Word → State → Res β) :
    (deviceCall e s).bind f =
      match Config.deviceReply (e :: s.events) with
      | some x => f x (s.emit e)
      | none => .err (s.emit e) := by
  cases h : Config.deviceReply (e :: s.events) with
  | none => simp [deviceCall, h]
  | some x => simp [deviceCall, h]

section
variable {a : Word} {s : State}

theorem readByte_memory (place : regionAt s.params a = none) : readByte a s = .ok (s.mem.read a.toNat) s := by
  simp [readByte, place]

theorem writeByte_memory (place : regionAt s.params a = none) (v : Byte) :
    writeByte a v s = .ok () { s with mem := s.mem.write a.toNat v } := by
  simp [writeByte, place]

theorem readByte_absent (place : regionAt s.params a = some .absent) : readByte a s = .err s := by
  simp [readByte, place]

theorem writeByte_absent (place : regionAt s.params a = some .absent) (v : Byte) : writeByte a v s = .err s := by
  simp [writeByte, place]

theorem readByte_device (place : regionAt s.params a = some .device) :
    readByte a s = (deviceCall (.readByte a) s).bind fun v t => .ok (lo8 v) t := by
  simp [readByte, place]

theorem writeByte_device (place : regionAt s.params a = some .device) (v : Byte) :
    writeByte a v s = (deviceCall (.writeByte a v) s).bind fun _ t => .ok () t := by
  simp [writeByte, place]

theorem readWord_of_wordAddr_none (policy : wordAddr s.params a = none) : readWord a s = .err s := by
  simp [readWord, policy]

theorem writeWord_of_wordAddr_none (policy : wordAddr s.params a = none) (v : Word) : writeWord a v s = .err s := by
  simp [writeWord, policy]

end

section
variable {a b : Word} {s : State} (address : wordAddr s.params a = some b)
include address

theorem readWord_memory (place : regionAt s.params b = none) : readWord a s = .ok (s.mem.readWord b) s := by
  simp [readWord, address, place]

theorem writeWord_memory (place : regionAt s.params b = none) (v : Word) :
    writeWord a v s = .ok () { s with mem := s.mem.writeWord b v } := by
  simp [writeWord, address, place]

theorem readWord_absent (place : regionAt s.params b = some .absent) : readWord a s = .err s := by
  simp [readWord, address, place]

theorem writeWord_absent (place : regionAt s.params b = some .absent) (v : Word) : writeWord a v s = .err s := by
  simp [writeWord, address, place]

theorem readWord_device (place : regionAt s.params b = some .device) :
    readWord a s = deviceCall (.readWord b) s := by
  simp [readWord, address, place]

theorem writeWord_device (place : regionAt s.params b = some .device) (v : Word) :
    writeWord a v s = (deviceCall (.writeWord b v) s).bind fun _ t => .ok () t := by
  simp [writeWord, address, place]

end

end Sys2Proof.Machine
end

section
/-! # Memory and the bus: the statements about spec/20_memory.md -/

namespace Sys2Proof.Claims

open Sys2Proof Sys2Proof.Machine

/-- A word write on the reference bus, and the views of it and of every byte outside it (spec/20_memory.md R74, R83). -/
theorem reads_after_writeWord (a b v : Word) {s : State} (ref : ReferenceBus s) :
    ∃ t, writeWord a v s = .ok () t ∧ readWord a t = .ok v t ∧
      readByte (evenAddr a) t = .ok (lo8 v) t ∧ readByte (a ||| 1#16) t = .ok (hi8 v) t ∧
      (evenAddr b ≠ evenAddr a → ∃ y, readByte b t = .ok y t ∧ readByte b s = .ok y s) := by
  have ref' : ReferenceBus { s with mem := s.mem.writeWord (evenAddr a) v } := ref
  refine ⟨_, writeWord_ref ref a v, ?word, ?low, ?high, fun outside => ?other⟩
  case word => rw [readWord_ref ref', Memory.readWord_writeWord_self]
  case low => rw [readByte_ref ref', Memory.read_writeWord, if_pos rfl]
  case high => rw [readByte_ref ref', or_one_toNat, Memory.read_writeWord, if_neg (by omega), if_pos rfl]
  case other =>
    obtain ⟨notLow, notHigh⟩ := toNat_ne_of_evenAddr_ne outside
    refine ⟨s.mem.read b.toNat, ?_, readByte_ref ref b⟩
    rw [readByte_ref ref', Memory.read_writeWord, if_neg notLow, if_neg notHigh]

/-- A byte write on the reference bus, and the views of it and of every other byte (spec/20_memory.md R74, R83). -/
theorem reads_after_writeByte (a b : Word) (x : Byte) {s : State} (ref : ReferenceBus s) :
    ∃ t, writeByte a x s = .ok () t ∧ readByte a t = .ok x t ∧
      (b ≠ a → ∃ y, readByte b t = .ok y t ∧ readByte b s = .ok y s) ∧
      ∃ y, readWord a t = .ok y t ∧ (if a.getLsbD 0 then hi8 y else lo8 y) = x := by
  have ref' : ReferenceBus { s with mem := s.mem.write a.toNat x } := ref
  refine ⟨_, writeByte_ref ref a x, ?byte, fun outside => ?other, _, readWord_ref ref' a, ?half⟩
  case byte => rw [readByte_ref ref', Memory.read_write_self]
  case other =>
    refine ⟨s.mem.read b.toNat, ?_, readByte_ref ref b⟩
    rw [readByte_ref ref', Memory.read_write_ne _ _ fun e => outside (BitVec.eq_of_toNat_eq e)]
  case half => rw [Memory.half_readWord, Memory.read_write_self]

/-- Settles O11: the views after a word write and after a byte write. -/
theorem readAfterWrite : Obligations.ReadAfterWrite :=
  fun a b v x _ ref => ⟨reads_after_writeWord a b v ref, reads_after_writeByte a b x ref⟩

/-- Settles O9: an even address is its own word address under either policy. -/
theorem littleEndianWords : Obligations.LittleEndianWords := by
  intro a v s even place
  have address := wordAddr_of_even s.params even
  refine ⟨readWord_memory address place, _, writeWord_memory address place v, ?low, ?high,
    fun x notLow notHigh => ?other⟩
  case low => rw [Memory.read_writeWord, if_pos rfl]; rfl
  case high => rw [Memory.read_writeWord, if_neg (by omega), if_pos rfl]; rfl
  case other => rw [Memory.read_writeWord, if_neg notLow, if_neg notHigh]

/-- Settles O10: without a region each address is memory's, and the policy alone decides a word access. -/
theorem oddWordPolicy : Obligations.OddWordPolicy := by
  intro a v b s noRegion
  have place : ∀ x, regionAt s.params x = none := regionAt_of_empty noRegion
  refine ⟨⟨_, readByte_memory (place a)⟩, ⟨_, writeByte_memory (place a) b⟩, fun policy => ?align,
    fun policy odd => ?busError⟩
  case align =>
    have ref : ReferenceBus s := ⟨noRegion, policy⟩
    show readWord a s = readWord (evenAddr a) s ∧ writeWord a v s = writeWord (evenAddr a) v s ∧ _
    rw [readWord_ref ref (evenAddr a), writeWord_ref ref (evenAddr a), evenAddr_evenAddr]
    exact ⟨readWord_ref ref a, writeWord_ref ref a v, _, readWord_ref ref a⟩
  case busError =>
    have address := wordAddr_of_odd policy odd
    exact ⟨readWord_of_wordAddr_none address, writeWord_of_wordAddr_none address v⟩

/-- A failed word read leaves pc (spec/20_memory.md R80). -/
theorem pc_of_readWord_err {a : Word} {s t : State} (h : readWord a s = .err t) : t.pc = s.pc := by
  have regs : t.regs = s.regs := by simpa [h] using readWord_regs a s
  simp only [State.pc, State.reg, regs]

/-- Settles O12: a fetch is the aligned read and then the advance of pc, and on the reference bus the read is of the
word that the write has put there. -/
theorem fetchReadsCurrentMemory : Obligations.FetchReadsCurrentMemory := by
  refine ⟨fun s => ⟨fun w t read => ?completes, fun t failed => ⟨?fails, pc_of_readWord_err failed⟩⟩,
    fun a v s ref same => ?current⟩
  case completes => exact Res.bind_eq_ok.2 ⟨w, t, read, rfl⟩
  case fails => exact Res.bind_eq_err.2 (.inl failed)
  case current =>
    have ref' : ReferenceBus { s with mem := s.mem.writeWord (evenAddr a) v } := ref
    have word : (s.mem.writeWord (evenAddr a) v).readWord (evenAddr s.pc) = v := by
      rw [show evenAddr s.pc = evenAddr a from same, Memory.readWord_writeWord_self]
    exact ⟨_, _, writeWord_ref ref a v, (fetch_ref ref').trans (congrArg (Res.ok · _) word), State.pc_setPc _ _⟩

/-- Settles O13: the equations of the bus calls at an absent region and at a device; an aligned address is its own word
address under either policy. -/
theorem platformAccess : Obligations.PlatformAccess := by
  intro a v b s
  have address : wordAddr s.params (evenAddr a) = some (evenAddr a) :=
    wordAddr_of_even s.params (by rw [evenAddr_toNat]; omega)
  refine ⟨fun absent => ?byteAbsent, fun absent => ?wordAbsent, fun device => ?byteDevice,
    fun device => ?wordDevice⟩
  case byteAbsent => exact ⟨readByte_absent absent, writeByte_absent absent b⟩
  case wordAbsent => exact ⟨readWord_absent address absent, writeWord_absent address absent v⟩
  case byteDevice =>
    exact ⟨(readByte_device device).trans (deviceCall_bind _ s _),
      (writeByte_device device b).trans (deviceCall_bind _ s _)⟩
  case wordDevice =>
    exact ⟨readWord_device address device, (writeWord_device address device v).trans (deviceCall_bind _ s _)⟩

end Sys2Proof.Claims
end

section
/-! # Words and their fields

What the fields of a word are when one of the formats of spec/30_encoding.md (R101 to R110) builds it, and the other way
round. -/

namespace Sys2Proof

open Laws.EncodesInRow (field_lt)

theorem bits_lt (w : Word) (lo n : Nat) : bits w lo n < 2 ^ n := Nat.mod_lt _ (Nat.two_pow_pos n)

/-- A field inside the sixteen bits does not see that the number is cut to a word. -/
theorem bits_ofNat {lo n : Nat} (x : Nat) (inside : lo + n ≤ 16) :
    bits (BitVec.ofNat 16 x) lo n = x / 2 ^ lo % 2 ^ n := by
  have cut : 2 ^ 16 = 2 ^ lo * 2 ^ (16 - lo) := by rw [← Nat.pow_add]; congr 1; omega
  rw [bits, BitVec.toNat_ofNat, cut, Nat.mod_mul_right_div_self, Nat.mod_mod_of_dvd _ (Nat.pow_dvd_pow 2 (by omega))]

theorem toNat_ofNat_of_lt {x : Nat} (h : x < 65536) : (BitVec.ofNat 16 x).toNat = x :=
  (BitVec.toNat_ofNat x 16).trans (Nat.mod_eq_of_lt h)

theorem ofNat_eq_of_toNat {w : Word} {x : Nat} (h : w.toNat = x) : BitVec.ofNat 16 x = w := by
  rw [← h, BitVec.ofNat_toNat, BitVec.setWidth_eq]

/-! ## Operand and register fields (spec/30_encoding.md R110) -/

theorem modeOf_number (m : Mode) : modeOf m.number = m := by cases m <;> rfl

theorem number_modeOf {n : Nat} (h : n < 8) : (modeOf n).number = n := by interval_cases n <;> rfl

theorem Mode.number_lt (m : Mode) : m.number < 8 := by cases m <;> decide

theorem regOf_val (r : Reg) : regOf r.val = r := Fin.ext (Nat.mod_eq_of_lt r.isLt)

theorem opndOf_field (o : Opnd) : opndOf o.field = o := by
  obtain ⟨m, r⟩ := o
  have := m.number_lt
  have mode : (m.number * 8 + r.val) / 8 % 8 = m.number := by omega
  have reg : (m.number * 8 + r.val) % 8 = r.val := by omega
  simp [opndOf, Opnd.field, regOf, mode, reg, modeOf_number]

theorem field_opndOf {n : Nat} (h : n < 64) : (opndOf n).field = n := by
  simp only [Opnd.field, opndOf, regOf, number_modeOf (Nat.mod_lt (n / 8) (by decide : 8 > 0))]
  omega

theorem field_dstOf (w : Word) : (dstOf w).field = bits w 0 6 := field_opndOf (bits_lt w 0 6)

theorem field_srcOf (w : Word) : (srcOf w).field = bits w 6 6 := field_opndOf (bits_lt w 6 6)

theorem dstOf_ofNat {x : Nat} {d : Opnd} (h : x % 64 = d.field) : dstOf (BitVec.ofNat 16 x) = d := by
  have field : bits (BitVec.ofNat 16 x) 0 6 = d.field := (bits_ofNat x (by decide)).trans (by omega)
  rw [dstOf, field, opndOf_field]

theorem srcOf_ofNat {x : Nat} {s : Opnd} (h : x / 64 % 64 = s.field) : srcOf (BitVec.ofNat 16 x) = s := by
  have field : bits (BitVec.ofNat 16 x) 6 6 = s.field := (bits_ofNat x (by decide)).trans (by omega)
  rw [srcOf, field, opndOf_field]

theorem regField_ofNat {x : Nat} {r : Reg} (h : x / 64 % 8 = r.val) : regField (BitVec.ofNat 16 x) = r := by
  have field : bits (BitVec.ofNat 16 x) 6 3 = r.val := (bits_ofNat x (by decide)).trans (by omega)
  rw [regField, field, regOf_val]

/-! ## From a word of each format to its fields -/

section
variable (c : Nat) (r : Reg) (s d : Opnd) (b : BitVec 8) (m : BitVec 4)

@[simp] theorem bits_dopWord_12_4 : bits (dopWord c s d) 12 4 = c % 16 := by
  have := field_lt s
  have := field_lt d
  exact (bits_ofNat _ (by decide)).trans (by omega)

@[simp] theorem srcOf_dopWord : srcOf (dopWord c s d) = s := by
  have := field_lt s
  have := field_lt d
  exact srcOf_ofNat (by omega)

@[simp] theorem dstOf_dopWord : dstOf (dopWord c s d) = d := by
  have := field_lt d
  exact dstOf_ofNat (by omega)

@[simp] theorem bits_sopWord_12_4 : bits (sopWord c d) 12 4 = c / 64 % 16 := by
  have := field_lt d
  exact (bits_ofNat _ (by decide)).trans (by omega)

@[simp] theorem bits_sopWord_6_6 : bits (sopWord c d) 6 6 = c % 64 := by
  have := field_lt d
  exact (bits_ofNat _ (by decide)).trans (by omega)

@[simp] theorem dstOf_sopWord : dstOf (sopWord c d) = d := by
  have := field_lt d
  exact dstOf_ofNat (by omega)

@[simp] theorem bits_rddWord_12_4 : bits (rddWord c r d) 12 4 = c / 8 % 16 := by
  have := field_lt d
  exact (bits_ofNat _ (by decide)).trans (by omega)

@[simp] theorem bits_rddWord_9_3 : bits (rddWord c r d) 9 3 = c % 8 := by
  have := field_lt d
  exact (bits_ofNat _ (by decide)).trans (by omega)

@[simp] theorem bits_rddWord_6_6 : bits (rddWord c r d) 6 6 = c % 8 * 8 + r.val := by
  have := field_lt d
  exact (bits_ofNat _ (by decide)).trans (by omega)

@[simp] theorem regField_rddWord : regField (rddWord c r d) = r := by
  have := field_lt d
  exact regField_ofNat (by omega)

@[simp] theorem dstOf_rddWord : dstOf (rddWord c r d) = d := by
  have := field_lt d
  exact dstOf_ofNat (by omega)

@[simp] theorem bits_byteWord_12_4 : bits (byteWord c b) 12 4 = c / 16 % 16 :=
  (bits_ofNat _ (by decide)).trans (by omega)

@[simp] theorem bits_byteWord_6_6 : bits (byteWord c b) 6 6 = c % 16 * 4 + b.toNat / 64 :=
  (bits_ofNat _ (by decide)).trans (by omega)

@[simp] theorem lowByte_byteWord : lowByte (byteWord c b) = b := by
  have field : bits (byteWord c b) 0 8 = b.toNat := (bits_ofNat _ (by decide)).trans (by omega)
  rw [lowByte, field, BitVec.ofNat_toNat, BitVec.setWidth_eq]

@[simp] theorem bits_ccWord_12_4 : bits (ccWord c m) 12 4 = c / 256 % 16 :=
  (bits_ofNat _ (by decide)).trans (by omega)

@[simp] theorem bits_ccWord_6_6 : bits (ccWord c m) 6 6 = c / 4 % 64 :=
  (bits_ofNat _ (by decide)).trans (by omega)

@[simp] theorem bits_ccWord_3_3 : bits (ccWord c m) 3 3 = c % 4 * 2 + m.toNat / 8 :=
  (bits_ofNat _ (by decide)).trans (by omega)

@[simp] theorem mask_ccWord : BitVec.ofNat 4 (bits (ccWord c m) 0 4) = m := by
  have field : bits (ccWord c m) 0 4 = m.toNat := (bits_ofNat _ (by decide)).trans (by omega)
  rw [field, BitVec.ofNat_toNat, BitVec.setWidth_eq]

end

/-! ## From the fields of a word to the word -/

section
variable {w : Word} {c : Nat}

theorem dopWord_of_fields (nibble : bits w 12 4 = c) : dopWord c (srcOf w) (dstOf w) = w := by
  apply ofNat_eq_of_toNat
  rw [field_srcOf, field_dstOf]
  simp only [bits] at nibble ⊢
  omega

theorem sopWord_of_fields (nibble : bits w 12 4 = c / 64) (code : bits w 6 6 = c % 64) : sopWord c (dstOf w) = w := by
  apply ofNat_eq_of_toNat
  rw [field_dstOf]
  simp only [bits] at nibble code ⊢
  omega

theorem rddWord_of_fields (nibble : bits w 12 4 = c / 8) (code : bits w 9 3 = c % 8) :
    rddWord c (regField w) (dstOf w) = w := by
  apply ofNat_eq_of_toNat
  rw [field_dstOf]
  simp only [bits, regField, regOf] at nibble code ⊢
  omega

theorem byteWord_of_fields (nibble : bits w 12 4 = c / 16) (code : bits w 6 6 / 4 = c % 16) :
    byteWord c (lowByte w) = w := by
  apply ofNat_eq_of_toNat
  simp only [bits, lowByte, BitVec.toNat_ofNat] at nibble code ⊢
  omega

theorem ccWord_of_fields (nibble : bits w 12 4 = c / 256) (block : bits w 6 6 = c / 4 % 64)
    (code : bits w 3 3 / 2 = c % 4) : ccWord c (BitVec.ofNat 4 (bits w 0 4)) = w := by
  apply ofNat_eq_of_toNat
  simp only [bits, BitVec.toNat_ofNat] at nibble block code ⊢
  omega

end

end Sys2Proof
end

section
/-! # The illegal words (spec/30_encoding.md R118) -/

namespace Sys2Proof

/-- The ten ranges, written out. -/
theorem isIllegalWord_iff (w : Word) : isIllegalWord w = true ↔
    (0x0007 ≤ w.toNat ∧ w.toNat ≤ 0x003F) ∨ (0x0088 ≤ w.toNat ∧ w.toNat ≤ 0x0097) ∨
    (0x0098 ≤ w.toNat ∧ w.toNat ≤ 0x009F) ∨ (0x0D00 ≤ w.toNat ∧ w.toNat ≤ 0x0DBF) ∨
    (0x0E00 ≤ w.toNat ∧ w.toNat ≤ 0x0FFF) ∨ (0x7000 ≤ w.toNat ∧ w.toNat ≤ 0x77FF) ∨
    (0x7A00 ≤ w.toNat ∧ w.toNat ≤ 0x7DFF) ∨ (0x8D40 ≤ w.toNat ∧ w.toNat ≤ 0x8DBF) ∨
    (0x8E00 ≤ w.toNat ∧ w.toNat ≤ 0x8FFF) ∨ (0xF000 ≤ w.toNat ∧ w.toNat ≤ 0xFFFF) := by
  simp [isIllegalWord, illegalRanges]

/-- The illegal words by the fields which the tables of the decoder read, a constructor for each table. -/
inductive IllegalBlock (w : Word) : Prop where
  | z (nibble : bits w 12 4 = 0) (block : bits w 6 6 = 0) (code : 7 ≤ bits w 0 6)
  | rtsCc (nibble : bits w 12 4 = 0) (block : bits w 6 6 = 2) (first : 1 ≤ bits w 3 3) (last : bits w 3 3 ≤ 3)
  | low (nibble : bits w 12 4 = 0) (code : 52 ≤ bits w 6 6) (notSxt : bits w 6 6 ≠ 55)
  | seven (nibble : bits w 12 4 = 7) (notXor : bits w 9 3 ≠ 4) (notSob : bits w 9 3 ≠ 7)
  | high (nibble : bits w 12 4 = 8) (code : 53 ≤ bits w 6 6) (notMfps : bits w 6 6 ≠ 55)
  | top (nibble : bits w 12 4 = 15)

section
variable {w : Word}

theorem illegalBlock_of_isIllegalWord (h : isIllegalWord w = true) : IllegalBlock w := by
  rcases (isIllegalWord_iff w).1 h with h | h | h | h | h | h | h | h | h | h
  · apply IllegalBlock.z <;> (unfold bits; omega)
  iterate 2 · apply IllegalBlock.rtsCc <;> (unfold bits; omega)
  iterate 2 · apply IllegalBlock.low <;> (unfold bits; omega)
  iterate 2 · apply IllegalBlock.seven <;> (unfold bits; omega)
  iterate 2 · apply IllegalBlock.high <;> (unfold bits; omega)
  · apply IllegalBlock.top; unfold bits; omega

theorem isIllegalWord_of_illegalBlock (h : IllegalBlock w) : isIllegalWord w = true := by
  rw [isIllegalWord_iff]
  cases h <;> (simp only [bits] at *; omega)

/-! ## The tables of the decoder -/

theorem decode_of_low (nibble : bits w 12 4 = 0) : decode w = decodeLow w := by rw [decode, nibble]; rfl

theorem decode_of_seven (nibble : bits w 12 4 = 7) : decode w = decodeSeven w := by rw [decode, nibble]; rfl

theorem decode_of_high (nibble : bits w 12 4 = 8) : decode w = decodeHigh w := by rw [decode, nibble]; rfl

theorem decodeLow_of_z (block : bits w 6 6 = 0) : decodeLow w = decodeZ w := by rw [decodeLow, block]; rfl

theorem decodeLow_of_rtsCc (block : bits w 6 6 = 2) : decodeLow w = decodeRtsCc w := by rw [decodeLow, block]; rfl

theorem decodeZ_illegal (code : 7 ≤ bits w 0 6) : decodeZ w = .illegal w := by
  unfold decodeZ
  split
  iterate 7 omega
  rfl

theorem decodeRtsCc_illegal (first : 1 ≤ bits w 3 3) (last : bits w 3 3 ≤ 3) : decodeRtsCc w = .illegal w := by
  obtain k | k | k : bits w 3 3 = 1 ∨ bits w 3 3 = 2 ∨ bits w 3 3 = 3 := by omega
  all_goals rw [decodeRtsCc, k]; rfl

theorem decodeLow_illegal (code : 52 ≤ bits w 6 6) (notSxt : bits w 6 6 ≠ 55) : decodeLow w = .illegal w := by
  unfold decodeLow
  split
  iterate 53 omega
  rfl

theorem decodeSeven_illegal (notXor : bits w 9 3 ≠ 4) (notSob : bits w 9 3 ≠ 7) : decodeSeven w = .illegal w := by
  unfold decodeSeven
  split
  iterate 2 omega
  rfl

theorem decodeHigh_illegal (code : 53 ≤ bits w 6 6) (notMfps : bits w 6 6 ≠ 55) : decodeHigh w = .illegal w := by
  unfold decodeHigh
  split
  iterate 54 omega
  rfl

theorem decode_of_illegalBlock (h : IllegalBlock w) : decode w = .illegal w := by
  cases h with
  | z nibble block code => rw [decode_of_low nibble, decodeLow_of_z block, decodeZ_illegal code]
  | rtsCc nibble block first last =>
    rw [decode_of_low nibble, decodeLow_of_rtsCc block, decodeRtsCc_illegal first last]
  | low nibble code notSxt => rw [decode_of_low nibble, decodeLow_illegal code notSxt]
  | seven nibble notXor notSob => rw [decode_of_seven nibble, decodeSeven_illegal notXor notSob]
  | high nibble code notMfps => rw [decode_of_high nibble, decodeHigh_illegal code notMfps]
  | top nibble => rw [decode, nibble]; rfl

end

end Sys2Proof
end

section
/-! # `decode` and `encode` are inverse

From an instruction to its word and back by the constructors, format by format; from a word to its instruction and back
by the rows of the decoder's tables. -/

namespace Sys2Proof

/-! ## The instruction of an encoded word -/

/-- The two bits of a byte operand which stand in the table index, bits 11:6 of the word. -/
theorem quarter_cases (b : BitVec 8) :
    b.toNat / 64 = 0 ∨ b.toNat / 64 = 1 ∨ b.toNat / 64 = 2 ∨ b.toNat / 64 = 3 := by omega

theorem decode_encode_sob (r : Reg) (off : BitVec 6) : decode (encode (.sob r off)) = .sob r off := by
  have nibble : bits (encode (.sob r off)) 12 4 = 7 := (bits_ofNat _ (by decide)).trans (by omega)
  have code : bits (encode (.sob r off)) 9 3 = 7 := (bits_ofNat _ (by decide)).trans (by omega)
  have reg : regField (encode (.sob r off)) = r := regField_ofNat (by omega)
  have offset : bits (encode (.sob r off)) 0 6 = off.toNat := (bits_ofNat _ (by decide)).trans (by omega)
  rw [decode_of_seven nibble, decodeSeven, code, reg, offset, BitVec.ofNat_toNat, BitVec.setWidth_eq]
  rfl

theorem decode_encode {i : Instr} (wf : i.wellFormed = true) : decode (encode i) = i := by
  cases i with
  | halt | wait | rti | bpt | iot | reset | rtt => rfl
  | mov s d | cmp s d | bit s d | bic s d | bis s d | add s d
  | movb s d | cmpb s d | bitb s d | bicb s d | bisb s d | sub s d =>
    rw [encode, decode, bits_dopWord_12_4, srcOf_dopWord, dstOf_dopWord]
    rfl
  | jmp d | swab d | clr d | com d | inc d | dec d | neg d | adc d | sbc d | tst d
  | ror d | rol d | asr d | asl d | sxt d =>
    rw [encode, decode_of_low (bits_sopWord_12_4 _ _), decodeLow, bits_sopWord_6_6, dstOf_sopWord]
    rfl
  | clrb d | comb d | incb d | decb d | negb d | adcb d | sbcb d | tstb d
  | rorb d | rolb d | asrb d | aslb d | mtps d | mfps d =>
    rw [encode, decode_of_high (bits_sopWord_12_4 _ _), decodeHigh, bits_sopWord_6_6, dstOf_sopWord]
    rfl
  | br b | bne b | beq b | bge b | blt b | bgt b | ble b =>
    rw [encode, decode_of_low (bits_byteWord_12_4 _ _), decodeLow, bits_byteWord_6_6, lowByte_byteWord]
    rcases quarter_cases b with q | q | q | q <;> (rw [q]; rfl)
  | bpl b | bmi b | bhi b | blos b | bvc b | bvs b | bcc b | bcs b | emt b | trap b =>
    rw [encode, decode_of_high (bits_byteWord_12_4 _ _), decodeHigh, bits_byteWord_6_6, lowByte_byteWord]
    rcases quarter_cases b with q | q | q | q <;> (rw [q]; rfl)
  | jsr r d =>
    rw [encode, decode_of_low (bits_rddWord_12_4 _ _ _), decodeLow, bits_rddWord_6_6, regField_rddWord, dstOf_rddWord]
    fin_cases r <;> rfl
  | xor r d =>
    rw [encode, decode_of_seven (bits_rddWord_12_4 _ _ _), decodeSeven, bits_rddWord_9_3, regField_rddWord,
      dstOf_rddWord]
    rfl
  | sob r off => exact decode_encode_sob r off
  | rts r => fin_cases r <;> rfl
  | clcc m | secc m =>
    rw [encode, decode_of_low (bits_ccWord_12_4 _ _), decodeLow_of_rtsCc (bits_ccWord_6_6 _ _), decodeRtsCc,
      bits_ccWord_3_3, mask_ccWord]
    obtain q | q : m.toNat / 8 = 0 ∨ m.toNat / 8 = 1 := by omega
    all_goals rw [q]; rfl
  | illegal w => exact decode_of_illegalBlock (illegalBlock_of_isIllegalWord wf)

/-! ## The word of a decoded instruction -/

/-- `w` is the word of the well-formed instruction `i`. -/
def IsWordOf (w : Word) (i : Instr) : Prop := i.wellFormed = true ∧ encode i = w

section
variable {w : Word}

theorem isWordOf_illegal (h : IllegalBlock w) : IsWordOf w (.illegal w) := ⟨isIllegalWord_of_illegalBlock h, rfl⟩

theorem isWordOf_decodeZ (nibble : bits w 12 4 = 0) (block : bits w 6 6 = 0) : IsWordOf w (decodeZ w) := by
  unfold decodeZ
  split
  -- HALT to RTT
  iterate 7 exact ⟨rfl, ofNat_eq_of_toNat (by simp only [bits] at *; omega)⟩
  · exact isWordOf_illegal (.z nibble block (by simp only [imp_false] at *; omega))

theorem isWordOf_decodeRtsCc (nibble : bits w 12 4 = 0) (block : bits w 6 6 = 2) : IsWordOf w (decodeRtsCc w) := by
  have := bits_lt w 3 3
  unfold decodeRtsCc
  split
  -- RTS, three illegal blocks, the condition-code operators
  · exact ⟨rfl, ofNat_eq_of_toNat (by simp only [bits, regOf] at *; omega)⟩
  iterate 3 exact isWordOf_illegal (.rtsCc nibble block (by omega) (by omega))
  iterate 2 exact ⟨rfl, ccWord_of_fields nibble block (by omega)⟩
  · exact ⟨rfl, ccWord_of_fields nibble block (by simp only [imp_false] at *; omega)⟩

theorem isWordOf_decodeLow (nibble : bits w 12 4 = 0) : IsWordOf w (decodeLow w) := by
  unfold decodeLow
  split
  · exact isWordOf_decodeZ nibble ‹_›
  · exact ⟨rfl, sopWord_of_fields nibble ‹_›⟩
  · exact isWordOf_decodeRtsCc nibble ‹_›
  · exact ⟨rfl, sopWord_of_fields nibble ‹_›⟩
  -- the seven branches, four values of bits 11:6 each
  iterate 28 exact ⟨rfl, byteWord_of_fields nibble (by omega)⟩
  -- JSR, one value for each register
  iterate 8 exact ⟨rfl, rddWord_of_fields nibble (by simp only [bits] at *; omega)⟩
  -- CLR to ASL, and SXT
  iterate 13 exact ⟨rfl, sopWord_of_fields nibble ‹_›⟩
  · exact isWordOf_illegal (.low nibble (by simp only [imp_false] at *; omega) ‹_›)

theorem isWordOf_decodeHigh (nibble : bits w 12 4 = 8) : IsWordOf w (decodeHigh w) := by
  unfold decodeHigh
  split
  -- the eight branches, EMT and TRAP, four values of bits 11:6 each
  iterate 40 exact ⟨rfl, byteWord_of_fields nibble (by omega)⟩
  -- CLRB to MTPS, and MFPS
  iterate 14 exact ⟨rfl, sopWord_of_fields nibble ‹_›⟩
  · exact isWordOf_illegal (.high nibble (by simp only [imp_false] at *; omega) ‹_›)

theorem isWordOf_decodeSeven (nibble : bits w 12 4 = 7) : IsWordOf w (decodeSeven w) := by
  unfold decodeSeven
  split
  -- XOR, SOB
  · exact ⟨rfl, rddWord_of_fields nibble ‹_›⟩
  · refine ⟨rfl, ofNat_eq_of_toNat ?_⟩
    simp only [bits, regField, regOf, BitVec.toNat_ofNat] at *
    omega
  · exact isWordOf_illegal (.seven nibble ‹_› ‹_›)

theorem isWordOf_decode (w : Word) : IsWordOf w (decode w) := by
  have := bits_lt w 12 4
  unfold decode
  split
  · exact isWordOf_decodeLow ‹_›
  -- MOV to ADD
  iterate 6 exact ⟨rfl, dopWord_of_fields ‹_›⟩
  · exact isWordOf_decodeSeven ‹_›
  · exact isWordOf_decodeHigh ‹_›
  -- MOVB to SUB
  iterate 6 exact ⟨rfl, dopWord_of_fields ‹_›⟩
  · exact isWordOf_illegal (.top (by simp only [imp_false] at *; omega))

theorem decode_eq_iff {i : Instr} : decode w = i ↔ IsWordOf w i := by
  constructor
  · rintro rfl
    exact isWordOf_decode w
  · rintro ⟨wf, rfl⟩
    exact decode_encode wf

end

end Sys2Proof
end

section
/-! # The length of an instruction from its word (spec/30_encoding.md R115) -/

namespace Sys2Proof

open Laws.EncodesInRow (field_lt)

/-- The extension words of an operand with the field `f`. -/
def extOfField (f : Nat) : Nat := if f / 8 = 6 ∨ f / 8 = 7 ∨ (f % 8 = 7 ∧ (f / 8 = 2 ∨ f / 8 = 3)) then 1 else 0

/-- The 4-bit codes of format DOP. -/
def isDopCode (op4 : Nat) : Bool := (1 ≤ op4 && op4 ≤ 6) || (9 ≤ op4 && op4 ≤ 14)

/-- The 10-bit codes of format SOP. -/
def isSopCode (op10 : Nat) : Bool :=
  op10 = 0o0001 || op10 = 0o0003 || (0o0050 ≤ op10 && op10 ≤ 0o0063) || op10 = 0o0067 ||
    (0o1050 ≤ op10 && op10 ≤ 0o1064) || op10 = 0o1067

/-- The 7-bit codes of format RDD. -/
def isRddCode (op7 : Nat) : Bool := op7 = 0o004 || op7 = 0o074

/-- The formula of R115. -/
def lengthOfWord (w : Word) : Nat :=
  1 + (if isDopCode (w.toNat / 4096) then extOfField (w.toNat / 64 % 64) else 0) +
    (if isDopCode (w.toNat / 4096) || isSopCode (w.toNat / 64) || isRddCode (w.toNat / 512) then
      extOfField (w.toNat % 64) else 0)

/-- The length of an instruction whose operands are `os`. -/
def lengthWith (os : List Opnd) : Nat := 1 + (os.map Opnd.extWords).sum

/-- Whether ten bits above an operand field are the code of no format with an operand. -/
def noOperandCode (op10 : Nat) : Bool := !isDopCode (op10 / 64) && !isSopCode op10 && !isRddCode (op10 / 8)

theorem extOfField_field (o : Opnd) : extOfField o.field = o.extWords := by
  obtain ⟨m, r⟩ := o
  revert r
  cases m <;> decide

/-! ## The formula on a word of each format -/

theorem lengthOfWord_of_noOperandCode {w : Word} (h : noOperandCode (w.toNat / 64) = true) :
    lengthOfWord w = lengthWith [] := by
  have op4 : w.toNat / 64 / 64 = w.toNat / 4096 := by omega
  have op7 : w.toNat / 64 / 8 = w.toNat / 512 := by omega
  simp only [noOperandCode, op4, op7, Bool.and_eq_true, Bool.not_eq_true'] at h
  obtain ⟨⟨notDop, notSop⟩, notRdd⟩ := h
  simp [lengthOfWord, lengthWith, notDop, notSop, notRdd]

theorem noOperandCode_of_illegalBlock {w : Word} (h : IllegalBlock w) : noOperandCode (w.toNat / 64) = true := by
  simp only [noOperandCode, isDopCode, isSopCode, isRddCode, Bool.and_eq_true, Bool.not_eq_true',
    Bool.or_eq_false_iff, Bool.and_eq_false_iff, decide_eq_false_iff_not]
  cases h <;> (simp only [bits] at *; omega)

section
variable {c : Nat} {r : Reg} {s d : Opnd} {b : BitVec 8}

theorem lengthOfWord_dopWord (inField : c < 16) (isDop : isDopCode c = true) :
    lengthOfWord (dopWord c s d) = lengthWith [s, d] := by
  have := field_lt s
  have := field_lt d
  have value : (dopWord c s d).toNat = c * 4096 + s.field * 64 + d.field := toNat_ofNat_of_lt (by omega)
  have code : (dopWord c s d).toNat / 4096 = c := by omega
  have source : (dopWord c s d).toNat / 64 % 64 = s.field := by omega
  have destination : (dopWord c s d).toNat % 64 = d.field := by omega
  simp [lengthOfWord, lengthWith, code, source, destination, isDop, extOfField_field, Nat.add_assoc]

theorem lengthOfWord_sopWord (inField : c < 1024) (notDop : isDopCode (c / 64) = false)
    (oneOperand : (isSopCode c || isRddCode (c / 8)) = true) : lengthOfWord (sopWord c d) = lengthWith [d] := by
  have := field_lt d
  have value : (sopWord c d).toNat = c * 64 + d.field := toNat_ofNat_of_lt (by omega)
  have op4 : (sopWord c d).toNat / 4096 = c / 64 := by omega
  have op7 : (sopWord c d).toNat / 512 = c / 8 := by omega
  have op10 : (sopWord c d).toNat / 64 = c := by omega
  have destination : (sopWord c d).toNat % 64 = d.field := by omega
  simp [lengthOfWord, lengthWith, op4, op7, op10, destination, notDop, oneOperand, extOfField_field]

/-- Format RDD is format SOP with the register as the low digit of its code. -/
theorem rddWord_eq_sopWord : rddWord c r d = sopWord (c * 8 + r.val) d := by
  rw [rddWord, sopWord]
  congr 1
  omega

theorem lengthOfWord_rddWord (inField : c < 128) (notDop : isDopCode (c / 8) = false) (isRdd : isRddCode c = true) :
    lengthOfWord (rddWord c r d) = lengthWith [d] := by
  have op4 : (c * 8 + r.val) / 64 = c / 8 := by omega
  have op7 : (c * 8 + r.val) / 8 = c := by omega
  rw [rddWord_eq_sopWord]
  exact lengthOfWord_sopWord (by omega) (by rw [op4, notDop]) (by rw [op7, isRdd, Bool.or_true])

theorem lengthOfWord_byteWord (inField : c < 256) (noOperand : ∀ q < 4, noOperandCode (c * 4 + q) = true) :
    lengthOfWord (byteWord c b) = lengthWith [] := by
  have value : (byteWord c b).toNat = c * 256 + b.toNat := toNat_ofNat_of_lt (by omega)
  have code : (byteWord c b).toNat / 64 = c * 4 + b.toNat / 64 := by omega
  exact lengthOfWord_of_noOperandCode (by rw [code]; exact noOperand _ (by omega))

end

theorem lengthOfWord_encode_sob (r : Reg) (off : BitVec 6) : lengthOfWord (encode (.sob r off)) = lengthWith [] := by
  have noOperand : ∀ r : Reg, noOperandCode (0o0770 + r.val) = true := by decide
  have value : (encode (.sob r off)).toNat = 0o077 * 512 + r.val * 64 + off.toNat := toNat_ofNat_of_lt (by omega)
  have code : (encode (.sob r off)).toNat / 64 = 0o0770 + r.val := by omega
  exact lengthOfWord_of_noOperandCode (by rw [code, noOperand])

theorem lengthOfWord_encode {i : Instr} (wf : i.wellFormed = true) : lengthOfWord (encode i) = i.length := by
  cases i with
  | halt | wait | rti | bpt | iot | reset | rtt => rfl
  | mov s d | cmp s d | bit s d | bic s d | bis s d | add s d
  | movb s d | cmpb s d | bitb s d | bicb s d | bisb s d | sub s d => exact lengthOfWord_dopWord (by decide) rfl
  | jmp d | swab d | clr d | com d | inc d | dec d | neg d | adc d | sbc d | tst d
  | ror d | rol d | asr d | asl d | sxt d
  | clrb d | comb d | incb d | decb d | negb d | adcb d | sbcb d | tstb d
  | rorb d | rolb d | asrb d | aslb d | mtps d | mfps d => exact lengthOfWord_sopWord (by decide) rfl rfl
  | jsr r d | xor r d => exact lengthOfWord_rddWord (by decide) rfl rfl
  | br b | bne b | beq b | bge b | blt b | bgt b | ble b
  | bpl b | bmi b | bhi b | blos b | bvc b | bvs b | bcc b | bcs b | emt b | trap b =>
    exact lengthOfWord_byteWord (by decide) (by decide)
  | sob r off => exact lengthOfWord_encode_sob r off
  | rts r => revert r; decide
  | clcc m | secc m => revert m; decide
  | illegal w => exact lengthOfWord_of_noOperandCode (noOperandCode_of_illegalBlock (illegalBlock_of_isIllegalWord wf))

end Sys2Proof
end

section
/-! # Encoding: the statements about spec/30_encoding.md -/

namespace Sys2Proof.Claims

open Sys2Proof Sys2Proof.Machine

/-- Settles O1: by the constructors of `Instr`, the fields of a word of the constructor's format select its row of the
decoder's tables and give its operands back. -/
theorem decodeOfEncode : Obligations.DecodeOfEncode := fun _ wf => decode_encode wf

/-- Settles O2: by the rows of the decoder's tables, the fields that select a row and its operands make up the
whole word. -/
theorem encodeOfDecode : Obligations.EncodeOfDecode := isWordOf_decode

/-- Settles O3: as decoding is the inverse of encoding, a word decodes to its illegal instruction exactly if that is
well-formed. -/
theorem illegalWordsAreTheRanges : Obligations.IllegalWordsAreTheRanges := by
  intro w
  rw [decode_eq_iff, ← isIllegalWord_iff]
  exact and_iff_left rfl

/-- Settles O4: nine closed words, which evaluate. -/
theorem specWordsDecode : Obligations.SpecWordsDecode := by
  unfold Obligations.SpecWordsDecode
  decide

/-- Settles O5: a word is the encoding of the instruction it decodes to, and on an encoding the formula gives the length
of the instruction, format by format. -/
theorem lengthFromOpcodeWord : Obligations.LengthFromOpcodeWord := by
  intro w
  obtain ⟨wf, word⟩ := isWordOf_decode w
  have length := lengthOfWord_encode wf
  rw [word] at length
  exact length.symm

end Sys2Proof.Claims
end

section
/-! # The resolver, mode by mode

An equation for each addressing mode (spec/40_addressing.md R141), and pc after the stream reads of R144. -/

namespace Sys2Proof.Machine

section
variable (sz : Size) (r : Reg) (s : State)

theorem resolve_register : resolve sz ⟨.register, r⟩ s = .ok (.reg r) s := rfl

theorem resolve_deferred : resolve sz ⟨.deferred, r⟩ s = .ok (.mem (s.reg r)) (s.noteRead r) := rfl

theorem resolve_autoInc : resolve sz ⟨.autoInc, r⟩ s =
    .ok (if r = PC then .stream (s.reg r) else .mem (s.reg r)) ((s.noteRead r).setReg r (s.reg r + stepOf r sz)) := rfl

theorem resolve_autoIncDeferred_pc :
    resolve sz ⟨.autoIncDeferred, PC⟩ s = (fetch s).bind fun p t => .ok (.mem p) t := rfl

theorem resolve_autoIncDeferred_of_ne {r : Reg} (general : r ≠ PC) : resolve sz ⟨.autoIncDeferred, r⟩ s =
    (readWord (s.reg r) ((s.noteRead r).setReg r (s.reg r + 2#16))).bind fun p t => .ok (.mem p) t :=
  if_neg general

theorem resolve_autoDec : resolve sz ⟨.autoDec, r⟩ s =
    .ok (.mem (s.reg r - stepOf r sz)) ((s.noteRead r).setReg r (s.reg r - stepOf r sz)) := rfl

theorem resolve_autoDecDeferred : resolve sz ⟨.autoDecDeferred, r⟩ s =
    (readWord (s.reg r - 2#16) ((s.noteRead r).setReg r (s.reg r - 2#16))).bind fun p t => .ok (.mem p) t := rfl

theorem resolve_indexed : resolve sz ⟨.indexed, r⟩ s =
    (fetch s).bind fun d t => .ok (.mem (t.reg r + d)) (t.noteRead r) := rfl

theorem resolve_indexedDeferred : resolve sz ⟨.indexedDeferred, r⟩ s =
    (fetch s).bind fun d t => (readWord (t.reg r + d) (t.noteRead r)).bind fun p u => .ok (.mem p) u := rfl

end

theorem stepOf_pc (sz : Size) : stepOf PC sz = 2#16 := by cases sz <;> rfl

theorem resolve_autoInc_word_of_ne {r : Reg} (s : State) (general : r ≠ PC) : resolve .word ⟨.autoInc, r⟩ s =
    .ok (.mem (s.reg r)) ((s.noteRead r).setReg r (s.reg r + 2#16)) := by
  rw [resolve_autoInc, if_neg general]
  rfl

theorem resolve_autoDec_word (r : Reg) (s : State) : resolve .word ⟨.autoDec, r⟩ s =
    .ok (.mem (s.reg r - 2#16)) ((s.noteRead r).setReg r (s.reg r - 2#16)) := rfl

theorem reg_of_readWord_ok {a w : Word} {s t : State} (h : readWord a s = .ok w t) (r : Reg) : t.reg r = s.reg r := by
  rw [readWord_state_of_ok h]
  rfl

theorem pc_of_fetch_ok {w : Word} {s t : State} (h : fetch s = .ok w t) : t.pc = s.pc + 2#16 := by
  obtain ⟨_, u, read, last⟩ := Res.bind_eq_ok.1 h
  cases last
  rw [State.pc_setPc, show u.pc = s.pc from reg_of_readWord_ok read PC]

/-- A pointer read leaves the register as it was stepped before the read (spec/40_addressing.md R141). -/
theorem reg_of_pointer_read {a v : Word} {r : Reg} {s t : State} {op : Operand}
    (h : ((readWord a (s.setReg r v)).bind fun p u => .ok (.mem p) u) = .ok op t) : t.reg r = v := by
  obtain ⟨_, _, read, last⟩ := Res.bind_eq_ok.1 h
  cases last
  rw [reg_of_readWord_ok read, State.reg_setReg_self]

section
variable {a v : Word} {s t : State}

theorem readStream_of_ok (h : readWord (evenAddr a) s = .ok v t) : readStream a s = .ok v t := by
  rw [readStream, h]

theorem readStream_of_err (h : readWord (evenAddr a) s = .err t) : readStream a s = .err (t.setPc a) := by
  rw [readStream, h]

end

end Sys2Proof.Machine
end

section
/-! # The fetch of an instruction from memory -/

namespace Sys2Proof.Machine

theorem boundary_of_nothing_taken {s : State} (running : s.halted = false) (noRequest : s.pfail = false)
    (noLine : bestLine s = none) (notWaiting : s.waiting = false) : boundary s = .instruction := by
  simp [boundary, running, noRequest, noLine, notWaiting]

/-- A fetch where no region stands at the aligned pc, under either ODD_WORD_POLICY (spec/20_memory.md R80). -/
theorem fetch_memory {s : State} (place : regionAt s.params (evenAddr s.pc) = none) :
    fetch s = .ok (s.mem.readWord (evenAddr s.pc)) (s.setPc (s.pc + 2#16)) := by
  have address : wordAddr s.params (evenAddr s.pc) = some (evenAddr s.pc) :=
    wordAddr_of_even s.params (by rw [evenAddr_toNat]; omega)
  rw [fetch, readWord_memory address place, Res.bind_ok]

theorem fetchInstr_memory {s : State} (place : regionAt s.params (evenAddr s.pc) = none) :
    fetchInstr s = .ok (decode (s.mem.readWord (evenAddr s.pc))) ((beginInstr s).setPc (s.pc + 2#16)) := by
  have fetched := fetch_memory (s := beginInstr s) place
  rw [fetchInstr, fetched]
  rfl

theorem step_of_fetched {s u : State} {i : Instr} (instruction : boundary s = .instruction)
    (fetched : fetchInstr s = .ok i u) : step s = exec i u := by
  simp [step, instruction, fetched]

/-- The instruction at the head of a byte stream is that of its first word. -/
theorem decode_of_decodeBytes {low high : Byte} {rest after : List Byte} {i : Instr}
    (h : decodeBytes (low :: high :: rest) = .ok (i, after)) : decode (joinBytes high low) = i := by
  simp only [decodeBytes] at h
  split at h
  · cases h
  · cases h
    rfl

end Sys2Proof.Machine
end

section
/-! # Completed double-operand instructions

MOV and ADD from their source, resolution, read and write (spec/40_addressing.md R140) to the state they leave without a
trace trap. -/

namespace Sys2Proof.Machine

theorem loadOp_ok {w : Nat} {acc : Access w} {o : Opnd} {op : Operand} {v : BitVec w} {s t u : State}
    (place : resolve acc.size o s = .ok op t) (read : acc.read op t = .ok v u) : loadOp acc o s = .ok v u := by
  rw [loadOp, place, Res.bind_ok, read]

theorem loadOp_register (r : Reg) (s : State) :
    loadOp wordAccess ⟨.register, r⟩ s = .ok (s.reg r) (s.noteRead r) := rfl

theorem loadOp_autoInc_ref {r : Reg} {s : State} (ref : ReferenceBus s) (general : r ≠ PC) :
    loadOp wordAccess ⟨.autoInc, r⟩ s =
      .ok (s.mem.readWord (evenAddr (s.reg r))) ((s.noteRead r).setReg r (s.reg r + 2#16)) :=
  loadOp_ok (resolve_autoInc_word_of_ne s general) (readWord_ref (s := (s.noteRead r).setReg r (s.reg r + 2#16)) ref _)

theorem loadOp_autoDec_ref (r : Reg) {s : State} (ref : ReferenceBus s) :
    loadOp wordAccess ⟨.autoDec, r⟩ s =
      .ok (s.mem.readWord (evenAddr (s.reg r - 2#16))) ((s.noteRead r).setReg r (s.reg r - 2#16)) :=
  loadOp_ok (resolve_autoDec_word r s) (readWord_ref (s := (s.noteRead r).setReg r (s.reg r - 2#16)) ref _)

section
variable {w : Nat} {acc : Access w} {src dst : Opnd} {op : Operand} {sv dv : BitVec w} {s s1 s2 s3 s4 : State}

theorem moveOp_ok (load : loadOp acc src s = .ok sv s1) (place : resolve acc.size dst s1 = .ok op s2)
    (write : acc.write op sv s2 = .ok () s3) : moveOp acc src dst s = .ok () (s3.setCc (moveFlags s1.cc sv)) := by
  simp only [moveOp, load, Res.bind_ok, storeOp, place, write]

theorem combineOp_ok {f : BitVec w → Cc → BitVec w → BitVec w × Cc} (load : loadOp acc src s = .ok sv s1)
    (place : resolve acc.size dst s1 = .ok op s2) (read : acc.read op s2 = .ok dv s3)
    (write : acc.write op (f sv s3.cc dv).1 s3 = .ok () s4) :
    combineOp acc f src dst s = .ok () (s4.setCc (f sv s3.cc dv).2) := by
  simp only [combineOp, load, Res.bind_ok, modifyOp, place, read, write]

end

theorem retire_of_no_trace {s : State} (noTrace : s.tstart = false) : retire (.ok () s) = .next s := by
  rw [retire_ok, traceEnd_of_false noTrace]

theorem addOp_value (sv dv : Word) (k : Cc) : (addOp sv k dv).1 = sv + dv := by
  apply BitVec.eq_of_toNat_eq
  simp [addOp]

section
variable {src dst : Opnd} {a v : Word} {r : Reg} {s s1 s2 : State} (noTrace : s.tstart = false)
  (load : loadOp wordAccess src s = .ok v s1)
include noTrace load

/-- Loading the source leaves the trace latch. -/
theorem tstart_of_loadOp_ok : s1.tstart = false := by
  have quiet : Quiet s s1 := by simpa [load] using quiet_loadOp lawful_wordAccess src s
  rw [quiet.tstart, noTrace]

theorem mov_register : ∃ t, exec (.mov src ⟨.register, r⟩) s = .next t ∧ t.reg r = v := by
  have done := moveOp_ok load (resolve_register .word r s1) rfl
  have noTrace1 := tstart_of_loadOp_ok noTrace load
  exact ⟨_, (congrArg retire done).trans (retire_of_no_trace noTrace1), State.reg_setReg_self s1 r v⟩

theorem add_register : ∃ t, exec (.add src ⟨.register, r⟩) s = .next t ∧ t.reg r = s1.reg r + v := by
  have done := combineOp_ok (f := addOp) load (resolve_register .word r s1) rfl rfl
  have noTrace1 := tstart_of_loadOp_ok noTrace load
  refine ⟨_, (congrArg retire done).trans (retire_of_no_trace noTrace1), (State.reg_setReg_self _ r _).trans ?_⟩
  rw [addOp_value, BitVec.add_comm]

/-- MOV to memory on the reference bus: the registers are those of the resolution, and the word reads back. -/
theorem mov_memory (ref : ReferenceBus s) (place : resolve .word dst s1 = .ok (.mem a) s2) :
    ∃ t, exec (.mov src dst) s = .next t ∧ (∀ q, t.reg q = s2.reg q) ∧ readWord a t = .ok v t := by
  have quiet1 : Quiet s s1 := by simpa [load] using quiet_loadOp lawful_wordAccess src s
  have quiet2 : Quiet s1 s2 := by simpa [place] using quiet_resolve .word dst s1
  have ref2 : ReferenceBus s2 := ref.of_world (quiet1.trans quiet2).toWorld
  have noTrace2 : s2.tstart = false := by rw [quiet2.tstart, tstart_of_loadOp_ok noTrace load]
  have done := moveOp_ok (acc := wordAccess) load place (writeWord_ref ref2 a v)
  refine ⟨_, (congrArg retire done).trans (retire_of_no_trace noTrace2), fun _ => rfl, ?_⟩
  rw [readWord_ref, State.setCc_mem, Memory.readWord_writeWord_self]
  exact ref2

end

end Sys2Proof.Machine
end

section
/-! # Addressing: the statements about spec/40_addressing.md -/

namespace Sys2Proof.Claims

open Sys2Proof Sys2Proof.Machine

/-- Settles O15: the equations of the resolver, one for each mode and kind of register. -/
theorem resolverModes : Obligations.ResolverModes := by
  intro r sz s
  refine ⟨resolve_register sz r s, resolve_deferred sz r s, resolve_autoInc sz r s, resolve_autoIncDeferred_of_ne sz s,
    fun isPc => ?pc, resolve_autoDec sz r s, resolve_autoDecDeferred sz r s, resolve_indexed sz r s,
    resolve_indexedDeferred sz r s⟩
  case pc =>
    subst isPc
    exact resolve_autoIncDeferred_pc sz s

/-- Settles O14: modes 2 and 4 write the stepped register and call no bus; the pointer read of modes 3 and 5 leaves the
register as stepped, and through R7 the step of mode 3 is that of the fetch. -/
theorem autoStep : Obligations.AutoStep := by
  intro r sz s
  refine ⟨rfl, ⟨_, _, resolve_autoInc sz r s, State.reg_setReg_self _ r _⟩,
    ⟨_, _, resolve_autoDec sz r s, State.reg_setReg_self _ r _⟩, fun o t h => ?incDeferred, fun o t h => ?decDeferred⟩
  case incDeferred =>
    by_cases isPc : r = PC
    · subst isPc
      obtain ⟨_, _, fetched, last⟩ := Res.bind_eq_ok.1 h
      cases last
      exact pc_of_fetch_ok fetched
    · rw [resolve_autoIncDeferred_of_ne sz s isPc] at h
      exact reg_of_pointer_read h
  case decDeferred => exact reg_of_pointer_read h

/-- Settles O17, from the two answers of a stream read. -/
theorem immediateOperand : Obligations.ImmediateOperand := by
  refine fun a v b s => ⟨fun x t read => ⟨readStream_of_ok read, ?lowByte⟩,
    fun t failed => ⟨readStream_of_err failed, ?failedByte⟩, rfl, rfl⟩
  case lowByte => exact Res.bind_eq_ok.2 ⟨x, t, readStream_of_ok read, rfl⟩
  case failedByte => exact Res.bind_eq_err.2 (.inl (readStream_of_err failed))

/-- Settles O6: with nothing to accept a step is the fetch and `exec`, and the word of the two bytes is the word that
the fetch reads. -/
theorem stepRunsDecodedInstruction : Obligations.StepRunsDecodedInstruction := by
  intro s i rest after running noRequest noLine notWaiting place bytes
  have instruction := boundary_of_nothing_taken running noRequest noLine notWaiting
  have decoded : decode (s.mem.readWord (evenAddr s.pc)) = i := decode_of_decodeBytes bytes
  rw [step_of_fetched instruction (fetchInstr_memory place), decoded]
  rfl

/-- Settles O16: by the equations of the resolver, where the fetch and each pointer read answer with memory's word. -/
theorem pcOperandForms : Obligations.PcOperandForms := by
  intro a sz s ref pc word gives
  have pcReg : s.reg PC = a + 2#16 := pc
  have forward : a + 2#16 + 2#16 = a + 4#16 := BitVec.add_assoc a _ _
  have back : a + 2#16 - 2#16 = a := BitVec.add_sub_cancel a _
  have fetched : fetch s = .ok (word (a + 2#16)) (s.setPc (a + 4#16)) := by rw [fetch_ref ref, pc, forward]; rfl
  have pcFetched : (s.setPc (a + 4#16)).reg PC = a + 4#16 := State.pc_setPc s _
  have pcBack : (s.setReg PC a).reg PC = a := State.pc_setPc s a
  have unmarked (t : State) : t.noteRead PC = t := State.noteRead_of_special (by decide)
  refine ⟨⟨s, resolve_register sz PC s, pc⟩, ⟨s, ?deferred, pc⟩, ⟨s.setReg PC (a + 4#16), ?autoInc, pcFetched⟩,
    ⟨s.setPc (a + 4#16), ?autoIncDeferred, pcFetched⟩, ⟨s.setReg PC a, ?autoDec, pcBack⟩,
    ⟨s.setReg PC a, ?autoDecDeferred, pcBack⟩, ⟨s.setPc (a + 4#16), ?indexed, pcFetched⟩,
    ⟨s.setPc (a + 4#16), ?indexedDeferred, pcFetched⟩⟩
  case deferred => rw [resolve_deferred, unmarked, pcReg]
  case autoInc => rw [resolve_autoInc, if_pos rfl, stepOf_pc, unmarked, pcReg, forward]
  case autoIncDeferred => rw [resolve_autoIncDeferred_pc, fetched, Res.bind_ok]
  case autoDec => rw [resolve_autoDec, stepOf_pc, unmarked, pcReg, back]
  case autoDecDeferred =>
    have pointer : readWord a (s.setReg PC a) = .ok (word a) (s.setReg PC a) := readWord_ref (s := s.setReg PC a) ref a
    rw [resolve_autoDecDeferred, unmarked, pcReg, back, pointer, Res.bind_ok]
  case indexed => rw [resolve_indexed, fetched, Res.bind_ok, unmarked, pcFetched]
  case indexedDeferred =>
    have pointer (x : Word) : readWord x (s.setPc (a + 4#16)) = .ok (word x) (s.setPc (a + 4#16)) :=
      readWord_ref (s := s.setPc (a + 4#16)) ref x
    rw [resolve_indexedDeferred, fetched, Res.bind_ok, unmarked, pcFetched, pointer, Res.bind_ok]

/-- Settles O18: in each example the source is loaded first, and the destination resolves in the state which that
leaves. -/
theorem sameRegisterTwice : Obligations.SameRegisterTwice := by
  intro s ref noTrace
  have general : (0 : Reg) ≠ PC := by decide
  have readAt (a : Word) : readWord a s = .ok (s.mem.readWord (evenAddr a)) s := readWord_ref ref a
  have loadInc := loadOp_autoInc_ref ref general
  have stepped (v : Word) : ((s.noteRead 0).setReg 0 v).reg 0 = v := State.reg_setReg_self _ 0 v
  refine ⟨?movInc, ?movOver, ?addOver, ?movDec⟩
  case movInc =>
    obtain ⟨t, done, regs, back⟩ :=
      mov_memory noTrace (loadOp_register 0 s) ref (resolve_autoInc_word_of_ne (s.noteRead 0) general)
    exact ⟨t, done, (regs 0).trans (State.reg_setReg_self _ 0 _), back⟩
  case movOver =>
    obtain ⟨t, done, reg⟩ := mov_register (r := 0) noTrace loadInc
    exact ⟨t, _, readAt _, done, reg⟩
  case addOver =>
    obtain ⟨t, done, reg⟩ := add_register (r := 0) noTrace loadInc
    exact ⟨t, _, readAt _, done, by rw [reg, stepped]⟩
  case movDec =>
    have twice : s.reg 0 - 2#16 - 2#16 = s.reg 0 - 4#16 := BitVec.sub_sub _ _ _
    obtain ⟨t, done, regs, back⟩ := mov_memory noTrace (loadOp_autoDec_ref 0 ref) ref (resolve_autoDec_word 0 _)
    rw [stepped, twice] at back
    refine ⟨t, _, readAt _, done, (regs 0).trans ?_, back⟩
    rw [State.reg_setReg_self, stepped, twice]

end Sys2Proof.Claims
end

section
/-! # Carry, borrow and signed overflow

The flags of ADD, SUB and CMP (spec/41_double_operand.md R182, R186, R187) as overflow predicates of words. -/

namespace Sys2Proof.Machine

/-- An integer differs from the signed word it wraps to exactly where it is out of the range of signed words. -/
theorem outOfRange_eq_decide_ne {n : Int} {t : Word} (wraps : t.toInt = n.bmod (2 ^ 16)) :
    (decide (n ≥ 2 ^ 15) || decide (n < -2 ^ 15)) = decide (n ≠ t.toInt) := by
  rw [wraps, Int.bmod_def, ← Bool.decide_or, decide_eq_decide]
  omega

theorem saddOverflow_eq_decide_ne (x y : Word) : x.saddOverflow y = decide (x.toInt + y.toInt ≠ (x + y).toInt) :=
  outOfRange_eq_decide_ne (BitVec.toInt_add x y)

theorem ssubOverflow_eq_decide_ne (x y : Word) : x.ssubOverflow y = decide (x.toInt - y.toInt ≠ (x - y).toInt) :=
  outOfRange_eq_decide_ne BitVec.toInt_sub

theorem addOp_v (sv dv : Word) (k : Cc) : (addOp sv k dv).2.v = sv.saddOverflow dv := by
  have value : (sv.setWidth 17 + dv.setWidth 17).setWidth 16 = sv + dv := addOp_value sv dv k
  simp only [addOp, value, BitVec.saddOverflow_eq, bne]

theorem addOp_c (sv dv : Word) (k : Cc) : (addOp sv k dv).2.c = sv.uaddOverflow dv :=
  (BitVec.uaddOverflow_eq sv dv).symm

/-- The result and flags of ADD from the exact sum of the operands (spec/41_double_operand.md R186). -/
theorem addOp_eq (sv : Word) (k : Cc) (dv : Word) :
    let t := BitVec.ofNat 16 (sv.toNat + dv.toNat)
    addOp sv k dv = (t,
      { n := t.getLsbD 15, z := t == 0#16, v := sv.getLsbD 15 == dv.getLsbD 15 && t.getLsbD 15 != sv.getLsbD 15,
        c := decide (sv.toNat + dv.toNat ≥ 65536) }) := by
  have value : (addOp sv k dv).1 = BitVec.ofNat 16 (sv.toNat + dv.toNat) := addOp_value sv dv k
  have carry : (addOp sv k dv).2.c = decide (sv.toNat + dv.toNat ≥ 65536) := addOp_c sv dv k
  dsimp only
  rw [← carry, ← value]
  rfl

theorem cmpFlags_v (sv dv : Word) : (cmpFlags sv dv).v = sv.ssubOverflow dv := by
  have signs : ∀ s d t : Bool, (s != d && t == d) = (!s && d && t || s && !d && !t) := by decide
  rw [BitVec.ssubOverflow_eq]
  exact signs sv.msb dv.msb (sv - dv).msb

/-- SUB has the overflow of CMP with its operands exchanged. -/
theorem subOp_v (sv dv : Word) (k : Cc) : (subOp sv k dv).2.v = dv.ssubOverflow sv := by
  rw [← cmpFlags_v]
  simp only [subOp, cmpFlags, bne_comm (a := sv.msb)]

end Sys2Proof.Machine
end

section
/-! # What V and C of the arithmetic instructions mean (spec/41_double_operand.md) -/

namespace Sys2Proof.Claims

open Sys2Proof Sys2Proof.Machine

/-- Settles O36: the flags are the overflow predicates of the operands, and each of these compares a result of 16 bits
with the exact one. -/
theorem overflowMeansDoesNotFit : Obligations.OverflowMeansDoesNotFit := by
  intro k sv dv
  have svLt := sv.isLt
  have dvLt := dv.isLt
  refine ⟨?addV, ?addC, ?subV, ?subC, ?cmpV, rfl⟩
  case addV => rw [addOp_v, addOp_value, saddOverflow_eq_decide_ne]
  case addC =>
    rw [addOp_c, addOp_value, BitVec.toNat_add, BitVec.uaddOverflow, decide_eq_decide]
    omega
  case subV => rw [subOp_v, ssubOverflow_eq_decide_ne]; rfl
  case subC =>
    have value : (subOp sv k dv).1.toNat = (65536 - sv.toNat + dv.toNat) % 65536 := BitVec.toNat_sub dv sv
    have borrow : (subOp sv k dv).2.c = decide (dv.toNat < sv.toNat) := rfl
    rw [value, borrow, decide_eq_decide]
    omega
  case cmpV => rw [cmpFlags_v, ssubOverflow_eq_decide_ne]

end Sys2Proof.Claims
end

section
/-! # The word of an instruction with operands, field by field (spec/30_encoding.md R101, R102, R110) -/

namespace Sys2Proof.Claims

open Sys2Proof Sys2Proof.Machine

theorem fieldWord_eq (o : Opnd) : fieldWord o = BitVec.ofNat 16 o.field := by
  rw [fieldWord, Opnd.field, Nat.mul_comm]

theorem dopWord_eq (code : Nat) (src dst : Opnd) :
    dopWord code src dst = BitVec.ofNat 16 (code * 4096) + 64#16 * fieldWord src + fieldWord dst := by
  rw [fieldWord_eq, fieldWord_eq, ← BitVec.ofNat_mul, ← BitVec.ofNat_add, ← BitVec.ofNat_add, Nat.mul_comm 64]
  rfl

theorem rddWord_eq (code : Nat) (r : Reg) (dst : Opnd) :
    rddWord code r dst = BitVec.ofNat 16 (code * 512) + 64#16 * BitVec.ofNat 16 r.val + fieldWord dst := by
  rw [fieldWord_eq, ← BitVec.ofNat_mul, ← BitVec.ofNat_add, ← BitVec.ofNat_add, Nat.mul_comm 64]
  rfl

end Sys2Proof.Claims
end

section
/-! # The outcomes of an operand instruction

An instruction that is `retire` of a store, of a read-modify-write or of a probe of its destination has the outcomes
that the statements list, and completes on the reference bus (spec/40_addressing.md R140, R147). -/

namespace Sys2Proof.Machine

theorem Quiet.of_ok {α : Type} {r : Res α} {a : α} {s t : State} (h : Quiet s r.state) (e : r = .ok a t) :
    Quiet s t := by
  rwa [e] at h

theorem Quiet.cc {s t : State} (h : Quiet s t) : t.cc = s.cc := congrArg ccOf h.psw

theorem Access.Lawful.quiet_of_read {w : Nat} {acc : Access w} (l : acc.Lawful) {d : Opnd} {o : Operand} {v : BitVec w}
    {s t u : State} (place : resolve acc.size d s = .ok o t) (read : acc.read o t = .ok v u) : Quiet s u :=
  ((quiet_resolve _ d s).of_ok place).trans ((l.read d o t).quiet.of_ok read)

/-- A source is loaded on the reference bus. -/
theorem loadOp_ref {w : Nat} {acc : Access w} (l : acc.Lawful) {s : State} (ref : ReferenceBus s) (o : Opnd) :
    ∃ v t, loadOp acc o s = .ok v t := by
  obtain ⟨op, t, place⟩ := resolve_ref ref acc.size o
  obtain ⟨v, u, read⟩ := l.readRef op t (ref.of_world ((quiet_resolve _ o s).of_ok place).toWorld)
  exact ⟨v, u, loadOp_ok place read⟩

end Sys2Proof.Machine

namespace Sys2Proof.Claims

open Sys2Proof Sys2Proof.Machine

section
variable {w : Nat} {acc : Access w} (lawful : acc.Lawful) {i : Instr} {s s1 x : State} {d : Opnd}

/-- The flags are set over the PSW that the instruction began with, since nothing before them writes the PSW. -/
theorem finished_of_retire_setCc {k : Cc} (quiet : Quiet s x) (run : exec i s = retire (.ok () (x.setCc k))) :
    exec i s = .next (finished s (flagged s x k)) := by
  rw [run, retire_ok]
  simp only [traceEnd, traceTrap, finished, flagged, State.setCc, quiet.psw, quiet.tstart]

section
variable (quiet : Quiet s s1)
include lawful quiet

section
variable {v : BitVec w} {k : Cc} (run : exec i s = retire (storeOp acc v k d s1))
include run

theorem storeClauses : StoreClauses acc i s s1 d v k := by
  unfold storeOp at run
  refine ⟨fun u place => ?_, fun o t x place write => ?_, fun o t x place write => ?_⟩ <;> rw [place] at run
  · exact run
  · rw [Res.bind_ok, write] at run
    exact run
  · rw [Res.bind_ok, write] at run
    have resolved : Quiet s1 t := (quiet_resolve _ d s1).of_ok place
    exact finished_of_retire_setCc (quiet.trans (resolved.trans ((lawful.write o v t).of_ok write))) run

theorem storeCompletes (ref : ReferenceBus s1) : StoreCompletes acc i s s1 d v k := by
  obtain ⟨_, _, completed⟩ := storeClauses lawful quiet run
  obtain ⟨o, t, place⟩ := resolve_ref ref acc.size d
  have resolved : Quiet s1 t := (quiet_resolve _ d s1).of_ok place
  obtain ⟨x, write⟩ := lawful.writeRef o v t (ref.of_world resolved.toWorld)
  exact ⟨o, t, x, place, write, completed o t x place write⟩

end

section
variable {f : Cc → BitVec w → BitVec w × Cc} {res : BitVec w → BitVec w} {flags : BitVec w → Cc}
  (value : ∀ dv, f s.cc dv = (res dv, flags dv)) (run : exec i s = retire (modifyOp acc f d s1))
include value run

theorem modifyClauses : ModifyClauses acc i s s1 d res flags := by
  unfold modifyOp at run
  refine ⟨fun u place => ?_, fun o t u place read => ?_, fun o t dv u x place read write => ?_,
    fun o t dv u x place read write => ?_⟩ <;> rw [place] at run
  · exact run
  · rw [Res.bind_ok, read] at run
    exact run
  all_goals
    have loaded : Quiet s u := quiet.trans (lawful.quiet_of_read place read)
    rw [Res.bind_ok, read, Res.bind_ok, loaded.cc, value] at run
    dsimp only at run
    rw [write] at run
  · exact run
  · exact finished_of_retire_setCc (loaded.trans ((lawful.write o _ u).of_ok write)) run

theorem modifyCompletes (ref : ReferenceBus s1) : ModifyCompletes acc i s s1 d res flags := by
  obtain ⟨_, _, _, completed⟩ := modifyClauses lawful quiet value run
  obtain ⟨o, t, place⟩ := resolve_ref ref acc.size d
  have refT : ReferenceBus t := ref.of_world ((quiet_resolve _ d s1).of_ok place).toWorld
  obtain ⟨dv, u, read⟩ := lawful.readRef o t refT
  have refU : ReferenceBus u := ref.of_world (lawful.quiet_of_read place read).toWorld
  obtain ⟨x, write⟩ := lawful.writeRef o (res dv) u refU
  exact ⟨o, t, dv, u, x, place, read, write, completed o t dv u x place read write⟩

end

section
variable {f : Cc → BitVec w → Cc} {flags : BitVec w → Cc} (value : ∀ dv, f s.cc dv = flags dv)
  (run : exec i s = retire (probeOp acc f d s1))
include value run

theorem probeClauses : ProbeClauses acc i s s1 d flags := by
  unfold probeOp at run
  refine ⟨fun u place => ?_, fun o t u place read => ?_, fun o t dv u place read => ?_⟩ <;> rw [place] at run
  · exact run
  · rw [Res.bind_ok, read] at run
    exact run
  · have loaded : Quiet s u := quiet.trans (lawful.quiet_of_read place read)
    rw [Res.bind_ok, read, Res.bind_ok, loaded.cc, value] at run
    exact finished_of_retire_setCc loaded run

theorem probeCompletes (ref : ReferenceBus s1) : ProbeCompletes acc i s s1 d flags := by
  obtain ⟨_, _, completed⟩ := probeClauses lawful quiet value run
  obtain ⟨o, t, place⟩ := resolve_ref ref acc.size d
  have refT : ReferenceBus t := ref.of_world ((quiet_resolve _ d s1).of_ok place).toWorld
  obtain ⟨dv, u, read⟩ := lawful.readRef o t refT
  exact ⟨o, t, dv, u, place, read, completed o t dv u place read⟩

end
end

/-! ## After a source (spec/41_double_operand.md R180) -/

section
variable {code : Nat} {mk : Opnd → Opnd → Instr} (word : ∀ src dst, encode (mk src dst) = dopWord code src dst)
include lawful word

/-- What a double-operand instruction does with its destination it does in the state that loading the source leaves. -/
theorem afterSource {body : BitVec w → Opnd → State → Res Unit}
    {Clauses Completes : Instr → State → State → Opnd → BitVec w → Prop}
    (run : ∀ src dst s, exec (mk src dst) s = retire ((loadOp acc src s).bind fun sv t => body sv dst t))
    (clauses : ∀ {i s s1 d sv}, Quiet s s1 → exec i s = retire (body sv d s1) → Clauses i s s1 d sv)
    (completes : ∀ {i s s1 d sv}, Quiet s s1 → exec i s = retire (body sv d s1) → ReferenceBus s1 →
      Completes i s s1 d sv) :
    AfterSource acc (BitVec.ofNat 16 (code * 4096)) mk Clauses Completes := by
  intro src dst s
  have source : ∀ {sv s1}, loadOp acc src s = .ok sv s1 →
      Quiet s s1 ∧ exec (mk src dst) s = retire (body sv dst s1) := fun load =>
    ⟨(quiet_loadOp lawful src s).of_ok load, by rw [run, load, Res.bind_ok]⟩
  refine ⟨(word src dst).trans (dopWord_eq code src dst), fun u load => ?_, fun sv s1 load => ?_, fun ref => ?_⟩
  · exact (run src dst s).trans (by rw [load]; rfl)
  · obtain ⟨quiet, rest⟩ := source load
    exact clauses quiet rest
  · obtain ⟨sv, s1, load⟩ := loadOp_ref lawful ref src
    obtain ⟨quiet, rest⟩ := source load
    exact ⟨sv, s1, load, completes quiet rest (ref.of_world quiet.toWorld)⟩

theorem moves (run : ∀ src dst s, exec (mk src dst) s = retire (moveOp acc src dst s)) :
    Moves acc (BitVec.ofNat 16 (code * 4096)) mk moveFlags :=
  afterSource lawful word run
    (fun quiet rest => storeClauses lawful quiet (by rwa [quiet.cc] at rest))
    (fun quiet rest => storeCompletes lawful quiet (by rwa [quiet.cc] at rest))

theorem combines {f : BitVec w → Cc → BitVec w → BitVec w × Cc} {res : BitVec w → BitVec w → BitVec w}
    {flags : Cc → BitVec w → BitVec w → Cc} (value : ∀ sv k dv, f sv k dv = (res sv dv, flags k sv dv))
    (run : ∀ src dst s, exec (mk src dst) s = retire (combineOp acc f src dst s)) :
    Combines acc (BitVec.ofNat 16 (code * 4096)) mk res flags :=
  afterSource lawful word run
    (fun quiet rest => modifyClauses lawful quiet (value _ _) rest)
    (fun quiet rest => modifyCompletes lawful quiet (value _ _) rest)

theorem compares {f : BitVec w → Cc → BitVec w → Cc} {flags : Cc → BitVec w → BitVec w → Cc}
    (value : ∀ sv k dv, f sv k dv = flags k sv dv)
    (run : ∀ src dst s, exec (mk src dst) s = retire (compareOp acc f src dst s)) :
    Compares acc (BitVec.ofNat 16 (code * 4096)) mk flags :=
  afterSource lawful word run
    (fun quiet rest => probeClauses lawful quiet (value _ _) rest)
    (fun quiet rest => probeCompletes lawful quiet (value _ _) rest)

end

end

end Sys2Proof.Claims
end

section
/-! # The double-operand instructions: the statements about spec/41_double_operand.md -/

namespace Sys2Proof.Claims

open Sys2Proof Sys2Proof.Machine

/-- Settles O32: MOV and MOVB load a source and store it; a write through MOVB's access is, by definition, one of the
three that the statement names. -/
theorem moveInstructions : Obligations.MoveInstructions :=
  ⟨moves (code := 0x1) lawful_wordAccess (fun _ _ => rfl) fun _ _ _ => rfl,
    moves (code := 0x9) lawful_signedByteAccess (fun _ _ => rfl) fun _ _ _ => rfl,
    fun _ _ => ⟨fun _ => rfl, fun _ => rfl, fun _ => rfl⟩⟩

/-- Settles O33: the four load a source and probe their destination. -/
theorem compareAndBitTest : Obligations.CompareAndBitTest :=
  ⟨compares (code := 0x2) lawful_wordAccess (fun _ _ => rfl) (fun _ _ _ => rfl) fun _ _ _ => rfl,
    compares (code := 0xA) lawful_byteAccess (fun _ _ => rfl) (fun _ _ _ => rfl) fun _ _ _ => rfl,
    compares (code := 0x3) lawful_wordAccess (fun _ _ => rfl) (fun _ _ _ => rfl) fun _ _ _ => rfl,
    compares (code := 0xB) lawful_byteAccess (fun _ _ => rfl) (fun _ _ _ => rfl) fun _ _ _ => rfl⟩

/-- Settles O34: the first four load a source and modify their destination; XOR reads its register in place of a source,
so its destination is resolved in the state which that read leaves. -/
theorem bitClearSetXor : Obligations.BitClearSetXor := by
  refine ⟨?bic, ?bicb, ?bis, ?bisb, fun r d s => ?xor⟩
  case bic => exact combines (code := 0x4) lawful_wordAccess (fun _ _ => rfl) (fun _ _ _ => rfl) fun _ _ _ => rfl
  case bicb => exact combines (code := 0xC) lawful_byteAccess (fun _ _ => rfl) (fun _ _ _ => rfl) fun _ _ _ => rfl
  case bis => exact combines (code := 0x5) lawful_wordAccess (fun _ _ => rfl) (fun _ _ _ => rfl) fun _ _ _ => rfl
  case bisb => exact combines (code := 0xD) lawful_byteAccess (fun _ _ => rfl) (fun _ _ _ => rfl) fun _ _ _ => rfl
  case xor =>
    have run : exec (.xor r d) s = retire (modifyOp wordAccess (xorOp (s.reg r)) d (s.noteRead r)) := rfl
    have quiet : Quiet s (s.noteRead r) := Quiet.noteRead s r
    exact ⟨rddWord_eq 0x3C r d, modifyClauses lawful_wordAccess quiet (fun _ => rfl) run,
      modifyCompletes lawful_wordAccess quiet (fun _ => rfl) run⟩

/-- Settles O35: ADD and SUB load a source and modify their destination. -/
theorem addSubtract : Obligations.AddSubtract :=
  ⟨combines (code := 0x6) lawful_wordAccess (fun _ _ => rfl) addOp_eq fun _ _ _ => rfl,
    combines (code := 0xE) lawful_wordAccess (fun _ _ => rfl) (fun _ _ _ => rfl) fun _ _ _ => rfl⟩

end Sys2Proof.Claims
end

section
/-! # What a store touches

The register and the bytes that a write to a resolved operand can change (spec/40_addressing.md R146). -/

namespace Sys2Proof.Machine

/-- An operand at an address that a bus read has given is not a register. -/
theorem reads_of_address {r : Res Word} {address : Word → State → Word} {after : Word → State → State} {op : Operand}
    {t : State} (h : (r.bind fun p u => .ok (.mem (address p u)) (after p u)) = .ok op t) : op.reads = [] := by
  obtain ⟨_, _, _, last⟩ := Res.bind_eq_ok.1 h
  cases last
  rfl

/-- An operand is a register exactly in register mode, and then it is the one written. -/
theorem reads_of_resolve {sz : Size} {o : Opnd} {op : Operand} {s t : State} (h : resolve sz o s = .ok op t) :
    op.reads = writtenBy o := by
  obtain ⟨m, r⟩ := o
  cases m
  case register | deferred | autoDec => cases h; rfl
  case autoInc =>
    rw [resolve_autoInc] at h
    cases h
    split <;> rfl
  case autoIncDeferred =>
    by_cases isPc : r = PC
    · subst isPc
      exact reads_of_address h
    · rw [resolve_autoIncDeferred_of_ne sz s isPc] at h
      exact reads_of_address h
  case autoDecDeferred | indexed => exact reads_of_address h
  case indexedDeferred =>
    obtain ⟨_, _, _, pointer⟩ := Res.bind_eq_ok.1 h
    exact reads_of_address pointer

/-- Whatever the first part of a sequence and the rest of it keep, the sequence keeps. -/
theorem Res.bind_keeps {α β γ : Type} (g : State → γ) {s : State} {r : Res α} {f : α → State → Res β}
    (first : g r.state = g s) (rest : ∀ a t, r = .ok a t → g (f a t).state = g t) : g (r.bind f).state = g s := by
  cases r with
  | ok a t => exact (rest a t rfl).trans first
  | err t => exact first

/-- A byte write changes memory at its address, and beside it at most the history. -/
theorem writeByte_keeps {γ : Type} (g : State → γ) (a : Word) (v : Byte) (s : State)
    (emits : ∀ t e, g (t.emit e) = g t) (stores : g { s with mem := s.mem.write a.toNat v } = g s) :
    g (writeByte a v s).state = g s := by
  unfold writeByte
  split
  · exact stores
  · rfl
  · exact Res.bind_keeps g (by rw [deviceCall_state, emits]) fun _ _ _ => rfl

/-- A word write changes memory where ODD_WORD_POLICY places it, and beside it at most the history. -/
theorem writeWord_keeps {γ : Type} (g : State → γ) (a v : Word) (s : State)
    (emits : ∀ t e, g (t.emit e) = g t)
    (stores : ∀ b, wordAddr s.params a = some b → g { s with mem := s.mem.writeWord b v } = g s) :
    g (writeWord a v s).state = g s := by
  unfold writeWord
  split
  · rfl
  · rename_i b address
    split
    · exact stores b address
    · rfl
    · exact Res.bind_keeps g (by rw [deviceCall_state, emits]) fun _ _ _ => rfl

/-- A byte write leaves every byte but the one it stores. -/
theorem read_of_writeByte {a : Word} {x : Nat} {s : State} (other : x ∉ storedBytes s.params .byte (.mem a))
    (v : Byte) : (writeByte a v s).state.mem.read x = s.mem.read x :=
  writeByte_keeps (fun t => t.mem.read x) a v s (fun _ _ => rfl)
    (Memory.read_write_ne _ v (List.ne_of_not_mem_cons other))

/-- A word write leaves every byte but the two it stores. -/
theorem read_of_writeWord {a : Word} {x : Nat} {s : State} (other : x ∉ storedBytes s.params .word (.mem a))
    (v : Word) : (writeWord a v s).state.mem.read x = s.mem.read x := by
  refine writeWord_keeps (fun t => t.mem.read x) a v s (fun _ _ => rfl) fun b address => ?_
  have stored : storedBytes s.params .word (.mem a) = [b.toNat, b.toNat + 1] := by
    simp only [storedBytes, Operand.address?, address]
  simp only [stored, List.mem_cons, List.not_mem_nil, or_false, not_or] at other
  obtain ⟨notLow, notHigh⟩ := other
  exact (Memory.read_writeWord _ _ _ _).trans (by rw [if_neg notLow, if_neg notHigh])

end Sys2Proof.Machine

namespace Sys2Proof.Claims

open Sys2Proof Sys2Proof.Machine

theorem KeepsRegs.of_eq {s t : State} (regs : t.regs = s.regs) (written : t.written = s.written) (changed : List Reg) :
    KeepsRegs s t changed := fun r _ => ⟨by simp only [State.reg, regs], by rw [written]⟩

theorem KeepsRegs.setReg (s : State) (r : Reg) (v : Word) : KeepsRegs s (s.setReg r v) [r] := fun q other =>
  (s.setReg_spec r v).2.2 q (List.ne_of_not_mem_cons other)

theorem KeepsRegs.setRegLow (s : State) (r : Reg) (b : Byte) : KeepsRegs s (s.setRegLow r b) [r] := fun _ other =>
  ⟨s.reg_setRegLow_ne b (List.ne_of_not_mem_cons other), rfl⟩

theorem KeepsRegs.writeByte (a : Word) (v : Byte) (s : State) (changed : List Reg) :
    KeepsRegs s (writeByte a v s).state changed :=
  .of_eq (writeByte_keeps State.regs a v s (fun _ _ => rfl) rfl)
    (writeByte_keeps State.written a v s (fun _ _ => rfl) rfl) changed

theorem KeepsRegs.writeWord (a v : Word) (s : State) (changed : List Reg) :
    KeepsRegs s (writeWord a v s).state changed :=
  .of_eq (writeWord_regs a v s).1 (writeWord_regs a v s).2 changed

/-- What the three kinds of access have in common here: a write changes the register that it names, or the bytes that it
stores. -/
structure WritesOnly {w : Nat} (acc : Access w) : Prop where
  regs : ∀ op v s, KeepsRegs s (acc.write op v s).state op.reads
  mem : ∀ op v s x, x ∉ storedBytes s.params acc.size op → (acc.write op v s).state.mem.read x = s.mem.read x

theorem writesOnly_wordAccess : WritesOnly wordAccess where
  regs := fun op v s => by
    cases op with
    | reg r => exact .setReg s r v
    | mem a | stream a => exact .writeWord a v s _
  mem := fun op v s x other => by
    cases op with
    | reg r => rfl
    | mem a | stream a => exact read_of_writeWord other v

theorem writesOnly_byteAccess : WritesOnly byteAccess where
  regs := fun op v s => by
    cases op with
    | reg r => exact .setRegLow s r v
    | mem a | stream a => exact .writeByte a v s _
  mem := fun op v s x other => by
    cases op with
    | reg r => rfl
    | mem a | stream a => exact read_of_writeByte other v

theorem writesOnly_signedByteAccess : WritesOnly signedByteAccess where
  regs := fun op v s => by
    cases op with
    | reg r => exact .setReg s r _
    | mem a | stream a => exact .writeByte a v s _
  mem := fun op v s x other => by
    cases op with
    | reg r => rfl
    | mem a | stream a => exact read_of_writeByte other v

end Sys2Proof.Claims
end

section
/-! # The PSW bits that an instruction's flags spare -/

namespace Sys2Proof.Machine

theorem pswOf_and_0xF1 (pri : BitVec 3) (t : BitVec 1) (cc : BitVec 4) :
    pswOf pri t cc &&& 0xF1#8 = pswOf pri t ((BitVec.ofBool (cc.getLsbD 0)).setWidth 4) := by
  have mask : (0xF1#8) = pswOf (BitVec.allOnes 3) (BitVec.allOnes 1) 1#4 := rfl
  rw [mask, pswOf_and, BitVec.and_allOnes, BitVec.and_allOnes, BitVec.and_one_eq_setWidth_ofBool_getLsbD]

theorem Cc.toBits_getLsbD_zero (k : Cc) : k.toBits.getLsbD 0 = k.c := by
  obtain ⟨n, z, v, c⟩ := k
  revert n z v c
  decide

/-- Condition codes with the carry of the PSW leave C (spec/10_state.md R36). -/
theorem withCc_and_0xF1 (p : Byte) {k : Cc} (carry : k.c = (ccOf p).c) : withCc p k &&& 0xF1#8 = p &&& 0xF1#8 := by
  have carryBit : k.toBits.getLsbD 0 = (p.extractLsb' 0 4).getLsbD 0 := by
    rw [Cc.toBits_getLsbD_zero, carry, BitVec.getLsbD_extractLsb']
    rfl
  have fields := pswOf_and_0xF1 (p.extractLsb' 5 3) (p.extractLsb' 4 1) (p.extractLsb' 0 4)
  rw [pswOf_fields] at fields
  rw [withCc, append_eq_pswOf, pswOf_and_0xF1, carryBit, fields]

end Sys2Proof.Machine

namespace Sys2Proof.Claims

open Sys2Proof Sys2Proof.Machine

/-- Flags computed from the flags before leave the PSW bits of the mask. -/
def Spares (mask : Byte) (flags : Cc → Cc) : Prop := ∀ p : Byte, withCc p (flags (ccOf p)) &&& mask = p &&& mask

theorem spares_0xF0 (flags : Cc → Cc) : Spares 0xF0#8 flags := fun p => withCc_and_0xF0 p _

theorem spares_0xF1 {flags : Cc → Cc} (carry : ∀ k, (flags k).c = k.c) : Spares 0xF1#8 flags := fun p =>
  withCc_and_0xF1 p (carry _)

end Sys2Proof.Claims
end

section
/-! # The frame of an operand instruction

What resolving, reading and writing operands leaves alone, up to the trap in which the instruction may end
(spec/40_addressing.md R143, R146). -/

namespace Sys2Proof.Claims

open Sys2Proof Sys2Proof.Machine

/-- Nothing changes but the registers of the list, the PSW bits outside the mask, memory, the mark of a read and, where
a region is a device, the history. -/
structure Frame (changed : List Reg) (mask : Byte) (s t : State) : Prop extends Silent s t where
  waiting : t.waiting = s.waiting
  halted : t.halted = s.halted
  sameFault : t.doubleFault = s.doubleFault
  psw : KeepsPsw s t mask
  regs : KeepsRegs s t changed

section
variable {changed : List Reg} {mask : Byte} {s t u : State}

theorem Frame.of_quiet (quiet : Quiet s t) (silent : Silent s t) (regs : KeepsRegs s t changed) :
    Frame changed mask s t :=
  ⟨silent, quiet.waiting, quiet.halted, quiet.sameFault, .of_quiet quiet, regs⟩

theorem Frame.trans (h : Frame changed mask s t) (k : Frame changed mask t u) : Frame changed mask s u where
  toSilent := h.toSilent.trans k.toSilent
  waiting := k.waiting.trans h.waiting
  halted := k.halted.trans h.halted
  sameFault := k.sameFault.trans h.sameFault
  psw := h.psw.trans k.psw
  regs := fun r other =>
    ⟨(k.regs r other).1.trans (h.regs r other).1, (k.regs r other).2.trans (h.regs r other).2⟩

theorem Frame.mono {more : List Reg} (h : Frame changed mask s t) (within : changed ⊆ more) : Frame more mask s t :=
  { h with regs := fun r other => h.regs r fun inChanged => other (within inChanged) }

theorem Frame.bind {α β : Type} {r : Res α} {f : α → State → Res β} (first : Frame changed mask s r.state)
    (rest : ∀ a t, r = .ok a t → Frame changed mask t (f a t).state) : Frame changed mask s (r.bind f).state := by
  cases r with
  | ok a t => exact first.trans (rest a t rfl)
  | err t => exact first

theorem Frame.rest (h : Frame changed mask s t) : KeepsRest s t :=
  ⟨h.ppc, h.tstart, h.pfail, h.sameFault, h.resetFault, h.lines, h.params⟩

theorem Frame.execution {i : Instr} (h : Frame changed mask s t) (notes : NotesOnly (registersRead i) s t) :
    KeepsExecution i s t :=
  ⟨h.waiting, h.halted, h.silent, notes⟩

theorem Frame.setPsw {p : Byte} (spares : p &&& mask = s.psw &&& mask) : Frame changed mask s (s.setPsw p) :=
  ⟨Silent.setPsw s p, rfl, rfl, rfl, spares, .of_eq rfl rfl _⟩

/-- The flags at the end, over the PSW of the state `t` in which they were computed. -/
theorem Frame.setCc {flags : Cc → Cc} (spares : Spares mask flags) (quiet : Quiet t s) :
    Frame changed mask s (s.setCc (flags t.cc)) := by
  rw [← quiet.cc]
  exact .setPsw (spares s.psw)

end

theorem keepsRegs_of_resolved {o : Opnd} {s t : State} (h : Resolved o s t) : KeepsRegs s t (PC :: steppedBy o) := by
  intro r other
  obtain ⟨notPc, notStepped⟩ := List.ne_and_not_mem_of_not_mem_cons other
  exact ⟨h.regs r notStepped notPc, h.marks r notStepped notPc⟩

theorem frame_resolve (mask : Byte) (sz : Size) (o : Opnd) (s : State) :
    Frame (PC :: steppedBy o) mask s (resolve sz o s).state :=
  .of_quiet (quiet_resolve sz o s) (silent_resolve sz o s) (keepsRegs_of_resolved (resolved_resolve sz o s))

section
variable {w : Nat} {acc : Access w} (lawful : acc.Lawful) (still : acc.Still) (mask : Byte)
include lawful still

theorem frame_read (o : Opnd) (op : Operand) (s : State) : Frame (PC :: steppedBy o) mask s (acc.read op s).state :=
  .of_quiet (lawful.read o op s).quiet (still.read op s) (keepsRegs_of_resolved (lawful.read o op s))

theorem frame_write (writes : WritesOnly acc) (op : Operand) (v : BitVec w) (s : State) :
    Frame op.reads mask s (acc.write op v s).state :=
  .of_quiet (lawful.write op v s) (still.write op v s) (writes.regs op v s)

end

end Sys2Proof.Claims
end

section
/-! # The frame of a source and of a destination -/

namespace Sys2Proof.Claims

open Sys2Proof Sys2Proof.Machine

/-- Everything about an access that the frame of an instruction needs. -/
structure FrameLaws {w : Nat} (acc : Access w) : Prop where
  lawful : acc.Lawful
  still : acc.Still
  notes : acc.Notes
  writesOnly : WritesOnly acc

theorem frameLaws_wordAccess : FrameLaws wordAccess :=
  ⟨lawful_wordAccess, still_wordAccess, notes_wordAccess, writesOnly_wordAccess⟩

theorem frameLaws_byteAccess : FrameLaws byteAccess :=
  ⟨lawful_byteAccess, still_byteAccess, notes_byteAccess, writesOnly_byteAccess⟩

theorem frameLaws_signedByteAccess : FrameLaws signedByteAccess :=
  ⟨lawful_signedByteAccess, still_signedByteAccess, notes_signedByteAccess, writesOnly_signedByteAccess⟩

/-- What an operation that only reads its operand leaves alone. -/
structure ReadFrame (o : Opnd) (mask : Byte) (s t : State) : Prop where
  frame : Frame (PC :: steppedBy o) mask s t
  notes : NotesOnly (loadReads o) s t
  mem : t.mem = s.mem

/-- What an operation that writes its operand leaves alone, where the registers that it reads are `reads`. -/
structure WriteFrame {w : Nat} (acc : Access w) (o : Opnd) (reads : List Reg) (mask : Byte) (s t : State) : Prop where
  frame : Frame (PC :: (steppedBy o ++ writtenBy o)) mask s t
  notes : NotesOnly reads s t
  mem : ∀ x : Nat, (∀ op u, resolve acc.size o s = .ok op u → x ∉ storedBytes s.params acc.size op) →
    t.mem.read x = s.mem.read x

theorem stepped_subset (o : Opnd) : PC :: steppedBy o ⊆ PC :: (steppedBy o ++ writtenBy o) :=
  List.cons_subset_cons PC (List.subset_append_left _ _)

section
variable {w : Nat} {acc : Access w} (laws : FrameLaws acc) {mask : Byte} (o : Opnd) (s : State)
include laws

theorem loadOp_readFrame : ReadFrame o mask s (loadOp acc o s).state where
  frame := .bind (frame_resolve mask _ o s) fun op t _ => frame_read laws.lawful laws.still mask o op t
  notes := notesOnly_loadOp laws.notes o s
  mem := Res.bind_keeps State.mem (resolved_resolve _ o s).mem fun op t _ => (laws.lawful.read o op t).mem

theorem probeOp_readFrame {f : Cc → BitVec w → Cc} (spares : ∀ dv, Spares mask (f · dv)) :
    ReadFrame o mask s (probeOp acc f o s).state where
  frame := .bind (frame_resolve mask _ o s) fun op t _ =>
    .bind (frame_read laws.lawful laws.still mask o op t) fun dv u _ =>
      Frame.setCc (flags := (f · dv)) (spares dv) (Quiet.refl u)
  notes := notesOnly_probeOp laws.notes laws.lawful f o s
  mem := Res.bind_keeps State.mem (resolved_resolve _ o s).mem fun op t _ =>
    Res.bind_keeps State.mem (laws.lawful.read o op t).mem fun _ _ _ => rfl

section
variable {o s} {op : Operand} {t u : State} (place : resolve acc.size o s = .ok op t)
include place

/-- A write to the operand that a resolution gave changes at most the register of the operand field. -/
theorem frame_write_resolved (v : BitVec w) (u : State) :
    Frame (PC :: (steppedBy o ++ writtenBy o)) mask u (acc.write op v u).state := by
  refine (frame_write laws.lawful laws.still mask laws.writesOnly op v u).mono ?_
  rw [reads_of_resolve place]
  exact List.subset_cons_of_subset PC (List.subset_append_right _ _)

/-- A write to the operand that a resolution gave leaves the bytes that it does not store. -/
theorem read_write_resolved {x : Nat} (after : Quiet s u)
    (other : ∀ op u, resolve acc.size o s = .ok op u → x ∉ storedBytes s.params acc.size op) (v : BitVec w) :
    (acc.write op v u).state.mem.read x = u.mem.read x :=
  laws.writesOnly.mem op v u x (after.params ▸ other op t place)

end

theorem storeOp_writeFrame (v : BitVec w) {flags : Cc → Cc} (spares : Spares mask flags) :
    WriteFrame acc o (storeReads o) mask s (storeOp acc v (flags s.cc) o s).state where
  frame := .bind ((frame_resolve mask _ o s).mono (stepped_subset o)) fun op t place =>
    .bind (frame_write_resolved laws place v t) fun _ _ write =>
      .setCc spares (((quiet_resolve _ o s).of_ok place).trans ((laws.lawful.write op v t).of_ok write))
  notes := notesOnly_storeOp laws.notes v _ o s
  mem := fun x other =>
    Res.bind_keeps (·.mem.read x) (congrArg (·.read x) (resolved_resolve _ o s).mem) fun _ _ place =>
      Res.bind_keeps (·.mem.read x) (read_write_resolved laws place ((quiet_resolve _ o s).of_ok place) other v)
        fun _ _ _ => rfl

theorem modifyOp_writeFrame {f : Cc → BitVec w → BitVec w × Cc} (spares : ∀ dv, Spares mask fun k => (f k dv).2) :
    WriteFrame acc o (loadReads o) mask s (modifyOp acc f o s).state where
  frame := .bind ((frame_resolve mask _ o s).mono (stepped_subset o)) fun op t place =>
    .bind ((frame_read laws.lawful laws.still mask o op t).mono (stepped_subset o)) fun dv u _ =>
      .bind (frame_write_resolved laws place _ u) fun _ _ write =>
        Frame.setCc (flags := fun k => (f k dv).2) (spares dv) ((laws.lawful.write op _ u).of_ok write)
  notes := notesOnly_modifyOp laws.notes laws.lawful f o s
  mem := fun x other =>
    Res.bind_keeps (·.mem.read x) (congrArg (·.read x) (resolved_resolve _ o s).mem) fun op t place =>
      Res.bind_keeps (·.mem.read x) (congrArg (·.read x) (laws.lawful.read o op t).mem) fun _ _ read =>
        Res.bind_keeps (·.mem.read x) (read_write_resolved laws place (laws.lawful.quiet_of_read place read) other _)
          fun _ _ _ => rfl

end

end Sys2Proof.Claims
end

section
/-! # The frame of an instruction with operands -/

namespace Sys2Proof.Machine

/-- MTPS leaves T, and PRI without the parameter that lets it write PRI (spec/42_single_operand.md R260). -/
theorem mtpsPsw_and_mask (writesPriority : Bool) (p sv : Byte) :
    let mask := if writesPriority then 0x10#8 else 0xF0#8
    mtpsPsw writesPriority p sv &&& mask = p &&& mask := by
  cases writesPriority with
  | false => exact mtpsPsw_false_and_0xF0 p sv
  | true => exact mtpsPsw_and_0x10 true p sv

end Sys2Proof.Machine

namespace Sys2Proof.Claims

open Sys2Proof Sys2Proof.Machine

/-- The end of an instruction adds to its state at most a BusError or a trace trap. -/
theorem endsFrom_retire {i : Instr} {s : State} {r : Res Unit} (run : exec i s = retire r) : EndsFrom i s r.state := by
  cases r with
  | err u => exact .inr (.inl run)
  | ok _ u =>
    rw [retire_ok] at run
    cases traced : u.tstart with
    | false => exact .inl (by rw [run, traceEnd_of_false traced]; rfl)
    | true => exact .inr (.inr (by rw [run, traceEnd_of_true traced]; rfl))

theorem readingFrame {mask : State → Byte} {mk : Opnd → Instr} {body : Opnd → State → Res Unit}
    (run : ∀ d s, exec (mk d) s = retire (body d s)) (noted : ∀ d, registersRead (mk d) = loadReads d)
    (keeps : ∀ d s, ReadFrame d (mask s) s (body d s).state) : ReadingFrame mask mk := by
  intro d s
  obtain ⟨frame, notes, mem⟩ := keeps d s
  exact ⟨_, endsFrom_retire (run d s), frame.rest, frame.execution (noted d ▸ notes), frame.psw, frame.regs, mem⟩

section
variable {w : Nat} {acc : Access w} (laws : FrameLaws acc) {mask : Byte} {mk : Opnd → Opnd → Instr}
include laws

/-- A source loaded, then a destination that is only read. -/
theorem comparingFrame {f : BitVec w → Cc → BitVec w → Cc}
    (run : ∀ src dst s, exec (mk src dst) s = retire (compareOp acc f src dst s))
    (noted : ∀ src dst, registersRead (mk src dst) = loadReads src ++ loadReads dst)
    (spares : ∀ sv dv, Spares mask (f sv · dv)) : ComparingFrame mask mk := by
  intro src dst s
  obtain ⟨loadFrame, loadNotes, loadMem⟩ := loadOp_readFrame laws (mask := mask) src s
  have probe (sv : BitVec w) (t : State) := probeOp_readFrame laws dst t (spares sv)
  have frame : Frame (PC :: (steppedBy src ++ steppedBy dst)) mask s (compareOp acc f src dst s).state :=
    .bind (loadFrame.mono (List.cons_subset_cons PC (List.subset_append_left _ _))) fun sv t _ =>
      (probe sv t).frame.mono (List.cons_subset_cons PC (List.subset_append_right _ _))
  have notes : NotesOnly (registersRead (mk src dst)) s (compareOp acc f src dst s).state :=
    noted src dst ▸ NotesOnly.bind (quiet_loadOp laws.lawful src s) loadNotes fun sv t _ => (probe sv t).notes
  exact ⟨_, endsFrom_retire (run src dst s), frame.rest, frame.execution notes, frame.psw, frame.regs,
    Res.bind_keeps State.mem loadMem fun sv t _ => (probe sv t).mem⟩

/-- A source loaded, then a destination that is written. -/
theorem combiningFrame {body : BitVec w → Opnd → State → Res Unit} {reads : Opnd → List Reg}
    (run : ∀ src dst s, exec (mk src dst) s = retire ((loadOp acc src s).bind fun sv t => body sv dst t))
    (noted : ∀ src dst, registersRead (mk src dst) = loadReads src ++ reads dst)
    (keeps : ∀ sv dst t, WriteFrame acc dst (reads dst) mask t (body sv dst t).state) :
    CombiningFrame acc mask mk := by
  intro src dst s
  obtain ⟨loadFrame, loadNotes, loadMem⟩ := loadOp_readFrame laws (mask := mask) src s
  have quiet := quiet_loadOp laws.lawful src s
  have frame : Frame (PC :: (steppedBy src ++ (steppedBy dst ++ writtenBy dst))) mask s
      ((loadOp acc src s).bind fun sv t => body sv dst t).state :=
    .bind (loadFrame.mono (List.cons_subset_cons PC (List.subset_append_left _ _))) fun sv t _ =>
      (keeps sv dst t).frame.mono (List.cons_subset_cons PC (List.subset_append_right _ _))
  have notes := NotesOnly.bind quiet loadNotes fun sv t _ => (keeps sv dst t).notes
  refine ⟨_, endsFrom_retire (run src dst s), frame.rest, frame.execution (noted src dst ▸ notes), frame.psw,
    List.append_assoc _ _ _ ▸ frame.regs, fun x other => ?_⟩
  refine Res.bind_keeps (·.mem.read x) (congrArg (·.read x) loadMem) fun sv t load => ?_
  refine (keeps sv dst t).mem x fun op u place => ?_
  rw [(quiet.of_ok load).params]
  exact other sv t op u load place

theorem movingFrame (run : ∀ src dst s, exec (mk src dst) s = retire (moveOp acc src dst s))
    (noted : ∀ src dst, registersRead (mk src dst) = loadReads src ++ storeReads dst) : CombiningFrame acc 0xF1#8 mk :=
  combiningFrame laws run noted fun sv dst t =>
    storeOp_writeFrame laws dst t sv (flags := (moveFlags · sv)) (spares_0xF1 fun _ => rfl)

theorem modifyingFrame {f : BitVec w → Cc → BitVec w → BitVec w × Cc}
    (run : ∀ src dst s, exec (mk src dst) s = retire (combineOp acc f src dst s))
    (noted : ∀ src dst, registersRead (mk src dst) = loadReads src ++ loadReads dst)
    (spares : ∀ sv dv, Spares mask fun k => (f sv k dv).2) : CombiningFrame acc mask mk :=
  combiningFrame laws run noted fun sv dst t => modifyOp_writeFrame laws dst t (spares sv)

end

theorem ReadFrame.setPsw {o : Opnd} {mask p : Byte} {s t : State} (h : ReadFrame o mask s t)
    (spares : p &&& mask = t.psw &&& mask) : ReadFrame o mask s (t.setPsw p) :=
  ⟨h.frame.trans (.setPsw spares), h.notes, h.mem⟩

theorem mtps_readFrame (d : Opnd) (s : State) :
    ReadFrame d (if s.params.mtpsWritesPriority then 0x10#8 else 0xF0#8) s
      ((loadOp byteAccess d s).bind fun sv t =>
        .ok () (t.setPsw (mtpsPsw t.params.mtpsWritesPriority t.psw sv))).state := by
  have load := loadOp_readFrame frameLaws_byteAccess d s
    (mask := if s.params.mtpsWritesPriority then 0x10#8 else 0xF0#8)
  have quiet := quiet_loadOp lawful_byteAccess d s
  cases loaded : loadOp byteAccess d s with
  | err t => rwa [loaded] at load
  | ok sv t =>
    rw [loaded] at load quiet
    rw [← quiet.params] at load ⊢
    exact load.setPsw (mtpsPsw_and_mask _ _ _)

/-- Settles O51: CMP and BIT load a source and probe their destination, TST probes, and MTPS loads its operand and
writes the PSW. -/
theorem readOnlyOperandFrame : Obligations.ReadOnlyOperandFrame := by
  simp only [Obligations.ReadOnlyOperandFrame, List.forall_mem_cons, List.not_mem_nil, false_imp_iff, implies_true,
    and_true]
  refine ⟨⟨?cmp, ?cmpb⟩, ⟨?bit, ?bitb⟩, ⟨?tst, ?tstb⟩, ?mtps⟩
  case cmp =>
    exact comparingFrame frameLaws_wordAccess (fun _ _ _ => rfl) (fun _ _ => rfl) fun _ _ => spares_0xF0 _
  case cmpb =>
    exact comparingFrame frameLaws_byteAccess (fun _ _ _ => rfl) (fun _ _ => rfl) fun _ _ => spares_0xF0 _
  case bit =>
    exact comparingFrame frameLaws_wordAccess (fun _ _ _ => rfl) (fun _ _ => rfl) fun _ _ => spares_0xF1 fun _ => rfl
  case bitb =>
    exact comparingFrame frameLaws_byteAccess (fun _ _ _ => rfl) (fun _ _ => rfl) fun _ _ => spares_0xF1 fun _ => rfl
  case tst =>
    exact readingFrame (fun _ _ => rfl) (fun _ => rfl) fun d s =>
      probeOp_readFrame frameLaws_wordAccess d s fun _ => spares_0xF0 _
  case tstb =>
    exact readingFrame (fun _ _ => rfl) (fun _ => rfl) fun d s =>
      probeOp_readFrame frameLaws_byteAccess d s fun _ => spares_0xF0 _
  case mtps => exact readingFrame (fun _ _ => rfl) (fun _ => rfl) mtps_readFrame

/-- Settles O50: MOV loads a source and stores it, the others load a source and modify their destination. -/
theorem doubleOperandFrame : Obligations.DoubleOperandFrame := by
  simp only [Obligations.DoubleOperandFrame, List.forall_mem_cons, List.not_mem_nil, false_imp_iff, implies_true,
    and_true]
  refine ⟨⟨?mov, ?bic, ?bis⟩, ⟨?add, ?sub⟩, ?movb, ?bicb, ?bisb⟩
  case mov => exact movingFrame frameLaws_wordAccess (fun _ _ _ => rfl) fun _ _ => rfl
  case bic | bis =>
    exact modifyingFrame frameLaws_wordAccess (fun _ _ _ => rfl) (fun _ _ => rfl) fun _ _ => spares_0xF1 fun _ => rfl
  case add | sub =>
    exact modifyingFrame frameLaws_wordAccess (fun _ _ _ => rfl) (fun _ _ => rfl) fun _ _ => spares_0xF0 _
  case movb =>
    -- MOVB's access and the statement's resolve and read alike, and its register write is not among the bytes stored.
    have signed : CombiningFrame signedByteAccess 0xF1#8 .movb :=
      movingFrame frameLaws_signedByteAccess (fun _ _ _ => rfl) fun _ _ => rfl
    exact signed
  case bicb | bisb =>
    exact modifyingFrame frameLaws_byteAccess (fun _ _ _ => rfl) (fun _ _ => rfl) fun _ _ => spares_0xF1 fun _ => rfl

end Sys2Proof.Claims
end

section
/-! # The single-operand instructions: shapes and encodings (spec/42_single_operand.md)

What `storeClauses`, `modifyClauses` and `probeClauses` say of an instruction, said of a format SOP instruction as a
whole. -/

namespace Sys2Proof.Claims

open Sys2Proof Sys2Proof.Machine

theorem sopWord_eq (code : Nat) (d : Opnd) : sopWord code d = BitVec.ofNat 16 (code * 64) + fieldWord d := by
  rw [fieldWord_eq, ← BitVec.ofNat_add]
  rfl

section
variable {w : Nat} {acc : Access w} (lawful : acc.Lawful) {code : Nat} {mk : Opnd → Instr}
  (word : ∀ d, encode (mk d) = sopWord code d)
include lawful word

theorem stores {v : State → BitVec w} {flags : State → Cc}
    (run : ∀ d s, exec (mk d) s = retire (storeOp acc (v s) (flags s) d s)) :
    Stores acc (BitVec.ofNat 16 (code * 64)) mk v flags := fun d s =>
  ⟨(word d).trans (sopWord_eq code d), storeClauses lawful (Quiet.refl s) (run d s),
    storeCompletes lawful (Quiet.refl s) (run d s)⟩

theorem modifies {f : State → Cc → BitVec w → BitVec w × Cc} {res : State → BitVec w → BitVec w}
    {flags : State → BitVec w → Cc} (run : ∀ d s, exec (mk d) s = retire (modifyOp acc (f s) d s))
    (value : ∀ s dv, f s s.cc dv = (res s dv, flags s dv)) :
    Modifies acc (BitVec.ofNat 16 (code * 64)) mk res flags := fun d s =>
  ⟨(word d).trans (sopWord_eq code d), modifyClauses lawful (Quiet.refl s) (value s) (run d s),
    modifyCompletes lawful (Quiet.refl s) (value s) (run d s)⟩

theorem probes {f : Cc → BitVec w → Cc} {flags : State → BitVec w → Cc}
    (run : ∀ d s, exec (mk d) s = retire (probeOp acc f d s)) (value : ∀ s dv, f s.cc dv = flags s dv) :
    Probes acc (BitVec.ofNat 16 (code * 64)) mk flags := fun d s =>
  ⟨(word d).trans (sopWord_eq code d), probeClauses lawful (Quiet.refl s) (value s) (run d s),
    probeCompletes lawful (Quiet.refl s) (value s) (run d s)⟩

end

/-- Settles O37: the four store a value of the state they begin in; a write through MFPS's access is, by definition, one
of the three that the statement names. -/
theorem clearExtendStatus : Obligations.ClearExtendStatus :=
  ⟨stores (code := 0o0050) lawful_wordAccess (fun _ => rfl) fun _ _ => rfl,
    stores (code := 0o1050) lawful_byteAccess (fun _ => rfl) fun _ _ => rfl,
    stores (code := 0o0067) lawful_wordAccess (fun _ => rfl) fun _ _ => rfl,
    stores (code := 0o1067) lawful_signedByteAccess (fun _ => rfl) fun _ _ => rfl,
    fun _ _ => ⟨fun _ => rfl, fun _ => rfl, fun _ => rfl⟩⟩

/-- Settles O38: the six modify their destination by the formulas of the statement, at width 16 or 8. -/
theorem complementIncrementDecrement : Obligations.ComplementIncrementDecrement :=
  ⟨modifies (code := 0o0051) lawful_wordAccess (fun _ => rfl) (fun _ _ => rfl) fun _ _ => rfl,
    modifies (code := 0o1051) lawful_byteAccess (fun _ => rfl) (fun _ _ => rfl) fun _ _ => rfl,
    modifies (code := 0o0052) lawful_wordAccess (fun _ => rfl) (fun _ _ => rfl) fun _ _ => rfl,
    modifies (code := 0o1052) lawful_byteAccess (fun _ => rfl) (fun _ _ => rfl) fun _ _ => rfl,
    modifies (code := 0o0053) lawful_wordAccess (fun _ => rfl) (fun _ _ => rfl) fun _ _ => rfl,
    modifies (code := 0o1053) lawful_byteAccess (fun _ => rfl) (fun _ _ => rfl) fun _ _ => rfl⟩

/-- Settles O39: the six modify their destination by the formulas of the statement, SBC's chosen by the parameter of the
state it begins in. -/
theorem negateAndCarry : Obligations.NegateAndCarry :=
  ⟨modifies (code := 0o0054) lawful_wordAccess (fun _ => rfl) (fun _ _ => rfl) fun _ _ => rfl,
    modifies (code := 0o1054) lawful_byteAccess (fun _ => rfl) (fun _ _ => rfl) fun _ _ => rfl,
    modifies (code := 0o0055) lawful_wordAccess (fun _ => rfl) (fun _ _ => rfl) fun _ _ => rfl,
    modifies (code := 0o1055) lawful_byteAccess (fun _ => rfl) (fun _ _ => rfl) fun _ _ => rfl,
    modifies (f := fun s => sbcOp s.params.sbcVQuirk) (code := 0o0056) lawful_wordAccess (fun _ => rfl)
      (fun _ _ => rfl) fun _ _ => rfl,
    modifies (f := fun s => sbcOp s.params.sbcVQuirk) (code := 0o1056) lawful_byteAccess (fun _ => rfl)
      (fun _ _ => rfl) fun _ _ => rfl⟩

/-- Settles O40: TST and TSTB probe their destination. -/
theorem testInstructions : Obligations.TestInstructions :=
  ⟨probes (code := 0o0057) lawful_wordAccess (fun _ => rfl) (fun _ _ => rfl) fun _ _ => rfl,
    probes (code := 0o1057) lawful_byteAccess (fun _ => rfl) (fun _ _ => rfl) fun _ _ => rfl⟩

end Sys2Proof.Claims
end

section
/-! # Rotates, shifts and SWAB as concatenations (spec/42_single_operand.md R240 to R243, R250) -/

namespace Sys2Proof.Machine

section
variable {n : Nat} (b : Bool)

theorem getLsbD_ite_intMin (w i : Nat) :
    (if b then BitVec.intMin w else 0#w).getLsbD i = (decide (i + 1 = w) && b) := by
  cases b <;> simp [BitVec.getLsbD_intMin]

/-- A right shift by one place with `b` shifted in at the top. -/
theorem shiftRight_or_eq_append (x : BitVec (1 + n)) :
    x >>> 1 ||| (if b then BitVec.intMin (1 + n) else 0#(1 + n)) = BitVec.ofBool b ++ x.extractLsb' 1 n := by
  apply BitVec.eq_of_getLsbD_eq
  intro i hi
  rw [BitVec.getLsbD_or, BitVec.getLsbD_ushiftRight, getLsbD_ite_intMin, BitVec.getLsbD_append, BitVec.getLsbD_ofBool,
    BitVec.getLsbD_extractLsb']
  by_cases below : i < n
  · simp [below, show i + 1 ≠ 1 + n by omega]
  · have top : i = n := by omega
    simp [top, Nat.add_comm, BitVec.getLsbD_of_ge]

/-- A left shift by one place with `b` shifted in at the bottom. -/
theorem shiftLeft_or_eq_append (x : BitVec (n + 1)) :
    x <<< 1 ||| (if b then 1#(n + 1) else 0#(n + 1)) = x.extractLsb' 0 n ++ BitVec.ofBool b := by
  apply BitVec.eq_of_getLsbD_eq
  intro i hi
  have bottom : (if b then 1#(n + 1) else 0#(n + 1)).getLsbD i = (decide (i = 0) && b) := by
    cases b <;> simp
  rw [BitVec.getLsbD_or, BitVec.getLsbD_shiftLeft, bottom, BitVec.getLsbD_append, BitVec.getLsbD_ofBool,
    BitVec.getLsbD_extractLsb']
  cases i with
  | zero => simp
  | succ j => simp [hi, show j < n by omega]

end

/-- An arithmetic right shift shifts the sign in. -/
theorem sshiftRight_one_eq {w : Nat} (x : BitVec w) :
    x.sshiftRight 1 = x >>> 1 ||| (if x.msb then BitVec.intMin w else 0#w) := by
  apply BitVec.eq_of_getLsbD_eq
  intro i hi
  have inRange : ¬ w ≤ i := Nat.not_le.2 hi
  rw [BitVec.getLsbD_sshiftRight, BitVec.getLsbD_or, BitVec.getLsbD_ushiftRight, getLsbD_ite_intMin]
  by_cases below : 1 + i < w
  · simp [below, inRange, show i + 1 ≠ w by omega]
  · simp [below, inRange, show i + 1 = w by omega, BitVec.getLsbD_of_ge x (1 + i) (by omega)]

end Sys2Proof.Machine

namespace Sys2Proof.Claims

open Sys2Proof Sys2Proof.Machine

section
variable {n : Nat} (k : Cc)

theorem rorOp_eq (dv : BitVec (1 + n)) :
    let t := BitVec.ofBool k.c ++ dv.extractLsb' 1 n
    rorOp k dv = (t, rotateFlags t (dv.getLsbD 0)) := by
  dsimp only
  rw [← shiftRight_or_eq_append]
  rfl

theorem rolOp_eq (dv : BitVec (n + 1)) :
    let t := dv.extractLsb' 0 n ++ BitVec.ofBool k.c
    rolOp k dv = (t, rotateFlags t dv.msb) := by
  dsimp only
  rw [← shiftLeft_or_eq_append]
  rfl

/-- ASR is ROR with the sign for the carry. -/
theorem asrOp_eq (dv : BitVec (1 + n)) :
    let t := BitVec.ofBool dv.msb ++ dv.extractLsb' 1 n
    asrOp k dv = (t, rotateFlags t (dv.getLsbD 0)) := by
  dsimp only
  rw [← shiftRight_or_eq_append, ← sshiftRight_one_eq]
  rfl

/-- ASL is ROL with 0 for the carry. -/
theorem aslOp_eq (dv : BitVec (n + 1)) :
    let t := dv.extractLsb' 0 n ++ BitVec.ofBool false
    aslOp k dv = (t, rotateFlags t dv.msb) := by
  dsimp only
  rw [← shiftLeft_or_eq_append, if_neg Bool.false_ne_true, BitVec.or_zero]
  rfl

end

theorem swabOp_eq (k : Cc) (dv : Word) :
    swabOp k dv = (dv.extractLsb' 0 8 ++ dv.extractLsb' 8 8,
      { n := dv.getLsbD 15, z := dv.extractLsb' 8 8 == 0#8, v := false, c := false }) := by
  have sign : (hi8 dv).msb = dv.getLsbD 15 := BitVec.msb_extractLsb'
  simp only [swabOp, lo8_joinBytes, negFlag, sign]
  rfl

/-- Settles O41: the values of the nine, as concatenations. -/
theorem rotatesShiftsSwap : Obligations.RotatesShiftsSwap :=
  ⟨modifies (code := 0o0060) lawful_wordAccess (fun _ => rfl) (fun _ _ => rfl) fun s => rorOp_eq (n := 15) s.cc,
    modifies (code := 0o1060) lawful_byteAccess (fun _ => rfl) (fun _ _ => rfl) fun s => rorOp_eq (n := 7) s.cc,
    modifies (code := 0o0061) lawful_wordAccess (fun _ => rfl) (fun _ _ => rfl) fun s => rolOp_eq (n := 15) s.cc,
    modifies (code := 0o1061) lawful_byteAccess (fun _ => rfl) (fun _ _ => rfl) fun s => rolOp_eq (n := 7) s.cc,
    modifies (code := 0o0062) lawful_wordAccess (fun _ => rfl) (fun _ _ => rfl) fun s => asrOp_eq (n := 15) s.cc,
    modifies (code := 0o1062) lawful_byteAccess (fun _ => rfl) (fun _ _ => rfl) fun s => asrOp_eq (n := 7) s.cc,
    modifies (code := 0o0063) lawful_wordAccess (fun _ => rfl) (fun _ _ => rfl) fun s => aslOp_eq (n := 15) s.cc,
    modifies (code := 0o1063) lawful_byteAccess (fun _ => rfl) (fun _ _ => rfl) fun s => aslOp_eq (n := 7) s.cc,
    modifies (code := 0o0003) lawful_wordAccess (fun _ => rfl) (fun _ _ => rfl) fun s => swabOp_eq s.cc⟩

end Sys2Proof.Claims
end

section
/-! # MTPS (spec/42_single_operand.md R260) -/

namespace Sys2Proof.Machine

theorem pswOf_or (pri pri' : BitVec 3) (t t' : BitVec 1) (cc cc' : BitVec 4) :
    pswOf pri t cc ||| pswOf pri' t' cc' = pswOf (pri ||| pri') (t ||| t') (cc ||| cc') := by
  unfold pswOf
  rw [BitVec.or_append, BitVec.or_append]

theorem and_0xE0_eq (p : Byte) : p &&& 0xE0#8 = pswOf (p.extractLsb' 5 3) 0#1 0#4 := by
  have mask : (0xE0#8) = pswOf (BitVec.allOnes 3) 0#1 0#4 := rfl
  conv_lhs => rw [← pswOf_fields p, mask, pswOf_and, BitVec.and_allOnes, BitVec.and_zero, BitVec.and_zero]

theorem and_0x0F_eq (p : Byte) : p &&& 0x0F#8 = pswOf 0#3 0#1 (p.extractLsb' 0 4) := by
  have mask : (0x0F#8) = pswOf 0#3 0#1 (BitVec.allOnes 4) := rfl
  conv_lhs => rw [← pswOf_fields p, mask, pswOf_and, BitVec.and_allOnes, BitVec.and_zero, BitVec.and_zero]

/-- The PSW after MTPS, field by field as masks: PRI of the byte or of the PSW, T of the PSW, the flags of the byte. -/
theorem mtpsPsw_eq (writesPriority : Bool) (p sv : Byte) :
    mtpsPsw writesPriority p sv =
      ((if writesPriority then sv else p) &&& 0xE0#8) ||| (p &&& 0x10#8) ||| (sv &&& 0x0F#8) := by
  rw [and_0xE0_eq, and_0x10_eq, and_0x0F_eq, pswOf_or, pswOf_or]
  simp only [BitVec.or_zero, BitVec.zero_or]
  cases writesPriority <;> rfl

end Sys2Proof.Machine

namespace Sys2Proof.Claims

open Sys2Proof Sys2Proof.Machine

theorem traceEnd_eq_finished {s x : State} (latch : x.tstart = s.tstart) : traceEnd x = finished s x := by
  rw [traceEnd, finished, latch]
  rfl

/-- Settles O42: MTPS loads its operand, and the load leaves the PSW, the trace latch and the parameters that the new PSW
is made of. -/
theorem moveToStatus : Obligations.MoveToStatus := by
  intro src s new
  have run : exec (.mtps src) s = retire ((loadOp byteAccess src s).bind fun sv t =>
      .ok () (t.setPsw (mtpsPsw t.params.mtpsWritesPriority t.psw sv))) := rfl
  have completed : ∀ sv t, loadOp byteAccess src s = .ok sv t →
      exec (.mtps src) s = .next (finished s { t with psw := new sv }) := by
    intro sv t load
    have quiet : Quiet s t := (quiet_loadOp lawful_byteAccess src s).of_ok load
    have psw : mtpsPsw t.params.mtpsWritesPriority t.psw sv = new sv := by rw [quiet.params, quiet.psw, mtpsPsw_eq]
    rw [run, load, Res.bind_ok, retire_ok, psw]
    exact congrArg _ (traceEnd_eq_finished quiet.tstart)
  refine ⟨sopWord_eq 0o1064 src, fun u load => ?_, completed, fun ref => ?_⟩
  · exact run.trans (by rw [load]; rfl)
  · obtain ⟨sv, t, load⟩ := loadOp_ref lawful_byteAccess ref src
    exact ⟨sv, t, load, completed sv t load⟩

end Sys2Proof.Claims
end

section
/-! # A read's mark and the operand it precedes

XOR reads its register before it resolves its destination (spec/41_double_operand.md R188). The mark that such a read
leaves has no part in what a resolution answers. -/

namespace Sys2Proof.Machine

/-- A state without its mark UnwrittenRegister. -/
def State.unmarked (s : State) : State := { s with unwrittenRead := none }

/-- An answer whose state has lost its mark. -/
def Res.unmarked {α : Type} : Res α → Res α
  | .ok a s => .ok a s.unmarked
  | .err s => .err s.unmarked

/-- An operation answers alike, up to the mark, in states that are alike up to the mark. -/
def IgnoresMark {α : Type} (f : State → Res α) : Prop :=
  ∀ s t : State, s.unmarked = t.unmarked → (f s).unmarked = (f t).unmarked

theorem State.unmarked_noteRead (s : State) (r : Reg) : (s.noteRead r).unmarked = s.unmarked := rfl

section
variable {s t : State} (alike : s.unmarked = t.unmarked)
include alike

theorem reg_of_unmarked (r : Reg) : s.reg r = t.reg r := by
  have regs : s.unmarked.regs = t.unmarked.regs := congrArg State.regs alike
  exact congrArg (·[r]) regs

theorem unmarked_setReg (r : Reg) (v : Word) : (s.setReg r v).unmarked = (t.setReg r v).unmarked :=
  congrArg (State.setReg · r v) alike

end

section
variable {α β : Type}

theorem Res.unmarked_bind {r r' : Res α} {f : α → State → Res β} (first : r.unmarked = r'.unmarked)
    (rest : ∀ a, IgnoresMark (f a)) : (r.bind f).unmarked = (r'.bind f).unmarked := by
  cases r with
  | ok a s =>
    cases r' with
    | ok b t =>
      obtain ⟨rfl, alike⟩ := Res.ok.inj first
      exact rest a s t alike
    | err t => cases first
  | err s =>
    cases r' with
    | ok b t => cases first
    | err t => exact congrArg Res.err (Res.err.inj first)

/-- Of two answers that are alike up to the mark either both complete, with the same value, or none does. -/
theorem Res.ok_of_unmarked {r r' : Res α} {a : α} {s : State} (alike : r.unmarked = r'.unmarked) (ok : r = .ok a s) :
    ∃ t, r' = .ok a t := by
  subst ok
  cases r' with
  | ok b t =>
    obtain ⟨rfl, _⟩ := Res.ok.inj alike
    exact ⟨t, rfl⟩
  | err t => cases alike

end

theorem ignoresMark_readWord (a : Word) : IgnoresMark (readWord a) := by
  have same : ∀ s : State, (readWord a s).unmarked = (readWord a s.unmarked).unmarked := by
    intro s
    obtain ⟨ok, err⟩ := readWord_congr (a := a) (s := s) (c := s.unmarked) rfl rfl rfl
    have only := readWord_only_events a s
    cases read : readWord a s with
    | ok w u =>
      rw [read] at only
      rw [ok w u read, show u = { s with events := u.events } from only]
      rfl
    | err u =>
      rw [read] at only
      rw [err u read, show u = { s with events := u.events } from only]
      rfl
  intro s t alike
  rw [same s, same t, alike]

theorem ignoresMark_fetch : IgnoresMark fetch := by
  intro s t alike
  have pc : s.pc = t.pc := reg_of_unmarked alike PC
  unfold fetch
  rw [pc]
  refine Res.unmarked_bind (ignoresMark_readWord _ s t alike) fun w u v alike => ?_
  have pc : u.pc = v.pc := reg_of_unmarked alike PC
  rw [pc]
  exact congrArg (Res.ok w) (unmarked_setReg alike PC _)

/-- A resolution reads the register of its operand field, not its mark. -/
theorem ignoresMark_resolve (sz : Size) (o : Opnd) : IgnoresMark (resolve sz o) := by
  obtain ⟨m, r⟩ := o
  intro s t alike
  have base : s.reg r = t.reg r := reg_of_unmarked alike r
  have stepped (v : Word) : ((s.noteRead r).setReg r v).unmarked = ((t.noteRead r).setReg r v).unmarked :=
    unmarked_setReg (s := s.noteRead r) (t := t.noteRead r) alike r v
  have answer {α : Type} (a : α) : IgnoresMark fun u => .ok a u := fun _ _ alike => congrArg (Res.ok a) alike
  cases m
  case register => exact congrArg (Res.ok _) alike
  case deferred =>
    rw [resolve_deferred, resolve_deferred, base]
    exact congrArg (Res.ok _) alike
  case autoInc =>
    rw [resolve_autoInc, resolve_autoInc, base]
    exact congrArg (Res.ok _) (stepped _)
  case autoIncDeferred =>
    by_cases isPc : r = PC
    · subst isPc
      exact Res.unmarked_bind (ignoresMark_fetch s t alike) fun p => answer _
    · rw [resolve_autoIncDeferred_of_ne sz s isPc, resolve_autoIncDeferred_of_ne sz t isPc, base]
      exact Res.unmarked_bind (ignoresMark_readWord _ _ _ (stepped _)) fun p => answer _
  case autoDec =>
    rw [resolve_autoDec, resolve_autoDec, base]
    exact congrArg (Res.ok _) (stepped _)
  case autoDecDeferred =>
    rw [resolve_autoDecDeferred, resolve_autoDecDeferred, base]
    exact Res.unmarked_bind (ignoresMark_readWord _ _ _ (stepped _)) fun p => answer _
  case indexed =>
    refine Res.unmarked_bind (ignoresMark_fetch s t alike) fun d u v alike => ?_
    rw [reg_of_unmarked alike]
    exact congrArg (Res.ok _) alike
  case indexedDeferred =>
    refine Res.unmarked_bind (ignoresMark_fetch s t alike) fun d u v alike => ?_
    rw [reg_of_unmarked alike]
    exact Res.unmarked_bind (ignoresMark_readWord _ _ _ alike) fun p => answer _

end Sys2Proof.Machine
end

section
/-! # The PSW bits that SXT's flags spare -/

namespace Sys2Proof.Machine

theorem Cc.toBits_getLsbD (k : Cc) : k.toBits.getLsbD 0 = k.c ∧ k.toBits.getLsbD 1 = k.v ∧
    k.toBits.getLsbD 2 = k.z ∧ k.toBits.getLsbD 3 = k.n := by
  obtain ⟨n, z, v, c⟩ := k
  revert n z v c
  decide

/-- The low nibble of the PSW is its condition codes (spec/10_state.md R36). -/
theorem toBits_ccOf (p : Byte) : (ccOf p).toBits = p.extractLsb' 0 4 := by
  obtain ⟨c, v, z, n⟩ := (ccOf p).toBits_getLsbD
  apply BitVec.eq_of_getLsbD_eq
  intro i hi
  rw [BitVec.getLsbD_extractLsb']
  interval_cases i
  · exact c
  · exact v
  · exact z
  · exact n

theorem Cc.toBits_and_9 {k l : Cc} (n : k.n = l.n) (c : k.c = l.c) : k.toBits &&& 9#4 = l.toBits &&& 9#4 := by
  obtain ⟨kn, kz, kv, kc⟩ := k
  obtain ⟨ln, lz, lv, lc⟩ := l
  subst n c
  revert kn kz kv kc lz lv
  decide

theorem pswOf_and_0xF9 (pri : BitVec 3) (t : BitVec 1) (cc : BitVec 4) :
    pswOf pri t cc &&& 0xF9#8 = pswOf pri t (cc &&& 9#4) := by
  have mask : (0xF9#8) = pswOf (BitVec.allOnes 3) (BitVec.allOnes 1) 9#4 := rfl
  rw [mask, pswOf_and, BitVec.and_allOnes, BitVec.and_allOnes]

/-- Condition codes with N and C of the PSW leave these two (spec/10_state.md R36). -/
theorem withCc_and_0xF9 (p : Byte) {k : Cc} (sign : k.n = (ccOf p).n) (carry : k.c = (ccOf p).c) :
    withCc p k &&& 0xF9#8 = p &&& 0xF9#8 := by
  have fields := pswOf_and_0xF9 (p.extractLsb' 5 3) (p.extractLsb' 4 1) (p.extractLsb' 0 4)
  rw [pswOf_fields] at fields
  rw [fields, withCc, append_eq_pswOf, pswOf_and_0xF9, ← toBits_ccOf, Cc.toBits_and_9 sign carry]

end Sys2Proof.Machine
end

section
/-! # The frame of a single-operand instruction that writes its operand -/

namespace Sys2Proof.Claims

open Sys2Proof Sys2Proof.Machine

theorem spares_0xF9 {flags : Cc → Cc} (sign : ∀ k, (flags k).n = k.n) (carry : ∀ k, (flags k).c = k.c) :
    Spares 0xF9#8 flags := fun p => withCc_and_0xF9 p (sign _) (carry _)

section
variable {w : Nat} {acc : Access w} {mask : Byte} {mk : Opnd → Instr}

theorem writingFrame {body : Opnd → State → Res Unit} (run : ∀ d s, exec (mk d) s = retire (body d s))
    (keeps : ∀ d s, WriteFrame acc d (registersRead (mk d)) mask s (body d s).state) :
    WritingFrame acc.size mask mk := by
  intro d s
  obtain ⟨frame, notes, mem⟩ := keeps d s
  exact ⟨_, endsFrom_retire (run d s), frame.rest, frame.execution notes, frame.psw, frame.regs, mem⟩

/-- The frame of an operation that reads a register before it resolves its operand. -/
theorem WriteFrame.after_noteRead {d : Opnd} {reads : List Reg} {r : Reg} {s t : State}
    (h : WriteFrame acc d reads mask (s.noteRead r) t) : WriteFrame acc d (r :: reads) mask s t where
  frame := (Frame.of_quiet (Quiet.noteRead s r) (Silent.noteRead s r) (.of_eq rfl rfl _)).trans h.frame
  notes := (notesOnly_noteRead s r).trans (Quiet.noteRead s r) h.notes
  mem := fun x other => h.mem x fun op u place => by
    have alike := ignoresMark_resolve acc.size d (s.noteRead r) s (s.unmarked_noteRead r)
    obtain ⟨v, place⟩ := Res.ok_of_unmarked alike place
    exact other op v place

variable (laws : FrameLaws acc)
include laws

/-- An instruction that writes its operand without a read. -/
theorem storingFrame {v : State → BitVec w} {flags : State → Cc → Cc}
    (run : ∀ d s, exec (mk d) s = retire (storeOp acc (v s) (flags s s.cc) d s))
    (noted : ∀ d, registersRead (mk d) = storeReads d) (spares : ∀ s, Spares mask (flags s)) :
    WritingFrame acc.size mask mk :=
  writingFrame run fun d s => noted d ▸ storeOp_writeFrame laws d s (v s) (spares s)

/-- An instruction that reads its operand and writes it. -/
theorem updatingFrame {f : State → Cc → BitVec w → BitVec w × Cc}
    (run : ∀ d s, exec (mk d) s = retire (modifyOp acc (f s) d s))
    (noted : ∀ d, registersRead (mk d) = loadReads d) (spares : ∀ s dv, Spares mask fun k => (f s k dv).2) :
    WritingFrame acc.size mask mk :=
  writingFrame run fun d s => noted d ▸ modifyOp_writeFrame laws d s (spares s)

end

/-- XOR, whose register is read before its destination is resolved (spec/41_double_operand.md R188). -/
theorem xorFrame (r : Reg) : WritingFrame .word 0xF1#8 (.xor r) :=
  writingFrame (acc := wordAccess) (fun _ _ => rfl) fun d s =>
    (modifyOp_writeFrame frameLaws_wordAccess d (s.noteRead r) fun _ => spares_0xF1 fun _ => rfl).after_noteRead

/-- Settles O49: CLR, SXT and MFPS store to their destination and the others modify it, XOR after the read of its
register. -/
theorem singleOperandFrame : Obligations.SingleOperandFrame := by
  simp only [Obligations.SingleOperandFrame, List.forall_mem_cons, List.not_mem_nil, false_imp_iff, implies_true,
    and_true]
  refine ⟨⟨?clr, ?com, ?neg, ?adc, ?sbc, ?ror, ?rol, ?asr, ?asl, ?swab⟩, ⟨?inc, ?dec⟩, ?sxt, xorFrame,
    ⟨?clrb, ?comb, ?negb, ?adcb, ?sbcb, ?rorb, ?rolb, ?asrb, ?aslb⟩, ?incb, ?decb, ?mfps⟩
  case clr =>
    exact storingFrame (acc := wordAccess) (flags := fun _ _ => clearFlags)
      frameLaws_wordAccess (fun _ _ => rfl) (fun _ => rfl) fun _ => spares_0xF0 _
  case clrb =>
    exact storingFrame (acc := byteAccess) (flags := fun _ _ => clearFlags)
      frameLaws_byteAccess (fun _ _ => rfl) (fun _ => rfl) fun _ => spares_0xF0 _
  case sxt =>
    exact storingFrame (acc := wordAccess) (flags := fun _ => sxtFlags)
      frameLaws_wordAccess (fun _ _ => rfl) (fun _ => rfl) fun _ => spares_0xF9 (fun _ => rfl) fun _ => rfl
  case mfps =>
    exact storingFrame (acc := signedByteAccess) (flags := fun s k => moveFlags k s.psw)
      frameLaws_signedByteAccess (fun _ _ => rfl) (fun _ => rfl) fun _ => spares_0xF1 fun _ => rfl
  case sbc =>
    exact updatingFrame (acc := wordAccess) (f := fun s => sbcOp s.params.sbcVQuirk)
      frameLaws_wordAccess (fun _ _ => rfl) (fun _ => rfl) fun _ _ => spares_0xF0 _
  case sbcb =>
    exact updatingFrame (acc := byteAccess) (f := fun s => sbcOp s.params.sbcVQuirk)
      frameLaws_byteAccess (fun _ _ => rfl) (fun _ => rfl) fun _ _ => spares_0xF0 _
  case com | neg | adc | ror | rol | asr | asl | swab =>
    exact updatingFrame (acc := wordAccess) frameLaws_wordAccess (fun _ _ => rfl) (fun _ => rfl)
      fun _ _ => spares_0xF0 _
  case comb | negb | adcb | rorb | rolb | asrb | aslb =>
    exact updatingFrame (acc := byteAccess) frameLaws_byteAccess (fun _ _ => rfl) (fun _ => rfl)
      fun _ _ => spares_0xF0 _
  case inc | dec =>
    exact updatingFrame (acc := wordAccess) frameLaws_wordAccess (fun _ _ => rfl) (fun _ => rfl)
      fun _ _ => spares_0xF1 fun _ => rfl
  case incb | decb =>
    exact updatingFrame (acc := byteAccess) frameLaws_byteAccess (fun _ _ => rfl) (fun _ => rfl)
      fun _ _ => spares_0xF1 fun _ => rfl

end Sys2Proof.Claims
end

section
/-! # The branches (spec/43_control.md R271 to R286)

The word of a branch, and the end that every completed control transfer has. -/

namespace Sys2Proof

/-- The word of a branch is its code and its offset (spec/30_encoding.md R104). -/
theorem byteWord_eq_append (code off : BitVec 8) : byteWord code.toNat off = code ++ off := by
  apply BitVec.eq_of_toNat_eq
  rw [byteWord, toNat_ofNat_of_lt (by omega), BitVec.toNat_append, ← Nat.shiftLeft_add_eq_or_of_lt off.isLt,
    Nat.shiftLeft_eq]

end Sys2Proof

namespace Sys2Proof.Claims

open Sys2Proof Sys2Proof.Machine

/-- The trace latch that an instruction began with decides how it ends. -/
theorem retire_ok_eq_finished {s x : State} (latch : x.tstart = s.tstart) : retire (.ok () x) = .next (finished s x) :=
  congrArg _ (traceEnd_eq_finished latch)

/-- An instruction that is `retire` of a branch, on a condition of the flags before it. -/
theorem branches {code : BitVec 8} {mk : BitVec 8 → Instr} {cond taken : Cc → Bool}
    (wf : ∀ off, (mk off).wellFormed = true) (word : ∀ off, encode (mk off) = byteWord code.toNat off)
    (run : ∀ off s, exec (mk off) s = retire (branchIf (taken s.cc) off s)) (same : ∀ k, cond k = taken k) :
    Branches code mk cond := by
  intro off s
  constructor
  · rw [← byteWord_eq_append, ← word off, decode_encode (wf off)]
  · rw [run, same]
    refine retire_ok_eq_finished ?_
    split <;> rfl

/-- Settles O43: the nine branch, each on its condition of Z, N and N ^ V. -/
theorem signedBranches : Obligations.SignedBranches :=
  ⟨branches (fun _ => rfl) (fun _ => rfl) (fun _ _ => rfl) fun _ => rfl,
    branches (fun _ => rfl) (fun _ => rfl) (fun _ _ => rfl) fun k => beq_false k.z,
    branches (fun _ => rfl) (fun _ => rfl) (fun _ _ => rfl) fun k => beq_true k.z,
    branches (fun _ => rfl) (fun _ => rfl) (fun _ _ => rfl) fun k => beq_false (k.n ^^ k.v),
    branches (fun _ => rfl) (fun _ => rfl) (fun _ _ => rfl) fun k => beq_true (k.n ^^ k.v),
    branches (fun _ => rfl) (fun _ => rfl) (fun _ _ => rfl) fun k => beq_false (k.z || (k.n ^^ k.v)),
    branches (fun _ => rfl) (fun _ => rfl) (fun _ _ => rfl) fun k => beq_true (k.z || (k.n ^^ k.v)),
    branches (fun _ => rfl) (fun _ => rfl) (fun _ _ => rfl) fun k => beq_false k.n,
    branches (fun _ => rfl) (fun _ => rfl) (fun _ _ => rfl) fun k => beq_true k.n⟩

/-- Settles O44: the six branch, each on its condition of C, Z and V. -/
theorem unsignedBranches : Obligations.UnsignedBranches :=
  ⟨branches (fun _ => rfl) (fun _ => rfl) (fun _ _ => rfl) fun k => by rw [beq_false, beq_false],
    branches (fun _ => rfl) (fun _ => rfl) (fun _ _ => rfl) fun k => beq_true (k.c || k.z),
    branches (fun _ => rfl) (fun _ => rfl) (fun _ _ => rfl) fun k => beq_false k.v,
    branches (fun _ => rfl) (fun _ => rfl) (fun _ _ => rfl) fun k => beq_true k.v,
    branches (fun _ => rfl) (fun _ => rfl) (fun _ _ => rfl) fun k => beq_false k.c,
    branches (fun _ => rfl) (fun _ => rfl) (fun _ _ => rfl) fun k => beq_true k.c⟩

end Sys2Proof.Claims
end

section
/-! # JMP and JSR (spec/43_control.md R287, R288) -/

namespace Sys2Proof.Machine

theorem push_eq (v : Word) (s : State) : push v s = writeWord (s.sp - 2#16) v (s.setSp (s.sp - 2#16)) := by
  rw [push, State.sp_setSp]

theorem reg_writeWord (a v : Word) (s : State) (r : Reg) : (writeWord a v s).state.reg r = s.reg r := by
  simp only [State.reg, (writeWord_regs a v s).1]

theorem reg_readWord (a : Word) (s : State) (r : Reg) : (readWord a s).state.reg r = s.reg r := by
  simp only [State.reg, readWord_regs]

/-- Outside register mode a resolution gives an address (spec/40_addressing.md R141, R149). -/
theorem address_of_resolve {sz : Size} {d : Opnd} {op : Operand} {s t : State} (memory : d.mode ≠ .register)
    (place : resolve sz d s = .ok op t) : ∃ a, op.address? = some a := by
  have noRegister : op.reads = [] := (reads_of_resolve place).trans (if_neg memory)
  cases op with
  | reg r => cases noRegister
  | mem a | stream a => exact ⟨a, rfl⟩

section
variable {d : Opnd} {s : State} (body : Word → State → Res Unit)

theorem jumpWith_of_register (register : d.mode = .register) : jumpWith d body s = .next (illegalTrap s) := by
  obtain ⟨m, r⟩ := d
  cases register
  rfl

theorem jumpWith_of_err {u : State} (place : resolve .word d s = .err u) :
    jumpWith d body s = .next (busErrorTrap u) := by
  rw [jumpWith, place]

theorem jumpWith_of_address {op : Operand} {a : Word} {t : State} (place : resolve .word d s = .ok op t)
    (address : op.address? = some a) : jumpWith d body s = retire (body a t) := by
  simp only [jumpWith, place, address]

end

end Sys2Proof.Machine

namespace Sys2Proof.Claims

open Sys2Proof Sys2Proof.Machine

section
variable {d : Opnd} {s t u : State} {o : Operand} {a : Word} {r : Reg} (place : resolve .word d s = .ok o t)
  (address : o.address? = some a)
include place address

theorem exec_jmp_of_address : exec (.jmp d) s = .next (finished s (t.setPc a)) :=
  (jumpWith_of_address _ place address).trans
    (retire_ok_eq_finished ((quiet_resolve .word d s).of_ok place).tstart)

/-- A failed push leaves SP stepped (spec/00_scope.md R11). -/
theorem exec_jsr_of_push_err
    (write : writeWord (t.sp - 2#16) (t.reg r) ((t.noteRead r).setSp (t.sp - 2#16)) = .err u) :
    BusFault (.jsr r d) s u ∧ u.sp = t.sp - 2#16 := by
  have pushed : push (t.reg r) (t.noteRead r) = .err u := (push_eq _ _).trans write
  have sp := reg_writeWord (t.sp - 2#16) (t.reg r) ((t.noteRead r).setSp (t.sp - 2#16)) SP
  rw [write] at sp
  exact ⟨(jumpWith_of_address _ place address).trans (by rw [pushed]; rfl), sp.trans (State.sp_setSp _ _)⟩

theorem exec_jsr_of_push_ok
    (write : writeWord (t.sp - 2#16) (t.reg r) ((t.noteRead r).setSp (t.sp - 2#16)) = .ok () u) :
    exec (.jsr r d) s = .next (finished s ((u.setReg r u.pc).setPc a)) := by
  have pushed : push (t.reg r) (t.noteRead r) = .ok () u := (push_eq _ _).trans write
  have quiet : Quiet s u := ((quiet_resolve .word d s).of_ok place).trans
    ((Quiet.noteRead t r).trans ((quiet_push _ _).of_ok pushed))
  refine (jumpWith_of_address _ place address).trans ?_
  rw [pushed]
  exact retire_ok_eq_finished quiet.tstart

end

/-- Settles O45: the outcomes of `jumpWith`, one by one, for the two instructions that share it. -/
theorem jumpAndCall : Obligations.JumpAndCall := by
  refine fun r d s => ⟨sopWord_eq 0o0001 d, rddWord_eq 0o004 r d, fun register => ?register, fun u place => ?failed,
    fun o a t place address => ?resolved, fun memory ref => ?completed⟩
  case register => exact ⟨jumpWith_of_register _ register, jumpWith_of_register _ register⟩
  case failed => exact ⟨jumpWith_of_err _ place, jumpWith_of_err _ place⟩
  case resolved =>
    exact ⟨exec_jmp_of_address place address, fun u => exec_jsr_of_push_err place address,
      fun u => exec_jsr_of_push_ok place address⟩
  case completed =>
    obtain ⟨o, t, place⟩ := resolve_ref ref .word d
    obtain ⟨a, address⟩ := address_of_resolve memory place
    have refT : ReferenceBus t := ref.of_world ((quiet_resolve .word d s).of_ok place).toWorld
    have write := writeWord_ref (s := (t.noteRead r).setSp (t.sp - 2#16)) refT (t.sp - 2#16) (t.reg r)
    exact ⟨o, a, t, _, place, address, write, exec_jmp_of_address place address,
      exec_jsr_of_push_ok place address write⟩

end Sys2Proof.Claims
end

section
/-! # RTS and SOB (spec/43_control.md R289, R290) -/

namespace Sys2Proof.Machine

section
variable {s t : State}

theorem pop_of_ok {v : Word} (read : readWord s.sp s = .ok v t) : pop s = .ok v (t.setSp (t.sp + 2#16)) := by
  rw [pop, read, Res.bind_ok]

theorem pop_of_err (read : readWord s.sp s = .err t) : pop s = .err t := by
  rw [pop, read, Res.bind_err]

end

end Sys2Proof.Machine

namespace Sys2Proof.Claims

open Sys2Proof Sys2Proof.Machine

theorem encode_rts (r : Reg) : encode (.rts r) = 0x0080#16 + BitVec.ofNat 16 r.val := by
  rw [← BitVec.ofNat_add]
  rfl

theorem encode_sob (r : Reg) (off : BitVec 6) :
    encode (.sob r off) = 0x7E00#16 + 64#16 * BitVec.ofNat 16 r.val + off.setWidth 16 := by
  rw [← BitVec.ofNat_toNat, ← BitVec.ofNat_mul, ← BitVec.ofNat_add, ← BitVec.ofNat_add, Nat.mul_comm 64]
  rfl

/-- Settles O46: RTS ends as its pop does, in the state that has already jumped; SOB has no bus call. -/
theorem returnAndLoop : Obligations.ReturnAndLoop := by
  intro r off s jumped counted
  have rts : exec (.rts r) s = retire ((pop jumped).bind fun v t => .ok () (t.setReg r v)) := rfl
  have completed : ∀ v t, readWord jumped.sp jumped = .ok v t →
      exec (.rts r) s = .next (finished s ((t.setSp (t.sp + 2#16)).setReg r v)) := by
    intro v t read
    have quiet : Quiet jumped t := (quiet_readWord _ _).of_ok read
    rw [rts, pop_of_ok read]
    exact retire_ok_eq_finished quiet.tstart
  refine ⟨encode_rts r, encode_sob r off, fun u read => ⟨?fault, ?pc⟩, completed, fun ref => ?reference, ?sob⟩
  case fault => exact rts.trans (by rw [pop_of_err read]; rfl)
  case pc =>
    have pc := reg_readWord jumped.sp jumped PC
    rw [read] at pc
    exact pc.trans (State.pc_setPc _ _)
  case reference =>
    have sp : jumped.sp = s.sp := State.sp_setPc _ _
    have popped := completed _ _ (readWord_ref (s := jumped) ref jumped.sp)
    rwa [sp] at popped
  case sob =>
    have value : counted.reg r = s.reg r - 1#16 := State.reg_setReg_self _ r _
    have sob : exec (.sob r off) s = retire (.ok ()
        (if counted.reg r = 0#16 then counted else counted.setPc (counted.pc - 2#16 * off.setWidth 16))) := rfl
    rw [sob, value, ite_not]
    refine retire_ok_eq_finished ?_
    split <;> rfl

end Sys2Proof.Claims
end

section
/-! # What the control transfers leave alone (spec/43_control.md R270, R287 to R290) -/

namespace Sys2Proof.Machine

/-- Outside register mode JMP and JSR resolve their operand and go on with its address. -/
theorem jumpWith_of_memory {d : Opnd} (memory : d.mode ≠ .register) (body : Word → State → Res Unit) (s : State) :
    jumpWith d body s = retire ((resolve .word d s).bind fun op t => body (op.address?.getD 0#16) t) := by
  cases place : resolve .word d s with
  | err u => exact jumpWith_of_err body place
  | ok op t =>
    obtain ⟨a, address⟩ := address_of_resolve memory place
    rw [jumpWith_of_address body place address, Res.bind_ok, address, Option.getD_some]

theorem readWord_written (a : Word) (s : State) : (readWord a s).state.written = s.written := by
  rw [readWord_only_events]

theorem pop_mem (s : State) : (pop s).state.mem = s.mem :=
  Res.bind_keeps State.mem (readWord_mem _ s) fun _ _ _ => rfl

/-- A push leaves every byte but the two of the new top of the stack. -/
theorem read_of_push {x : Nat} {s : State} (other : x ∉ storedBytes s.params .word (.mem (s.sp - 2#16))) (v : Word) :
    (push v s).state.mem.read x = s.mem.read x := by
  rw [push_eq]
  exact read_of_writeWord (s := s.setSp (s.sp - 2#16)) other v

end Sys2Proof.Machine

namespace Sys2Proof.Claims

open Sys2Proof Sys2Proof.Machine

section
variable (changed : List Reg) (mask : Byte) (s : State)

theorem Frame.refl : Frame changed mask s s := .of_quiet (Quiet.refl s) (Silent.refl s) (.of_eq rfl rfl _)

theorem Frame.noteRead (r : Reg) : Frame changed mask s (s.noteRead r) :=
  .of_quiet (Quiet.noteRead s r) (Silent.noteRead s r) (.of_eq rfl rfl _)

theorem Frame.readWord (a : Word) : Frame changed mask s (readWord a s).state :=
  .of_quiet (quiet_readWord a s) (silent_readWord a s) (.of_eq (readWord_regs a s) (readWord_written a s) _)

theorem Frame.writeWord (a v : Word) : Frame changed mask s (writeWord a v s).state :=
  .of_quiet (quiet_writeWord a v s) (silent_writeWord a v s) (.writeWord a v s _)

section
variable {changed}

theorem Frame.setReg {r : Reg} (inChanged : r ∈ changed) (v : Word) : Frame changed mask s (s.setReg r v) :=
  Frame.mono (.of_quiet (Quiet.setReg s r v) (Silent.setReg s r v) (.setReg s r v))
    (List.cons_subset.2 ⟨inChanged, List.nil_subset _⟩)

theorem Frame.setPc (inChanged : PC ∈ changed) (v : Word) : Frame changed mask s (s.setPc v) :=
  .setReg mask s inChanged v

theorem Frame.push (inChanged : SP ∈ changed) (v : Word) : Frame changed mask s (push v s).state :=
  (Frame.setReg mask s inChanged _).trans (.writeWord _ _ _ _ v)

theorem Frame.pop (inChanged : SP ∈ changed) : Frame changed mask s (pop s).state :=
  .bind (.readWord _ _ s _) fun _ t _ => .setReg mask t inChanged _

end

end

/-- The frame of a control transfer, up to the trap in which it ends: the whole PSW, the registers outside the list, and
what `memory` says. -/
def TransferFrame (i : Instr) (changed : List Reg) (memory : State → Prop) (s : State) : Prop :=
  ∃ u, EndsFrom i s u ∧ KeepsRest s u ∧ KeepsExecution i s u ∧ u.psw = s.psw ∧ KeepsRegs s u changed ∧ memory u

theorem transferFrame {i : Instr} {changed : List Reg} {memory : State → Prop} {s : State} {r : Res Unit}
    (run : exec i s = retire r) (frame : Frame changed (BitVec.allOnes 8) s r.state)
    (notes : NotesOnly (registersRead i) s r.state) (mem : memory r.state) : TransferFrame i changed memory s := by
  have psw : r.state.psw = s.psw := by simpa only [KeepsPsw, BitVec.and_allOnes] using frame.psw
  exact ⟨r.state, endsFrom_retire run, frame.rest, frame.execution notes, psw, frame.regs, mem⟩

theorem branchFrame {mk : BitVec 8 → Instr} {taken : State → Bool}
    (run : ∀ off s, exec (mk off) s = retire (branchIf (taken s) off s)) (off : BitVec 8) (s : State) :
    TransferFrame (mk off) [PC] (·.mem = s.mem) s := by
  have keeps : ∀ cond, Frame [PC] (BitVec.allOnes 8) s (branchIf cond off s).state ∧
      (branchIf cond off s).state.unwrittenRead = s.unwrittenRead ∧ (branchIf cond off s).state.mem = s.mem
    | true => ⟨.setPc _ s List.mem_cons_self _, rfl, rfl⟩
    | false => ⟨.refl _ _ s, rfl, rfl⟩
  obtain ⟨frame, mark, mem⟩ := keeps (taken s)
  exact transferFrame (run off s) frame (.inl mark) mem

theorem sobFrame (r : Reg) (off : BitVec 6) (s : State) : TransferFrame (.sob r off) [PC, r] (·.mem = s.mem) s := by
  have counted : Frame [PC, r] (BitVec.allOnes 8) s ((s.noteRead r).setReg r (s.reg r - 1#16)) :=
    (Frame.noteRead _ _ s r).trans (.setReg _ _ (by simp) _)
  refine transferFrame (r := .ok () _) rfl ?frame ?notes ?mem <;> rw [Res.state_ok] <;> split
  case frame.isTrue => exact counted
  case frame.isFalse => exact counted.trans (.setPc _ _ List.mem_cons_self _)
  case notes.isTrue | notes.isFalse => exact notesOnly_noteRead s r
  case mem.isTrue | mem.isFalse => rfl

theorem rtsFrame (r : Reg) (s : State) : TransferFrame (.rts r) [PC, SP, r] (·.mem = s.mem) s := by
  have jumped : Frame [PC, SP, r] (BitVec.allOnes 8) s ((s.noteRead r).setPc (s.reg r)) :=
    (Frame.noteRead _ _ s r).trans (.setPc _ _ List.mem_cons_self _)
  have noted : NotesOnly [r] s ((s.noteRead r).setPc (s.reg r)) := notesOnly_noteRead s r
  refine transferFrame (r := (pop _).bind fun v t => .ok () (t.setReg r v)) rfl ?frame ?notes ?mem
  case frame => exact jumped.trans (.bind (.pop _ _ (by simp)) fun v t _ => .setReg _ t (by simp) v)
  case notes =>
    exact NotesOnly.trans (m := []) ((Quiet.noteRead s r).trans (Quiet.setReg _ PC _)) noted
      (NotesOnly.bind (l := []) (quiet_pop _) (notesOnly_pop _ _) fun _ _ _ => .inl rfl)
  case mem => exact Res.bind_keeps State.mem (pop_mem _) fun _ _ _ => rfl

section
variable {d : Opnd} (memory : d.mode ≠ .register) (s : State)
include memory

theorem jmpFrame : TransferFrame (.jmp d) (PC :: steppedBy d) (·.mem = s.mem) s := by
  have notes := NotesOnly.bind (m := []) (f := fun op t => .ok () (t.setPc (op.address?.getD 0#16)))
    (quiet_resolve .word d s) (notesOnly_resolve .word d s) fun _ _ _ => .inl rfl
  rw [List.append_nil] at notes
  exact transferFrame (jumpWith_of_memory memory _ s)
    (.bind (frame_resolve _ .word d s) fun _ t _ => .setPc _ t List.mem_cons_self _) notes
    (Res.bind_keeps State.mem (resolved_resolve .word d s).mem fun _ _ _ => rfl)

theorem registersRead_jsr (r : Reg) : registersRead (.jsr r d) = storeReads d ++ [r] := by
  rw [registersRead, storeReads, if_neg memory, if_neg memory]
  rfl

theorem jsrFrame (r : Reg) : TransferFrame (.jsr r d) (PC :: SP :: r :: steppedBy d)
    (fun u => ∀ x, (∀ o t, resolve .word d s = .ok o t → x ∉ storedBytes s.params .word (.mem (t.sp - 2#16))) →
      u.mem.read x = s.mem.read x) s := by
  refine transferFrame (jumpWith_of_memory memory _ s) ?frame ?notes fun x other => ?mem
  case frame =>
    have within : PC :: steppedBy d ⊆ PC :: SP :: r :: steppedBy d :=
      List.cons_subset_cons PC (List.subset_append_right [SP, r] _)
    exact .bind ((frame_resolve _ .word d s).mono within) fun _ t _ =>
      (Frame.noteRead _ _ t r).trans (.bind (.push _ _ (by simp) _) fun _ u _ =>
        (Frame.setReg _ u (by simp) _).trans (.setPc _ _ List.mem_cons_self _))
  case notes =>
    rw [registersRead_jsr memory]
    exact NotesOnly.bind (quiet_resolve .word d s) (notesOnly_resolve .word d s) fun _ t _ =>
      NotesOnly.trans (l := [r]) (m := []) (Quiet.noteRead t r) (notesOnly_noteRead t r)
        (NotesOnly.bind (l := []) (quiet_push _ _) (notesOnly_push _ _ _) fun _ _ _ => .inl rfl)
  case mem =>
    refine Res.bind_keeps (·.mem.read x) (congrArg (·.read x) (resolved_resolve .word d s).mem) fun o t place => ?_
    have params : t.params = s.params := ((quiet_resolve .word d s).of_ok place).params
    have outside : x ∉ storedBytes (t.noteRead r).params .word (.mem ((t.noteRead r).sp - 2#16)) :=
      params ▸ other o t place
    exact Res.bind_keeps (·.mem.read x) (read_of_push outside _) fun _ _ _ => rfl

end

/-- Settles O52: the branches write at most pc, SOB its counter beside it, and the other three what their bus calls,
their jump and their linkage write. -/
theorem controlFrame : Obligations.ControlFrame := by
  refine ⟨?branches, sobFrame, fun d s memory => jmpFrame memory s, rtsFrame,
    fun r d s memory => jsrFrame memory s r⟩
  simp only [List.forall_mem_cons, List.not_mem_nil, false_imp_iff, implies_true, and_true]
  and_intros <;> exact branchFrame fun _ _ => rfl

end Sys2Proof.Claims
end

section
/-! # The trap instructions and the condition-code operators (spec/44_system.md R305 to R308, R310, R311) -/

namespace Sys2Proof

/-- The word of a condition-code operator is its code and its mask (spec/30_encoding.md R107). -/
theorem ccWord_eq_append (code : BitVec 12) (m : BitVec 4) : ccWord code.toNat m = code ++ m := by
  apply BitVec.eq_of_toNat_eq
  rw [ccWord, toNat_ofNat_of_lt (by omega), BitVec.toNat_append, ← Nat.shiftLeft_add_eq_or_of_lt m.isLt,
    Nat.shiftLeft_eq]

section
variable {i : Instr} (wf : i.wellFormed = true)
include wf

theorem decode_append_byte {code low : BitVec 8} (word : encode i = byteWord code.toNat low) :
    decode (code ++ low) = i := by
  rw [← byteWord_eq_append, ← word, decode_encode wf]

theorem decode_append_mask {code : BitVec 12} {m : BitVec 4} (word : encode i = ccWord code.toNat m) :
    decode (code ++ m) = i := by
  rw [← ccWord_eq_append, ← word, decode_encode wf]

end

end Sys2Proof

namespace Sys2Proof.Machine

theorem append_nibbles (p : Byte) : (p.extractLsb' 4 4 ++ p.extractLsb' 0 4 : Byte) = p := by
  rw [append_eq_pswOf, pswOf_fields]

/-- A mask as wide as the PSW is 0 over T and PRI. -/
theorem setWidth_mask (m : BitVec 4) : m.setWidth 8 = (0#4 ++ m : Byte) := BitVec.setWidth_eq_append (by decide)

/-- The clear group as one mask of the PSW (spec/44_system.md R310). -/
theorem clearCcBits_eq (p : Byte) (m : BitVec 4) : clearCcBits p m = p &&& ~~~(m.setWidth 8) := by
  calc clearCcBits p m
      = (p.extractLsb' 4 4 ++ p.extractLsb' 0 4 : Byte) &&& (BitVec.allOnes 4 ++ ~~~m : Byte) := by
        rw [BitVec.and_append, BitVec.and_allOnes]; rfl
    _ = p &&& ~~~(m.setWidth 8) := by rw [append_nibbles, setWidth_mask, BitVec.not_append, BitVec.not_zero]

/-- The set group as one mask of the PSW (spec/44_system.md R311). -/
theorem setCcBits_eq (p : Byte) (m : BitVec 4) : setCcBits p m = p ||| m.setWidth 8 := by
  calc setCcBits p m
      = (p.extractLsb' 4 4 ++ p.extractLsb' 0 4 : Byte) ||| (0#4 ++ m : Byte) := by
        rw [BitVec.or_append, BitVec.or_zero]; rfl
    _ = p ||| m.setWidth 8 := by rw [append_nibbles, setWidth_mask]

end Sys2Proof.Machine

namespace Sys2Proof.Claims

open Sys2Proof Sys2Proof.Machine

/-- Settles O23: the four words are encodings, and each instruction is its trap entry. -/
theorem trapInstructions : Obligations.TrapInstructions :=
  ⟨rfl, rfl, fun _ => ⟨decode_append_byte rfl rfl, decode_append_byte rfl rfl⟩, fun _ _ => ⟨rfl, rfl, rfl, rfl⟩⟩

theorem exec_clcc (m : BitVec 4) (s : State) :
    exec (.clcc m) s = .next (finished s { s with psw := s.psw &&& ~~~(m.setWidth 8) }) := by
  rw [← clearCcBits_eq]
  exact retire_ok_eq_finished (x := s.setPsw (clearCcBits s.psw m)) rfl

theorem exec_secc (m : BitVec 4) (s : State) :
    exec (.secc m) s = .next (finished s { s with psw := s.psw ||| m.setWidth 8 }) := by
  rw [← setCcBits_eq]
  exact retire_ok_eq_finished (x := s.setPsw (setCcBits s.psw m)) rfl

/-- Settles O48: the words are encodings, and an operation on the low nibble is one of the whole PSW with a mask that is
0 over T and PRI. -/
theorem conditionCodeOperators : Obligations.ConditionCodeOperators := fun m s =>
  ⟨decode_append_mask rfl rfl, decode_append_mask rfl rfl, exec_clcc m s, exec_secc m s⟩

end Sys2Proof.Claims
end

section
/-! # HALT, WAIT and RESET (spec/44_system.md R300 to R302) -/

namespace Sys2Proof.Machine

section
variable {s : State}

theorem step_of_halted (halted : s.halted = true) : step s = .fault (haltReason s) := by
  simp [step, boundary, halted]

theorem exec_halt_of_stop (action : s.params.haltAction = .stop) : exec .halt s = .next { s with halted := true } := by
  show execHalt s = _
  rw [execHalt, action]

theorem exec_halt_of_trap4 (action : s.params.haltAction = .trap4) : exec .halt s = .next (busErrorTrap s) := by
  show execHalt s = _
  rw [execHalt, action]

end

end Sys2Proof.Machine

namespace Sys2Proof.Claims

open Sys2Proof Sys2Proof.Machine

/-- Settles O47: HALT by its parameter, and a halted state takes no step; WAIT and RESET complete in the state with their
one change. -/
theorem haltWaitReset : Obligations.HaltWaitReset := by
  refine ⟨rfl, rfl, rfl, fun s => ⟨fun stop => ⟨exec_halt_of_stop stop, fun t run => ?noStep⟩, exec_halt_of_trap4,
    retire_ok_eq_finished rfl, retire_ok_eq_finished rfl⟩⟩
  rw [exec_halt_of_stop stop] at run
  cases run
  exact ⟨_, step_of_halted rfl⟩

end Sys2Proof.Claims
end

section
/-! # RTI and RTT (spec/44_system.md R303, R304; spec/60_exceptions.md R365, R372) -/

namespace Sys2Proof.Machine

section
variable {s s1 s2 t u : State} {a p : Word}

theorem returnFromTrap_of_first_err (first : pop s = .err u) : returnFromTrap s = .err u := by
  rw [returnFromTrap, first, Res.bind_err]

theorem returnFromTrap_of_second_err (first : pop s = .ok a s1) (second : pop (s1.setPc a) = .err u) :
    returnFromTrap s = .err u := by
  rw [returnFromTrap, first, Res.bind_ok, second, Res.bind_err]

theorem returnFromTrap_of_ok (first : pop s = .ok a s1) (second : pop (s1.setPc a) = .ok p s2) :
    returnFromTrap s = .ok () (s2.setPsw (lo8 p)) := by
  rw [returnFromTrap, first, Res.bind_ok, second, Res.bind_ok]

/-- The T that a return restores is bit 4 of the popped word (spec/10_state.md R36). -/
theorem traceBit_lo8 (w : Word) : traceBit (lo8 w) = w.getLsbD 4 := by
  rw [traceBit, lo8, BitVec.getLsbD_extractLsb']
  rfl

theorem exec_rti_of_ok (returned : returnFromTrap s = .ok () t) :
    exec .rti s = .next (if s.tstart || traceBit t.psw then traceTrap t else t) := by
  have world : World s t := by simpa [returned] using world_returnFromTrap s
  show execRti s = _
  rw [execRti, returned, ← world.tstart]

theorem exec_rtt_of_ok (returned : returnFromTrap s = .ok () t) : exec .rtt s = .next t := by
  show execRtt s = _
  rw [execRtt, returned]

end

end Sys2Proof.Machine

namespace Sys2Proof.Claims

open Sys2Proof Sys2Proof.Machine

theorem busFault_of_returnFromTrap_err {s u : State} (failed : returnFromTrap s = .err u) :
    BusFault .rti s u ∧ BusFault .rtt s u := by
  constructor
  · show execRti s = _
    rw [execRti, failed]
    rfl
  · show execRtt s = _
    rw [execRtt, failed]
    rfl

/-- Settles O24: both instructions end as the two pops of the return do, and on the reference bus both pops answer with
memory's words. -/
theorem returnInstructions : Obligations.ReturnInstructions := by
  refine ⟨rfl, rfl, fun s => ⟨fun u first => ?firstFails, fun a s1 u first second => ?secondFails,
    fun a s1 p s2 first second => ?completes, fun ref => ?reference⟩⟩
  case firstFails => exact busFault_of_returnFromTrap_err (returnFromTrap_of_first_err first)
  case secondFails => exact busFault_of_returnFromTrap_err (returnFromTrap_of_second_err first second)
  case completes =>
    have returned := returnFromTrap_of_ok first second
    have traced := exec_rti_of_ok returned
    rw [State.setPsw_psw, traceBit_lo8] at traced
    exact ⟨exec_rtt_of_ok returned, traced⟩
  case reference =>
    have first := pop_ref ref
    have second := pop_ref (s := (s.setSp (s.sp + 2#16)).setPc (s.mem.readWord (evenAddr s.sp))) ref
    rw [State.sp_setPc, State.sp_setSp] at second
    have returned := returnFromTrap_of_ok first second
    refine ⟨_, ?pc, ?psw, ?sp, ?mem, exec_rtt_of_ok returned, exec_rti_of_ok returned⟩
    case pc => rw [State.pc_setPsw, State.pc_setSp, State.pc_setPc]; rfl
    case sp => rw [State.sp_setPsw, State.sp_setSp, BitVec.add_assoc]; rfl
    case psw | mem => rfl

end Sys2Proof.Claims
end

section
/-! # What the system instructions leave alone (spec/44_system.md) -/

namespace Sys2Proof.Machine

theorem returnFromTrap_mem (s : State) : (returnFromTrap s).state.mem = s.mem :=
  Res.bind_keeps State.mem (pop_mem s) fun newpc s1 _ =>
    Res.bind_keeps State.mem (pop_mem (s1.setPc newpc)) fun _ _ _ => rfl

theorem returnFromTrap_unwrittenRead (s : State) : (returnFromTrap s).state.unwrittenRead = s.unwrittenRead :=
  Res.bind_keeps State.unwrittenRead (notesOnly_pop [] s).eq fun newpc s1 _ =>
    Res.bind_keeps State.unwrittenRead (notesOnly_pop [] (s1.setPc newpc)).eq fun _ _ _ => rfl

end Sys2Proof.Machine

namespace Sys2Proof.Claims

open Sys2Proof Sys2Proof.Machine

/-- The return writes pc, SP and the whole PSW. -/
theorem frame_returnFromTrap (s : State) : Frame [PC, SP] 0#8 s (returnFromTrap s).state :=
  .bind (.pop _ s (by simp)) fun newpc s1 _ =>
    .bind ((Frame.setPc _ s1 (by simp) newpc).trans (.pop _ _ (by simp))) fun _ s2 _ =>
      .setPsw (by rw [BitVec.and_zero, BitVec.and_zero])

/-- HALT ends as a bus error would, or in the halted state, by its parameter. -/
theorem endsFrom_halt (s : State) : ∃ u, EndsFrom .halt s u ∧ (u = s ∨ u = { s with halted := true }) := by
  cases action : s.params.haltAction with
  | stop => exact ⟨_, .inl (exec_halt_of_stop action), .inr rfl⟩
  | trap4 => exact ⟨s, .inr (.inl (exec_halt_of_trap4 action)), .inl rfl⟩

theorem endsFrom_rti (s : State) : EndsFrom .rti s (returnFromTrap s).state := by
  cases returned : returnFromTrap s with
  | err u => exact .inr (.inl (busFault_of_returnFromTrap_err returned).1)
  | ok _ t =>
    have run := exec_rti_of_ok returned
    split at run
    · exact .inr (.inr run)
    · exact .inl run

theorem endsFrom_rtt (s : State) : EndsFrom .rtt s (returnFromTrap s).state := by
  cases returned : returnFromTrap s with
  | err u => exact .inr (.inl (busFault_of_returnFromTrap_err returned).2)
  | ok _ t => exact .inl (exec_rtt_of_ok returned)

/-- A condition-code operator is a write of PSW bits 3:0. -/
theorem conditionCodeFrame {mk : BitVec 4 → Instr} {write : Byte → BitVec 4 → Byte}
    (run : ∀ m s, exec (mk m) s = retire (.ok () (s.setPsw (write s.psw m))))
    (spares : ∀ p m, write p m &&& 0xF0#8 = p &&& 0xF0#8) (m : BitVec 4) (s : State) :
    ∃ u, EndsFrom (mk m) s u ∧ KeepsPsw s u 0xF0#8 ∧ u = { s with psw := u.psw } :=
  ⟨_, endsFrom_retire (run m s), spares s.psw m, rfl⟩

theorem returnFrame {i : Instr} (ends : ∀ s, EndsFrom i s (returnFromTrap s).state) (s : State) :
    ∃ u, EndsFrom i s u ∧ KeepsRest s u ∧ KeepsExecution i s u ∧ KeepsRegs s u [PC, SP] ∧ u.mem = s.mem := by
  have frame := frame_returnFromTrap s
  exact ⟨_, ends s, frame.rest, frame.execution (.of_eq _ (returnFromTrap_unwrittenRead s)), frame.regs,
    returnFromTrap_mem s⟩

/-- Settles O53: each instruction ends from the state with its own change, and RTI and RTT from that of the return. -/
theorem systemFrame : Obligations.SystemFrame := by
  simp only [Obligations.SystemFrame, List.forall_mem_cons, List.not_mem_nil, false_imp_iff, implies_true, and_true]
  exact ⟨endsFrom_halt, fun s => ⟨_, endsFrom_retire (r := .ok () { s with waiting := true }) rfl, rfl⟩,
    fun s => ⟨_, endsFrom_retire (r := .ok () (s.emit .resetOut)) rfl, rfl⟩,
    ⟨conditionCodeFrame (fun _ _ => rfl) clearCcBits_and_0xF0, conditionCodeFrame (fun _ _ => rfl) setCcBits_and_0xF0⟩,
    returnFrame endsFrom_rti, returnFrame endsFrom_rtt⟩

end Sys2Proof.Claims
end

section
/-! # What a step says to the world (spec/44_system.md R302; spec/70_reset_and_hazards.md R404)

On a bus without devices every instruction but RESET is silent, and RESET adds its one ResetOut. -/

namespace Sys2Proof.Machine

section
variable {w : Nat} {acc : Access w} (still : acc.Still) (src dst : Opnd) (s : State)
include still

theorem silent_moveOp : Silent s (moveOp acc src dst s).state :=
  Silent.bind (silent_loadOp still src s) fun _ t => silent_storeOp still _ _ dst t

theorem silent_combineOp (f : BitVec w → Cc → BitVec w → BitVec w × Cc) :
    Silent s (combineOp acc f src dst s).state :=
  Silent.bind (silent_loadOp still src s) fun _ t => silent_modifyOp still _ dst t

theorem silent_compareOp (f : BitVec w → Cc → BitVec w → Cc) : Silent s (compareOp acc f src dst s).state :=
  Silent.bind (silent_loadOp still src s) fun _ t => silent_probeOp still _ dst t

end

theorem silent_branchIf (cond : Bool) (off : BitVec 8) (s : State) : Silent s (branchIf cond off s).state := by
  unfold branchIf
  split
  · exact Silent.setReg s PC _
  · exact Silent.refl s

section
variable {s t : State}

theorem silent_retire_ok {u : State} (h : Silent s u) (k : retire (.ok () u) = .next t) : Silent s t :=
  silent_retire (r := .ok () u) h k

theorem silent_jumpWith {dst : Opnd} {body : Word → State → Res Unit} (silent : ∀ a u, Silent u (body a u).state)
    (h : jumpWith dst body s = .next t) : Silent s t := by
  have resolved := silent_resolve .word dst s
  unfold jumpWith at h
  cases place : resolve .word dst s with
  | err u =>
    rw [place] at h resolved
    cases h
    exact resolved.trans (silent_trapEntry _ u)
  | ok op u =>
    rw [place] at h resolved
    simp only at h
    split at h
    · cases h
      exact silent_trapEntry _ s
    · exact silent_retire (resolved.trans (silent _ u)) h

theorem silent_jmp {dst : Opnd} (h : execJmp dst s = .next t) : Silent s t := by
  rw [execJmp_eq] at h
  refine silent_jumpWith (fun a u => ?_) h
  exact Silent.setReg u PC a

theorem silent_jsr {r : Reg} {dst : Opnd} (h : execJsr r dst s = .next t) : Silent s t := by
  rw [execJsr_eq] at h
  refine silent_jumpWith (fun a u => ?_) h
  exact Silent.bind ((Silent.noteRead u r).trans (silent_push _ _)) fun _ x =>
    (Silent.setReg x r _).trans (Silent.setReg _ PC a)

theorem silent_rts {r : Reg} (h : execRts r s = .next t) : Silent s t :=
  silent_retire (r := (pop ((s.noteRead r).setPc (s.reg r))).bind fun v u => .ok () (u.setReg r v))
    (((Silent.noteRead s r).trans (Silent.setReg _ PC _)).trans
    (Silent.bind (silent_pop _) fun v u => Silent.setReg u r v)) h

theorem silent_sob {r : Reg} {off : BitVec 6} (h : execSob r off s = .next t) : Silent s t := by
  unfold execSob at h
  refine silent_retire_ok (((Silent.noteRead s r).trans (Silent.setReg _ r (s.reg r - 1#16))).trans ?_) h
  split
  · exact Silent.refl _
  · exact Silent.setReg _ PC _

theorem silent_mtps {src : Opnd} (h : execMtps src s = .next t) : Silent s t := by
  refine silent_retire (Silent.bind (silent_loadOp still_byteAccess src s) fun _ u => ?_) h
  exact Silent.setPsw u _

end

end Sys2Proof.Machine

namespace Sys2Proof.Claims

open Sys2Proof Sys2Proof.Machine

section
variable {i : Instr} {s t u : State}

/-- The trap in which an instruction ends adds nothing. -/
theorem silent_of_endsFrom (ends : EndsFrom i s u) (silent : Silent s u) (run : exec i s = .next t) : Silent s t := by
  have entered (v : Word) : Silent s (trapEntry v u) := silent.trans (silent_trapEntry v u)
  rcases ends with ends | ends | ends <;> (rw [ends] at run; cases run)
  · exact silent
  · exact entered 0x0004#16
  · exact entered 0x000C#16

theorem silent_halt (run : exec .halt s = .next t) : Silent s t := by
  obtain ⟨u, ends, rfl | rfl⟩ := endsFrom_halt s
  · exact silent_of_endsFrom ends (Silent.refl u) run
  · exact silent_of_endsFrom ends (.of_eq (World.halted s true) rfl) run

theorem silent_exec (notReset : i ≠ .reset) (run : exec i s = .next t) : Silent s t := by
  cases i with
  | reset => exact absurd rfl notReset
  | halt => exact silent_halt run
  | wait => exact silent_retire_ok (u := { s with waiting := true }) (.of_eq (World.waiting s true) rfl) run
  | rti => exact silent_of_endsFrom (endsFrom_rti s) (silent_returnFromTrap s) run
  | rtt => exact silent_of_endsFrom (endsFrom_rtt s) (silent_returnFromTrap s) run
  | bpt | iot | emt | trap | illegal => cases run; exact silent_trapEntry _ s
  | jmp dst => exact silent_jmp run
  | jsr r dst => exact silent_jsr run
  | rts r => exact silent_rts run
  | sob r off => exact silent_sob run
  | clcc m | secc m => exact silent_retire_ok (Silent.setPsw s _) run
  | mtps src => exact silent_mtps run
  | br | bne | beq | bge | blt | bgt | ble | bpl | bmi | bhi | blos | bvc | bvs | bcc | bcs =>
    exact silent_retire (silent_branchIf _ _ s) run
  | mov src dst => exact silent_retire (silent_moveOp still_wordAccess src dst s) run
  | movb src dst => exact silent_retire (silent_moveOp still_signedByteAccess src dst s) run
  | cmp src dst | bit src dst => exact silent_retire (silent_compareOp still_wordAccess src dst s _) run
  | cmpb src dst | bitb src dst => exact silent_retire (silent_compareOp still_byteAccess src dst s _) run
  | bic src dst | bis src dst | add src dst | sub src dst =>
    exact silent_retire (silent_combineOp still_wordAccess src dst s _) run
  | bicb src dst | bisb src dst => exact silent_retire (silent_combineOp still_byteAccess src dst s _) run
  | clr dst | sxt dst => exact silent_retire (silent_storeOp still_wordAccess _ _ dst s) run
  | clrb dst => exact silent_retire (silent_storeOp still_byteAccess _ _ dst s) run
  | mfps dst => exact silent_retire (silent_storeOp still_signedByteAccess _ _ dst s) run
  | tst dst => exact silent_retire (silent_probeOp still_wordAccess _ dst s) run
  | tstb dst => exact silent_retire (silent_probeOp still_byteAccess _ dst s) run
  | xor r dst =>
    exact silent_retire ((Silent.noteRead s r).trans (silent_modifyOp still_wordAccess _ dst _)) run
  | com dst | inc dst | dec dst | neg dst | adc dst | sbc dst | ror dst | rol dst | asr dst | asl dst | swab dst =>
    exact silent_retire (silent_modifyOp still_wordAccess _ dst s) run
  | comb dst | incb dst | decb dst | negb dst | adcb dst | sbcb dst | rorb dst | rolb dst | asrb dst | aslb dst =>
    exact silent_retire (silent_modifyOp still_byteAccess _ dst s) run

/-- RESET is silent but for its ResetOut, the trace trap after it included. -/
theorem silent_exec_reset (run : exec .reset s = .next t) : Silent (s.emit .resetOut) t :=
  silent_retire_ok (Silent.refl (s.emit .resetOut)) run

/-- The opcode fetch, after the writes of PPC and the trace latch. -/
theorem silent_fetchInstr (s : State) : Silent (beginInstr s) (fetchInstr s).state :=
  Silent.bind (silent_fetch (beginInstr s)) fun _ u => Silent.refl u

section
variable (noDevice : NoDevice s)
include noDevice

theorem noDevice_of_fetchInstr : NoDevice (fetchInstr s).state :=
  NoDevice.of_world (s := beginInstr s) noDevice (silent_fetchInstr s).toWorld

theorem fetchInstr_events : (fetchInstr s).state.events = s.events := (silent_fetchInstr s).silent noDevice

theorem events_of_step_reset (instruction : boundary s = .instruction) (fetched : fetchInstr s = .ok .reset u)
    (h : step s = .next t) : t.events = .resetOut :: s.events := by
  have events := fetchInstr_events noDevice
  have noDeviceU := noDevice_of_fetchInstr noDevice
  rw [fetched] at events noDeviceU
  rw [step_of_fetched instruction fetched] at h
  calc t.events
      = (u.emit .resetOut).events := (silent_exec_reset h).silent noDeviceU
    _ = .resetOut :: s.events := congrArg (BusEvent.resetOut :: ·) events

theorem events_of_step_not_reset (notReset : boundary s = .instruction → ∀ u, fetchInstr s ≠ .ok .reset u)
    (h : step s = .next t) : t.events = s.events := by
  have events := fetchInstr_events noDevice
  have noDeviceU := noDevice_of_fetchInstr noDevice
  cases step_cases h with
  | powerFail _ _ next =>
    rw [next]
    exact (silent_trapEntry _ { s with pfail := false }).silent noDevice
  | interrupt n _ _ _ next =>
    rw [next]
    exact (silent_trapEntry _ { s with ppc := s.pc }).silent noDevice
  | idle _ _ _ _ next => rw [next]
  | fetchFault _ u fetched next =>
    rw [fetched] at events noDeviceU
    rw [next]
    exact ((silent_trapEntry _ u).silent noDeviceU).trans events
  | executed instruction i u fetched next =>
    have other : i ≠ .reset := fun isReset => notReset instruction u (isReset ▸ fetched)
    rw [fetched] at events noDeviceU
    exact ((silent_exec other next).silent noDeviceU).trans events

end

end

/-- Settles O60: the fetch, every trap entry and every instruction but RESET are silent on a bus without devices. -/
theorem onlyResetSpeaks : Obligations.OnlyResetSpeaks := fun _ _ noDevice h =>
  ⟨fun _ instruction fetched => events_of_step_reset noDevice instruction fetched h,
    fun notReset => events_of_step_not_reset noDevice notReset h⟩

end Sys2Proof.Claims
end

section
/-! # A trap entry, bus call by bus call (spec/60_exceptions.md R360, R364) -/

namespace Sys2Proof.Machine

section
variable {v newpc newps w : Word} {s s1 s2 s3 s4 t u : State}

theorem trapEntry_of_ok (entered : trapSequence v s = .ok () t) : trapEntry v s = t := by
  rw [trapEntry, entered]

theorem trapEntry_of_err (failed : trapSequence v s = .err u) :
    trapEntry v s = { u with halted := true, doubleFault := true } := by
  rw [trapEntry, failed]

theorem trapSequence_of_first_push_err (first : push (zext16 s.psw) s = .err u) : trapSequence v s = .err u := by
  rw [trapSequence, first, Res.bind_err]

section
variable (first : push (zext16 s.psw) s = .ok () s1)
include first

theorem trapSequence_of_second_push_err (second : push s.pc s1 = .err u) : trapSequence v s = .err u := by
  rw [trapSequence, first, Res.bind_ok, second, Res.bind_err]

variable (second : push s.pc s1 = .ok () s2)
include second

theorem trapSequence_of_first_read_err (third : readWord v s2 = .err u) : trapSequence v s = .err u := by
  rw [trapSequence, first, Res.bind_ok, second, Res.bind_ok, third, Res.bind_err]

variable (third : readWord v s2 = .ok newpc s3)
include third

theorem trapSequence_of_second_read_err (fourth : readWord (v + 2#16) s3 = .err u) : trapSequence v s = .err u := by
  rw [trapSequence, first, Res.bind_ok, second, Res.bind_ok, third, Res.bind_ok, fourth, Res.bind_err]

theorem trapEntry_of_calls (fourth : readWord (v + 2#16) s3 = .ok newps s4) :
    trapEntry v s = { (s4.setPc newpc).setPsw (lo8 newps) with waiting := false } :=
  trapEntry_of_ok (by
    rw [trapSequence, first, Res.bind_ok, second, Res.bind_ok, third, Res.bind_ok, fourth, Res.bind_ok])

end

/-! ## What a completed call leaves -/

section
variable (pushed : push w s = .ok () t)
include pushed

theorem reg_of_push_ok (r : Reg) : t.reg r = (s.setSp (s.sp - 2#16)).reg r := by
  have regs := reg_writeWord (s.sp - 2#16) w (s.setSp (s.sp - 2#16)) r
  rwa [← push_eq, pushed] at regs

theorem sp_of_push_ok : t.sp = s.sp - 2#16 := (reg_of_push_ok pushed SP).trans (State.sp_setSp s _)

theorem reg_of_push_ok_of_ne {r : Reg} (notSp : r ≠ SP) : t.reg r = s.reg r :=
  (reg_of_push_ok pushed r).trans (State.reg_setReg_ne s _ notSp)

theorem quiet_of_push_ok : Quiet s t := (quiet_push w s).of_ok pushed

end

/-- Two reads change at most the history. -/
theorem state_of_reads {a b x y : Word} (first : readWord a s = .ok x t) (second : readWord b t = .ok y u) :
    u = { s with events := u.events } := by
  rw [readWord_state_of_ok second, readWord_state_of_ok first]

end

theorem exists_writeWord_ref {s : State} (ref : ReferenceBus s) (a w : Word) :
    ∃ t, writeWord a w s = .ok () t ∧ t.mem = s.mem.writeWord (evenAddr a) w ∧ ReferenceBus t :=
  ⟨_, writeWord_ref ref a w, rfl, ref⟩

/-- SP after two pushes. -/
theorem sub_two_sub_two (a : Word) : a - 2#16 - 2#16 = a - 4#16 := BitVec.sub_sub a 2#16 2#16

/-- The two stack words do not overlap, at any SP and with wrapping. -/
theorem evenAddr_sub_two_ne_sub_four (a : Word) : evenAddr (a - 2#16) ≠ evenAddr (a - 4#16) := by
  intro same
  have := congrArg BitVec.toNat same
  rw [evenAddr_toNat, evenAddr_toNat] at this
  bv_omega

end Sys2Proof.Machine
end

section
/-! # The effect of a trap entry, and of one that fails (spec/60_exceptions.md R360, R364) -/

namespace Sys2Proof.Claims

open Sys2Proof Sys2Proof.Machine

/-- Settles O21: an error of any of the four calls is the error of the whole sequence. -/
theorem doubleFaultHalts : Obligations.DoubleFaultHalts := fun _ _ =>
  ⟨fun _ first => trapEntry_of_err (trapSequence_of_first_push_err first),
    fun _ _ first second => trapEntry_of_err (trapSequence_of_second_push_err first second),
    fun _ _ _ first second third => trapEntry_of_err (trapSequence_of_first_read_err first second third),
    fun _ _ _ _ _ first second third fourth =>
      trapEntry_of_err (trapSequence_of_second_read_err first second third fourth)⟩

/-- Where the four calls answer, the registers change by the two pushes and the write of pc alone. -/
theorem trapEntry_effect {v newpc newps : Word} {s s1 s2 s3 s4 : State}
    (firstWrite : writeWord (s.sp - 2#16) (zext16 s.psw) (s.setSp (s.sp - 2#16)) = .ok () s1)
    (secondWrite : writeWord (s.sp - 4#16) s.pc (s1.setSp (s.sp - 4#16)) = .ok () s2)
    (firstRead : readWord v s2 = .ok newpc s3) (secondRead : readWord (v + 2#16) s3 = .ok newps s4) :
    let t := trapEntry v s
    t = { (s4.setPc newpc).setPsw (lo8 newps) with waiting := false } ∧ t.sp = s.sp - 4#16 ∧ t.pc = newpc ∧
    t.mem = s2.mem ∧ t.halted = s.halted ∧ t.doubleFault = s.doubleFault ∧
    ∀ r : Reg, r ≠ SP → r ≠ PC → t.reg r = s.reg r := by
  have first : push (zext16 s.psw) s = .ok () s1 := (push_eq _ s).trans firstWrite
  have second : push s.pc s1 = .ok () s2 := by
    rw [push_eq, sp_of_push_ok first, sub_two_sub_two]
    exact secondWrite
  have entered := trapEntry_of_calls first second firstRead secondRead
  have reads := state_of_reads firstRead secondRead
  have quiet := (quiet_of_push_ok first).trans (quiet_of_push_ok second)
  have regs : ∀ r : Reg, s4.reg r = s2.reg r := fun r => by rw [reads]; rfl
  refine ⟨entered, ?sp, ?pc, ?mem, ?halted, ?doubleFault, fun r notSp notPc => ?general⟩ <;> rw [entered]
  case sp =>
    calc (s4.setPc newpc).sp = s4.sp := State.sp_setPc s4 newpc
      _ = s2.sp := regs SP
      _ = s.sp - 4#16 := by rw [sp_of_push_ok second, sp_of_push_ok first, sub_two_sub_two]
  case pc => exact State.pc_setPc s4 newpc
  case mem => exact (congrArg State.mem reads :)
  case halted => exact (congrArg State.halted reads).trans quiet.halted
  case doubleFault => exact (congrArg State.doubleFault reads).trans quiet.sameFault
  case general =>
    calc (s4.setPc newpc).reg r = s4.reg r := State.reg_setReg_ne s4 newpc notPc
      _ = s2.reg r := regs r
      _ = s.reg r := by rw [reg_of_push_ok_of_ne second notSp, reg_of_push_ok_of_ne first notSp]

/-- Settles O19: on the reference bus the four calls answer, and the second push leaves the word of the first. -/
theorem trapEntryEffect : Obligations.TrapEntryEffect := by
  refine ⟨fun _ _ _ _ _ _ _ _ => trapEntry_effect, ?_⟩
  intro v s ref m
  obtain ⟨s1, first, mem1, ref1⟩ := exists_writeWord_ref (s := s.setSp (s.sp - 2#16)) ref (s.sp - 2#16) (zext16 s.psw)
  obtain ⟨s2, second, mem2, ref2⟩ := exists_writeWord_ref (s := s1.setSp (s.sp - 4#16)) ref1 (s.sp - 4#16) s.pc
  have stacked : s2.mem = m := by
    rw [mem2, State.setSp_mem, mem1]
    rfl
  obtain ⟨entered, sp, pc, mem, halted, doubleFault, general⟩ :=
    trapEntry_effect first second (readWord_ref ref2 v) (readWord_ref ref2 (v + 2#16))
  rw [stacked] at entered pc mem
  refine ⟨mem, sp, pc, congrArg State.psw entered, congrArg State.waiting entered, halted, doubleFault, general,
    Memory.readWord_writeWord_self _ _ _, ?_⟩
  calc m.readWord (evenAddr (s.sp - 2#16))
      = (s.mem.writeWord (evenAddr (s.sp - 2#16)) (zext16 s.psw)).readWord (evenAddr (s.sp - 2#16)) :=
        (Memory.readWord_writeWord_even _ _ _ _).trans (if_neg (evenAddr_sub_two_ne_sub_four s.sp))
    _ = zext16 s.psw := Memory.readWord_writeWord_self _ _ _

end Sys2Proof.Claims
end

section
/-! # What a trap entry leaves alone (spec/60_exceptions.md R341, R360) -/

namespace Sys2Proof.Claims

open Sys2Proof Sys2Proof.Machine

/-- Registers but SP and PC with their marks, the mark of a read, and every byte outside the list stay. -/
structure StackFrame (bytes : List Nat) (s t : State) : Prop where
  regs : KeepsRegs s t [SP, PC]
  unwrittenRead : t.unwrittenRead = s.unwrittenRead
  mem : ∀ x ∉ bytes, t.mem.read x = s.mem.read x

section
variable {bytes : List Nat} {s t u : State}

theorem StackFrame.trans (h : StackFrame bytes s t) (k : StackFrame bytes t u) : StackFrame bytes s u where
  regs := fun r other =>
    ⟨(k.regs r other).1.trans (h.regs r other).1, (k.regs r other).2.trans (h.regs r other).2⟩
  unwrittenRead := k.unwrittenRead.trans h.unwrittenRead
  mem := fun x other => (k.mem x other).trans (h.mem x other)

theorem StackFrame.bind {α β : Type} {r : Res α} {f : α → State → Res β} (first : StackFrame bytes s r.state)
    (rest : ∀ a t, r = .ok a t → StackFrame bytes t (f a t).state) : StackFrame bytes s (r.bind f).state := by
  cases r with
  | ok a t => exact first.trans (rest a t rfl)
  | err t => exact first

variable (bytes s)

theorem StackFrame.push (within : storedBytes s.params .word (.mem (s.sp - 2#16)) ⊆ bytes) (w : Word) :
    StackFrame bytes s (push w s).state where
  regs := (Frame.push 0#8 s List.mem_cons_self w).regs
  unwrittenRead := (notesOnly_push [] w s).eq
  mem := fun _ other => read_of_push (fun stored => other (within stored)) w

theorem StackFrame.readWord (a : Word) : StackFrame bytes s (readWord a s).state where
  regs := .of_eq (readWord_regs a s) (readWord_written a s) _
  unwrittenRead := (notesOnly_readWord [] a s).eq
  mem := fun _ _ => by rw [readWord_mem]

/-- The writes at the end of a trap entry. -/
theorem StackFrame.enter (newpc : Word) (newps : Byte) :
    StackFrame bytes s { (s.setPc newpc).setPsw newps with waiting := false } where
  regs := (Frame.setPc (changed := [SP, PC]) 0#8 s (by decide) newpc).regs
  unwrittenRead := rfl
  mem := fun _ _ => rfl

end

/-- The bytes of the two words that a trap entry from `s` pushes. -/
def entryBytes (s : State) : List Nat :=
  storedBytes s.params .word (.mem (s.sp - 2#16)) ++ storedBytes s.params .word (.mem (s.sp - 4#16))

theorem stackFrame_trapSequence (v : Word) (s : State) : StackFrame (entryBytes s) s (trapSequence v s).state := by
  refine .bind (.push _ s (List.subset_append_left _ _) _) fun _ s1 first => ?_
  have second : storedBytes s1.params .word (.mem (s1.sp - 2#16)) ⊆ entryBytes s := by
    rw [(quiet_of_push_ok first).params, sp_of_push_ok first, sub_two_sub_two]
    exact List.subset_append_right _ _
  exact .bind (.push _ s1 second _) fun _ s2 _ => .bind (.readWord _ s2 v) fun newpc s3 _ =>
    .bind (.readWord _ s3 _) fun newps s4 _ => .enter _ s4 newpc (lo8 newps)

/-- A double fault adds nothing but the halted state and its mark. -/
theorem stackFrame_trapEntry (v : Word) (s : State) : StackFrame (entryBytes s) s (trapEntry v s) := by
  have sequence := stackFrame_trapSequence v s
  cases calls : trapSequence v s with
  | ok _ t =>
    rw [calls] at sequence
    rwa [trapEntry_of_ok calls]
  | err u =>
    rw [calls] at sequence
    rw [trapEntry_of_err calls]
    exact ⟨sequence.regs, sequence.unwrittenRead, sequence.mem⟩

/-- Settles O20: the fields that nothing inside a step changes, and the frame of the pushes and reads. -/
theorem trapEntryFrame : Obligations.TrapEntryFrame := by
  intro v s t
  have silent : Silent s t := silent_trapEntry v s
  have frame := stackFrame_trapEntry v s
  refine ⟨frame.regs, silent.ppc, silent.tstart, silent.pfail, silent.resetFault, frame.unwrittenRead, silent.lines,
    silent.params, silent.silent, fun x notFirst notSecond => frame.mem x fun stored => ?_⟩
  exact (List.mem_append.1 stored).elim notFirst notSecond

end Sys2Proof.Claims
end

section
/-! # The round trip of a trap entry and a return (spec/60_exceptions.md R365) -/

namespace Sys2Proof.Machine

/-- A read that leaves no trace answers the same in any state with the parameters, memory and history. -/
theorem readWord_of_same_bus {a w : Word} {s c : State} (params : c.params = s.params) (mem : c.mem = s.mem)
    (events : c.events = s.events) (read : readWord a s = .ok w s) : readWord a c = .ok w c := by
  have same := (readWord_congr params mem events).1 w s read
  rwa [← events] at same

/-- A return whose two reads answer and leave no trace in the history: it moves past both words. -/
theorem returnFromTrap_of_reads {s : State} {a p : Word} (first : readWord s.sp s = .ok a s)
    (second : readWord (s.sp + 2#16) s = .ok p s) :
    returnFromTrap s =
      .ok () ((((s.setSp (s.sp + 2#16)).setPc a).setSp (s.sp + 2#16 + 2#16)).setPsw (lo8 p)) := by
  have secondPop : pop ((s.setSp (s.sp + 2#16)).setPc a) = .ok p _ := pop_of_ok (by
    rw [State.sp_setPc, State.sp_setSp]
    exact readWord_of_same_bus (s := s) rfl rfl rfl second)
  rw [State.sp_setPc, State.sp_setSp] at secondPop
  exact returnFromTrap_of_ok (pop_of_ok first) secondPop

end Sys2Proof.Machine

namespace Sys2Proof.Claims

open Sys2Proof Sys2Proof.Machine

/-- What the stack holds right after an entry on the reference bus: the pc below the PSW. -/
theorem readWord_trapEntry {s : State} (ref : ReferenceBus s) (v : Word) :
    readWord (trapEntry v s).sp (trapEntry v s) = .ok s.pc (trapEntry v s) ∧
    readWord ((trapEntry v s).sp + 2#16) (trapEntry v s) = .ok (zext16 s.psw) (trapEntry v s) := by
  obtain ⟨mem, sp, _, _, _, _, _, _, pcWord, pswWord⟩ := trapEntryEffect.2 v s ref
  have ref' : ReferenceBus (trapEntry v s) := ref.of_world (world_trapEntry v s)
  have above : s.sp - 4#16 + 2#16 = s.sp - 2#16 := by bv_omega
  rw [readWord_ref ref', readWord_ref ref', mem, sp, above]
  exact ⟨congrArg (Res.ok · _) pcWord, congrArg (Res.ok · _) pswWord⟩

/-- Settles O25: the entry leaves pc below the PSW on the stack, and a return pops them in that order. -/
theorem returnRestoresExactly : Obligations.ReturnRestoresExactly := by
  intro v s h ref _ sp pcRead pswRead
  obtain ⟨_, entrySp, _⟩ := trapEntryEffect.2 v s ref
  obtain ⟨pcStacked, pswStacked⟩ := readWord_trapEntry ref v
  have returned := returnFromTrap_of_reads pcRead pswRead
  have frame := frame_returnFromTrap h
  rw [show lo8 (s.psw.setWidth 16) = s.psw from lo8_zext16 s.psw] at returned
  rw [returned] at frame
  refine ⟨⟨_, pcStacked⟩, ⟨_, pswStacked⟩, _, exec_rtt_of_ok returned, ?pc, rfl, ?sp, ?general, rfl,
    exec_rti_of_ok returned⟩
  case pc => rw [State.pc_setPsw, State.pc_setSp, State.pc_setPc]
  case sp =>
    rw [State.sp_setPsw, State.sp_setSp, sp, entrySp]
    bv_omega
  case general => exact fun r notSp notPc => (frame.regs r (by simp [notSp, notPc])).1

end Sys2Proof.Claims
end

section
/-! # The line taken (spec/60_exceptions.md R357, R359) -/

namespace Sys2Proof.Machine

/-- Line `n` is of greater priority than line `m`, or of equal priority and no lower number. -/
def YieldsTo (s : State) (m n : Fin 4) : Prop :=
  s.params.linePriority[m].toNat < s.params.linePriority[n].toNat ∨
  (s.params.linePriority[m].toNat = s.params.linePriority[n].toNat ∧ m ≤ n)

/-- The best of the qualifying lines below number `k`, if any qualifies. -/
def BestBelow (s : State) (k : Nat) : Option (Fin 4) → Prop
  | none => ∀ m : Fin 4, m.val < k → ¬ qualifies s m = true
  | some n => n.val < k ∧ qualifies s n = true ∧ ∀ m : Fin 4, m.val < k → qualifies s m = true → YieldsTo s m n

section
variable {s : State}

theorem qualifies_iff {n : Fin 4} : qualifies s n = true ↔
    s.lines[n].active = true ∧ s.psw.toNat / 32 < s.params.linePriority[n].toNat := by
  rw [qualifies, Bool.and_eq_true, BitVec.ult_iff_lt, BitVec.lt_def, priOf_toNat]

theorem YieldsTo.refl (n : Fin 4) : YieldsTo s n n := .inr ⟨rfl, Fin.le_refl n⟩

theorem YieldsTo.trans {l m n : Fin 4} (h : YieldsTo s l m) (k : YieldsTo s m n) : YieldsTo s l n := by
  unfold YieldsTo at *
  omega

theorem YieldsTo.antisymm {m n : Fin 4} (h : YieldsTo s m n) (k : YieldsTo s n m) : m = n := by
  unfold YieldsTo at *
  omega

section
variable {n : Fin 4}

theorem betterLine_of_not_qualifies (not : ¬ qualifies s n = true) (best : Option (Fin 4)) :
    betterLine s best n = best := if_neg not

theorem betterLine_none (asks : qualifies s n = true) : betterLine s none n = some n := if_pos asks

/-- The new line, which has the higher number, wins unless its priority is lower. -/
theorem betterLine_some (asks : qualifies s n = true) {m : Fin 4} (lower : m < n) :
    (betterLine s (some m) n = some n ∧ YieldsTo s m n) ∨ (betterLine s (some m) n = some m ∧ YieldsTo s n m) := by
  unfold YieldsTo
  simp only [betterLine, asks, if_true, BitVec.ule_iff_le, BitVec.le_def]
  split
  · exact .inl ⟨rfl, by omega⟩
  · exact .inr ⟨rfl, by omega⟩

/-- A line below number `n + 1` is line `n` or below it. -/
theorem forall_below_succ {p : Fin 4 → Prop} (last : p n) (below : ∀ m : Fin 4, m.val < n.val → p m) (m : Fin 4)
    (within : m.val < n.val + 1) : p m := by
  rcases Nat.lt_succ_iff_lt_or_eq.1 within with lower | same
  · exact below m lower
  · exact Fin.ext same ▸ last

/-- `betterLine` takes one more line into account. -/
theorem bestBelow_betterLine {best : Option (Fin 4)} (h : BestBelow s n.val best) :
    BestBelow s (n.val + 1) (betterLine s best n) := by
  by_cases asks : qualifies s n = true
  · cases best with
    | none =>
      rw [betterLine_none asks]
      exact ⟨Nat.lt_succ_self _, asks, forall_below_succ (fun _ => .refl n) fun m lower other => absurd other (h m lower)⟩
    | some m =>
      obtain ⟨lower, asked, best⟩ := h
      rcases betterLine_some asks lower with ⟨new, yields⟩ | ⟨old, yields⟩
      · rw [new]
        exact ⟨Nat.lt_succ_self _, asks,
          forall_below_succ (fun _ => .refl n) fun l below other => (best l below other).trans yields⟩
      · rw [old]
        exact ⟨Nat.lt_succ_of_lt lower, asked, forall_below_succ (fun _ => yields) best⟩
  · rw [betterLine_of_not_qualifies asks]
    cases best with
    | none => exact forall_below_succ asks h
    | some m =>
      obtain ⟨lower, asked, best⟩ := h
      exact ⟨Nat.lt_succ_of_lt lower, asked, forall_below_succ (absurd · asks) best⟩

end

theorem bestBelow_bestLine (s : State) : BestBelow s 4 (bestLine s) := by
  have zero : BestBelow s (0 : Fin 4).val none := fun m below => absurd below (Nat.not_lt_zero _)
  have one : BestBelow s (1 : Fin 4).val _ := bestBelow_betterLine zero
  have two : BestBelow s (2 : Fin 4).val _ := bestBelow_betterLine one
  have three : BestBelow s (3 : Fin 4).val _ := bestBelow_betterLine two
  exact bestBelow_betterLine three

theorem bestLine_eq_none_iff : bestLine s = none ↔ ∀ n, ¬ qualifies s n = true := by
  have best := bestBelow_bestLine s
  constructor
  · intro taken n
    rw [taken] at best
    exact best n n.isLt
  · intro nothing
    cases taken : bestLine s with
    | none => rfl
    | some n =>
      rw [taken] at best
      exact absurd best.2.1 (nothing n)

theorem bestLine_eq_some_iff {n : Fin 4} :
    bestLine s = some n ↔ qualifies s n = true ∧ ∀ m, qualifies s m = true → YieldsTo s m n := by
  have best := bestBelow_bestLine s
  cases taken : bestLine s with
  | none =>
    rw [taken] at best
    exact ⟨(nomatch ·), fun ⟨asked, _⟩ => absurd asked (best n n.isLt)⟩
  | some k =>
    rw [taken] at best
    obtain ⟨_, asks, yields⟩ := best
    constructor
    · rintro ⟨⟩
      exact ⟨asks, fun m => yields m m.isLt⟩
    · rintro ⟨asked, others⟩
      exact congrArg some ((others k asks).antisymm (yields n n.isLt asked))

end

end Sys2Proof.Machine

namespace Sys2Proof.Claims

open Sys2Proof Sys2Proof.Machine

/-- Settles O27: `bestLine` takes the lines into account one by one, and `YieldsTo` is an order of them. -/
theorem lineSelection : Obligations.LineSelection := by
  intro s level asks
  have asks_iff : ∀ n, qualifies s n = true ↔ asks n := fun n => qualifies_iff
  have none_iff : bestLine s = none ↔ ∀ n, ¬ asks n := by
    simpa only [asks_iff] using bestLine_eq_none_iff (s := s)
  refine ⟨fun n => ?_, none_iff, fun highest => none_iff.2 fun n asked => ?_⟩
  · have some_iff := bestLine_eq_some_iff (s := s) (n := n)
    simp only [asks_iff] at some_iff
    exact some_iff
  · have bound : s.params.linePriority[n].toNat < 8 := BitVec.isLt _
    have above : s.psw.toNat / 32 < s.params.linePriority[n].toNat := asked.2
    omega

end Sys2Proof.Claims
end

section
/-! # The order of a core step, and what it accepts (spec/60_exceptions.md R344, R347, R361, R370) -/

namespace Sys2Proof.Machine

section
variable {s t : State} {w : Word}

theorem step_of_fetch_ok (instruction : boundary s = .instruction) (fetched : fetch (beginInstr s) = .ok w t) :
    step s = exec (decode w) t :=
  step_of_fetched instruction (by rw [fetchInstr, fetched, Res.bind_ok])

theorem step_of_fetch_err (instruction : boundary s = .instruction) (failed : fetch (beginInstr s) = .err t) :
    step s = .next (busErrorTrap t) := by
  have fetched : fetchInstr s = .err t := by rw [fetchInstr, failed, Res.bind_err]
  simp only [step, instruction, fetched]

theorem step_of_pfail (running : s.halted = false) (request : s.pfail = true) :
    step s = .next (acceptPowerFail s) :=
  step_of_taken (boundary_of_pfail running request)

section
variable (running : s.halted = false) (noRequest : s.pfail = false)
include running noRequest

theorem step_of_bestLine {n : Fin 4} (line : bestLine s = some n) : step s = .next (acceptLine n s) :=
  step_of_taken (boundary_of_bestLine running noRequest line)

theorem step_of_held (noLine : bestLine s = none) (waiting : s.waiting = true) : step s = .next s :=
  step_of_taken (by simp [boundary, running, noRequest, noLine, waiting])

end

end

end Sys2Proof.Machine

namespace Sys2Proof.Claims

open Sys2Proof Sys2Proof.Machine

/-- Settles O22: an illegal word decodes to the illegal instruction, and JMP and JSR share their register mode. -/
theorem illegalInstructionTraps : Obligations.IllegalInstructionTraps := by
  refine ⟨fun s t w instruction fetched illegal => ?_, fun _ _ => rfl,
    fun r s => (execJmp_eq ⟨.register, r⟩ s).trans (jumpWith_of_register _ rfl),
    fun l r s => (execJsr_eq l ⟨.register, r⟩ s).trans (jumpWith_of_register _ rfl)⟩
  rw [step_of_fetch_ok instruction fetched, decode_of_illegalBlock (illegalBlock_of_isIllegalWord illegal)]
  rfl

/-- Settles O26: one lemma for each place in the order. -/
theorem stepOrder : Obligations.StepOrder := fun _ =>
  ⟨fun halted => ⟨_, step_of_halted halted⟩, step_of_pfail,
    fun _ running noRequest line => step_of_bestLine running noRequest line, step_of_held,
    fun running noRequest noLine notWaiting =>
      have instruction := boundary_of_nothing_taken running noRequest noLine notWaiting
      ⟨fun _ _ => step_of_fetch_ok instruction, fun _ => step_of_fetch_err instruction⟩⟩

/-- Settles O28: both are trap entries, and a trap entry keeps PPC, the request and the lines. -/
theorem asynchronousAcceptance : Obligations.AsynchronousAcceptance := by
  intro s running
  refine ⟨fun request => ?_, fun n noRequest line => ?_⟩
  · have world := world_acceptPowerFail s
    exact ⟨_, step_of_pfail running request, rfl, world.pfail, world.ppc⟩
  · have world := world_acceptLine n s
    exact ⟨_, step_of_bestLine running noRequest line, rfl, world.ppc, world.lines⟩

end Sys2Proof.Claims
end

section
/-! # The end of a run (spec/70_reset_and_hazards.md R406; spec/10_state.md R46, R51)

A core that is not halted is halted by HALT under HALT_ACTION = STOP, and otherwise only by a double fault. -/

namespace Sys2Proof.Machine

section
variable {s t : State}

/-! ## The answer of a step -/

/-- A core that is not halted takes a step, at each place in the order of spec/60_exceptions.md R370. -/
theorem step_next_of_running (running : s.halted = false) : ∃ t, step s = .next t := by
  cases request : s.pfail with
  | true => exact ⟨_, step_of_pfail running request⟩
  | false =>
    cases line : bestLine s with
    | some n => exact ⟨_, step_of_bestLine running request line⟩
    | none =>
      cases waiting : s.waiting with
      | true => exact ⟨_, step_of_held running request line waiting⟩
      | false =>
        have instruction := boundary_of_nothing_taken running request line waiting
        cases fetched : fetch (beginInstr s) with
        | err u => exact ⟨_, step_of_fetch_err instruction fetched⟩
        | ok w u =>
          obtain ⟨t, run, _⟩ := exec_next (decode w) u
          exact ⟨t, (step_of_fetch_ok instruction fetched).trans run⟩

theorem running_of_instruction (instruction : boundary s = .instruction) : s.halted = false := by
  cases halted : s.halted with
  | false => rfl
  | true => simp [boundary, halted] at instruction

theorem endedWell_iff : endedWell t = true ↔
    t.halted = true ∧ t.doubleFault = false ∧ t.resetFault = false ∧ t.unwrittenRead = none := by
  simp [endedWell, and_assoc]

/-- `.halted` is the reason that no fault mark gives (log 9). -/
theorem haltReason_eq_halted_iff : haltReason t = .halted ↔
    t.doubleFault = false ∧ t.resetFault = false ∧ t.unwrittenRead = none := by
  unfold haltReason
  split_ifs with double reset
  · simp [double]
  · simp [reset]
  · cases mark : t.unwrittenRead <;> simp [double, reset]

theorem step_eq_halted_iff : step t = .fault .halted ↔
    t.halted = true ∧ t.doubleFault = false ∧ t.resetFault = false ∧ t.unwrittenRead = none := by
  cases halted : t.halted with
  | true => simp [step_of_halted halted, haltReason_eq_halted_iff]
  | false =>
    obtain ⟨u, next⟩ := step_next_of_running halted
    simp [next]

/-! ## What halts a core -/

/-- A state that is halted, if it is, by a double fault (spec/60_exceptions.md R364). -/
def HaltedByFault (t : State) : Prop := t.halted = true → t.doubleFault = true

theorem HaltedByFault.of_running (running : t.halted = false) : HaltedByFault t := fun halted =>
  absurd (running.symm.trans halted) Bool.false_ne_true

theorem trapSequence_halted (v : Word) (s : State) : (trapSequence v s).state.halted = s.halted :=
  Res.bind_keeps State.halted (quiet_push _ s).halted fun _ s1 _ =>
    Res.bind_keeps State.halted (quiet_push _ s1).halted fun _ s2 _ =>
      Res.bind_keeps State.halted (quiet_readWord v s2).halted fun _ s3 _ =>
        Res.bind_keeps State.halted (quiet_readWord _ s3).halted fun _ _ _ => rfl

theorem haltedByFault_trapEntry (v : Word) (running : s.halted = false) : HaltedByFault (trapEntry v s) := by
  have latch := trapSequence_halted v s
  cases calls : trapSequence v s with
  | ok _ u =>
    rw [calls] at latch
    rw [trapEntry_of_ok calls]
    exact .of_running (latch.trans running)
  | err u =>
    rw [trapEntry_of_err calls]
    exact fun _ => rfl

end

end Sys2Proof.Machine

namespace Sys2Proof.Claims

open Sys2Proof Sys2Proof.Machine

section
variable {i : Instr} {s t u : State} (running : s.halted = false) (run : exec i s = .next t)
include running run

/-- The trap in which an instruction ends halts only by a double fault. -/
theorem haltedByFault_of_endsFrom (ends : EndsFrom i s u) (latch : u.halted = s.halted) : HaltedByFault t := by
  have stillRunning : u.halted = false := latch.trans running
  rcases ends with ends | ends | ends <;> (rw [ends] at run; cases run)
  · exact .of_running stillRunning
  · exact haltedByFault_trapEntry _ stillRunning
  · exact haltedByFault_trapEntry _ stillRunning

/-- The shape of the frame statements, of which the halt state is a part. -/
theorem haltedByFault_of_frame {before after : State → Prop}
    (frame : ∃ u, EndsFrom i s u ∧ before u ∧ KeepsExecution i s u ∧ after u) : HaltedByFault t := by
  obtain ⟨u, ends, _, ⟨_, latch, _⟩, _⟩ := frame
  exact haltedByFault_of_endsFrom running run ends latch

/-- JMP and JSR, whose frames leave out register mode, trap in it. -/
theorem haltedByFault_of_jumpWith {d : Opnd} {body : Word → State → Res Unit} (jump : exec i s = jumpWith d body s)
    (memory : d.mode ≠ .register → HaltedByFault t) : HaltedByFault t := by
  by_cases register : d.mode = .register
  · rw [jump, jumpWith_of_register body register] at run
    cases run
    exact haltedByFault_trapEntry _ running
  · exact memory register

end

/-- Every instruction but HALT keeps the halt state up to its trap, as its frame says. -/
theorem haltedByFault_exec {i : Instr} {s t : State} (notHalt : i ≠ .halt) (running : s.halted = false)
    (run : exec i s = .next t) : HaltedByFault t := by
  obtain ⟨words, wordCounts, sxt, xor, bytes, byteCounts⟩ := singleOperandFrame
  obtain ⟨wordMoves, wordSums, byteMoves⟩ := doubleOperandFrame
  obtain ⟨compares, bitTests, tests, mtps⟩ := readOnlyOperandFrame
  obtain ⟨branches, sob, jmp, rts, jsr⟩ := controlFrame
  cases i with
  | halt => exact absurd rfl notHalt
  | wait =>
    exact haltedByFault_of_endsFrom running run (endsFrom_retire (r := .ok () { s with waiting := true }) rfl) rfl
  | reset => exact haltedByFault_of_endsFrom running run (endsFrom_retire (r := .ok () (s.emit .resetOut)) rfl) rfl
  | clcc m =>
    exact haltedByFault_of_endsFrom running run
      (endsFrom_retire (r := .ok () (s.setPsw (clearCcBits s.psw m))) rfl) rfl
  | secc m =>
    exact haltedByFault_of_endsFrom running run (endsFrom_retire (r := .ok () (s.setPsw (setCcBits s.psw m))) rfl) rfl
  | rti => exact haltedByFault_of_frame running run (returnFrame endsFrom_rti s)
  | rtt => exact haltedByFault_of_frame running run (returnFrame endsFrom_rtt s)
  | bpt | iot | emt | trap | illegal => cases run; exact haltedByFault_trapEntry _ running
  | jmp d =>
    exact haltedByFault_of_jumpWith running run (execJmp_eq d s) fun memory =>
      haltedByFault_of_frame running run (jmp d s memory)
  | jsr r d =>
    exact haltedByFault_of_jumpWith running run (execJsr_eq r d s) fun memory =>
      haltedByFault_of_frame running run (jsr r d s memory)
  | rts r => exact haltedByFault_of_frame running run (rts r s)
  | sob r off => exact haltedByFault_of_frame running run (sob r off s)
  | br off | bne off | beq off | bge off | blt off | bgt off | ble off | bpl off | bmi off | bhi off | blos off
  | bvc off | bvs off | bcc off | bcs off =>
    exact haltedByFault_of_frame running run (branches _ (by simp) off s)
  | clr d | com d | neg d | adc d | sbc d | ror d | rol d | asr d | asl d | swab d =>
    exact haltedByFault_of_frame running run (words _ (by simp) d s)
  | inc d | dec d => exact haltedByFault_of_frame running run (wordCounts _ (by simp) d s)
  | sxt d => exact haltedByFault_of_frame running run (sxt d s)
  | xor r d => exact haltedByFault_of_frame running run (xor r d s)
  | clrb d | comb d | negb d | adcb d | sbcb d | rorb d | rolb d | asrb d | aslb d =>
    exact haltedByFault_of_frame running run (bytes _ (by simp) d s)
  | incb d | decb d | mfps d => exact haltedByFault_of_frame running run (byteCounts _ (by simp) d s)
  | mov src dst | bic src dst | bis src dst =>
    exact haltedByFault_of_frame running run (wordMoves _ (by simp) src dst s)
  | add src dst | sub src dst => exact haltedByFault_of_frame running run (wordSums _ (by simp) src dst s)
  | movb src dst | bicb src dst | bisb src dst =>
    exact haltedByFault_of_frame running run (byteMoves _ (by simp) src dst s)
  | cmp src dst | cmpb src dst => exact haltedByFault_of_frame running run (compares _ (by simp) src dst s)
  | bit src dst | bitb src dst => exact haltedByFault_of_frame running run (bitTests _ (by simp) src dst s)
  | tst d | tstb d => exact haltedByFault_of_frame running run (tests _ (by simp) d s)
  | mtps src => exact haltedByFault_of_frame running run (mtps src s)

/-- A step halts the core by a HALT it has fetched under HALT_ACTION = STOP, or by a double fault. -/
theorem step_halts {s t : State} (h : step s = .next t) : HaltedByFault t ∨
    (s.params.haltAction = .stop ∧ ∃ u, fetchInstr s = .ok .halt u ∧ t = { u with halted := true }) := by
  cases step_cases h with
  | powerFail running _ next =>
    subst next
    exact .inl (haltedByFault_trapEntry _ running)
  | interrupt n running _ _ next =>
    subst next
    exact .inl (haltedByFault_trapEntry _ running)
  | idle running _ _ _ next =>
    subst next
    exact .inl (.of_running running)
  | fetchFault instruction u fetched next =>
    have running : s.halted = false := running_of_instruction instruction
    subst next
    exact .inl (haltedByFault_trapEntry _ ((quiet_of_fetchInstr_err fetched).halted.trans running))
  | executed instruction i u fetched next =>
    have quiet := quiet_of_fetchInstr_ok fetched
    have running : s.halted = false := running_of_instruction instruction
    have runningU : u.halted = false := quiet.halted.trans running
    by_cases isHalt : i = .halt
    · subst isHalt
      cases action : u.params.haltAction with
      | stop =>
        rw [exec_halt_of_stop action] at next
        cases next
        exact .inr ⟨(congrArg Params.haltAction quiet.params).symm.trans action, u, fetched, rfl⟩
      | trap4 =>
        rw [exec_halt_of_trap4 action] at next
        cases next
        exact .inl (haltedByFault_trapEntry _ runningU)
    · exact .inl (haltedByFault_exec isHalt runningU next)

/-- No step clears the mark UnwrittenRegister (log 1). -/
theorem unwrittenRead_eq_none_of_step {s t : State} (h : step s = .next t) (noMark : t.unwrittenRead = none) :
    s.unwrittenRead = none := by
  obtain ⟨_, _, _, _, stays, _⟩ := stepLeavesEnvironment s t h
  cases mark : s.unwrittenRead with
  | none => rfl
  | some r => exact absurd ((stays r mark).symm.trans noMark) (Option.some_ne_none r)

/-- Settles O58: a state that has ended well is halted without a double fault, which of the ways in which a step halts
leaves HALT alone. -/
theorem endedWellOnlyByHalt : Obligations.EndedWellOnlyByHalt := by
  refine ⟨fun t => ⟨endedWell_iff, endedWell_iff.trans step_eq_halted_iff.symm⟩, fun s t h ended => ?_⟩
  obtain ⟨halted, noDoubleFault, _, noMark⟩ := endedWell_iff.1 ended
  rcases step_halts h with byFault | ⟨stop, fetched⟩
  · exact absurd (noDoubleFault.symm.trans (byFault halted)) Bool.false_ne_true
  · exact ⟨stop, unwrittenRead_eq_none_of_step h noMark, fetched⟩

end Sys2Proof.Claims
end

section
/-! # The core reset (spec/70_reset_and_hazards.md R390 to R392) -/

namespace Sys2Proof.Machine

/-! ## The state from which the reset words are read -/

section
variable (initPsw : Word) (s : State)

theorem resetStart_written {r : Reg} (notSp : r ≠ SP) (notPc : r ≠ PC) :
    (resetStart initPsw s).written[r] = false := by
  have general : ∀ (sp pc : Bool) (r : Reg), r ≠ SP → r ≠ PC →
      #v[false, false, false, false, false, false, sp, pc][r] = false := by decide
  exact general _ _ r notSp notPc

theorem written_setPc_setSp (w x : Word) (r : Reg) : ((s.setPc w).setSp x).written[r] =
    if r = SP then true else if r = PC then true else s.written[r] := by
  rw [State.setSp_eq, State.written_setReg, State.setPc_eq, State.written_setReg]

end

/-! ## The reads of the reset words, and what follows them -/

section
variable {initPsw w : Word} {s u v t : State}

/-- As for reads that answer, a failure is that of any state with the parameters, memory and history. -/
theorem resetWords_of_first_err {c : State} (params : c.params = s.params) (mem : c.mem = s.mem)
    (events : c.events = s.events) (first : readWord 0x0000#16 s = .err u) :
    resetWords c = .err { c with events := u.events } := by
  rw [resetWords, (readWord_congr params mem events).2 u first, Res.bind_err]

theorem resetWords_of_second_err {c : State} (params : c.params = s.params) (mem : c.mem = s.mem)
    (events : c.events = s.events) (first : readWord 0x0000#16 s = .ok w u) (second : readWord 0x0002#16 u = .err v) :
    resetWords c = .err { c with events := v.events } := by
  have unchanged := readWord_state_of_ok first
  have paramsU : u.params = s.params := by rw [unchanged]
  have memU : u.mem = s.mem := by rw [unchanged]
  have second' := (readWord_congr (c := { c with events := u.events }) (params.trans paramsU.symm)
    (mem.trans memU.symm) rfl).2 v second
  rw [resetWords, (readWord_congr params mem events).1 w u first, Res.bind_ok, second', Res.bind_err]

theorem hostReset_of_ok {newpc newsp : Word} (words : resetWords (resetStart initPsw s) = .ok (newpc, newsp) t) :
    hostReset initPsw s = { (t.setPc newpc).setSp newsp with ppc := newpc } := by
  rw [resetStart] at words
  simp only [hostReset, words]

theorem hostReset_of_err (failed : resetWords (resetStart initPsw s) = .err t) :
    hostReset initPsw s = { t with halted := true, resetFault := true } := by
  rw [resetStart] at failed
  simp only [hostReset, failed]

end

theorem quiet_resetWords (s : State) : Quiet s (resetWords s).state :=
  Quiet.bind (quiet_readWord _ s) fun _ t => Quiet.bind (quiet_readWord _ t) fun _ u => Quiet.refl u

/-! ## The invariant -/

section
variable {s t : State}

theorem State.Inv.of_world (inv : s.Inv) (world : World s t) : t.Inv := by
  obtain ⟨canonical, spWritten, pcWritten⟩ := inv
  exact ⟨world.wf canonical, world.written SP spWritten, world.written PC pcWritten⟩

/-- A reset that fails keeps it too: R0 to R5 alone become unwritten. -/
theorem inv_hostReset (inv : s.Inv) (initPsw : Word) : (hostReset initPsw s).Inv := by
  have start : (resetStart initPsw s).Inv := inv
  have words := start.of_world (quiet_resetWords _).toWorld
  cases answer : resetWords (resetStart initPsw s) with
  | ok a t =>
    rw [answer] at words
    rw [hostReset_of_ok answer]
    have moved := words.of_world ((Quiet.setReg t PC a.1).trans (Quiet.setReg _ SP a.2)).toWorld
    exact moved
  | err t =>
    rw [answer] at words
    rw [hostReset_of_err answer]
    exact words

end

end Sys2Proof.Machine

namespace Sys2Proof.Claims

open Sys2Proof Sys2Proof.Machine

/-- Settles O29: where both reads answer, reset writes pc, SP, PPC and the history into the state it reads from; with no
platform region both addresses lie in memory, and they are even. -/
theorem hostResetEffect : Obligations.HostResetEffect := by
  refine ⟨fun p w x s u v first second => ?effect, fun s noRegion => ?memory⟩
  case effect =>
    rw [hostReset_of_reads p first second]
    refine ⟨(State.pc_setSp _ x).trans (State.pc_setPc _ w), State.sp_setSp _ x, rfl, rfl, rfl, rfl, rfl, rfl,
      fun r notSp notPc => ?general, written_setPc_setSp _ w x SP, written_setPc_setSp _ w x PC,
      rfl, rfl, rfl, rfl, rfl, rfl, rfl⟩
    case general =>
      have kept := (written_setPc_setSp { resetStart p s with events := v.events } w x r).trans
        ((if_neg notSp).trans (if_neg notPc))
      exact kept.trans (resetStart_written p s notSp notPc)
  case memory =>
    have place := regionAt_of_empty noRegion
    exact ⟨readWord_memory (wordAddr_of_even _ rfl) (place _), readWord_memory (wordAddr_of_even _ rfl) (place _)⟩

/-- Settles O30: whichever read fails, the state after reset is the one it reads from with the history written. -/
theorem resetFaultHalts : Obligations.ResetFaultHalts := by
  refine fun p s => ⟨fun u first => ?first, fun w u v first second => ?second⟩
  case first =>
    rw [hostReset_of_err (resetWords_of_first_err (s := s) rfl rfl rfl first)]
    exact ⟨rfl, rfl, rfl, rfl, rfl, rfl, rfl⟩
  case second =>
    rw [hostReset_of_err (resetWords_of_second_err (s := s) rfl rfl rfl first second)]
    exact ⟨rfl, rfl, rfl, rfl, rfl, rfl, rfl⟩

/-- Settles O55: of the moves only a reset writes what the invariant reads. -/
theorem resetAndMovesMeetInvariant : Obligations.ResetAndMovesMeetInvariant := by
  refine ⟨by decide, fun m s inv => ?_⟩
  cases m with
  | reset initPsw => exact inv_hostReset inv initPsw
  | setPowerFail | setLine | requestHalt => exact inv

end Sys2Proof.Claims
end
